-- ==== Sys2Proof/Word.lean ====
section
/-!
DEFINITION. The word types of TCE (spec/00_scope.md R7): bits are numbered from 0 at the least
significant end, and every vector below is what the spec treats as bits.
-/
namespace Sys2Proof

/-- One byte: `u8`, a command byte, a byte of the frame buffer. -/
abbrev Byte := BitVec 8

/-- `u16`. -/
abbrev Half := BitVec 16

/-- `u32`, and also `f32`: a 32-bit pattern read as IEEE-754 binary32 (R7). -/
abbrev Word := BitVec 32

/-- `u40`, the width of a filter's sum (00_scope.md R5, 10_state.md R28). -/
abbrev Sum40 := BitVec 40

/-- The selector field `cmd[2:0]` of a command byte (30_encoding.md R90). -/
abbrev Sel := BitVec 3

/-- The 9-bit word of the schedule ROM, `{g, cmd[7:0]}` (30_encoding.md R95). -/
abbrev RomWord := BitVec 9

end Sys2Proof
end

