-- ==== Sys2Proof/Config.lean ====
section
/-!
DEFINITION. What is fixed for one TCE: the names of its instances, the constants WCC gives, the
parameters the spec leaves open (spec/00_scope.md R5, R6; 60_exceptions.md R301) and the one free
value (93_implementation_defined.md U6).
-/
namespace Sys2Proof

/-- The five filter instances `F[0..4]` (10_state.md R28), by the names of 30_encoding.md R97. -/
inductive FilterId where
  | levelSense   -- F[0]
  | levelRef     -- F[1]
  | filterDp     -- F[2]
  | fanTop       -- F[3]
  | fanBot       -- F[4]
deriving DecidableEq, Repr

/-- The two fans, `t = 0` top and `t = 1` bottom (41_tach.md). -/
inductive Fan where
  | top
  | bottom
deriving DecidableEq, Repr

/-- The 14 fault codes `FC_*`, parameters of the model: nonzero and pairwise distinct
(60_exceptions.md R301). -/
structure FaultCodes where
  resProbe : Half
  outProbe : Half
  levelLow : Half
  caseTempHigh : Half
  caseTempLow : Half
  caseHumHigh : Half
  resTempHigh : Half
  resTempLow : Half
  outTempHigh : Half
  outTempLow : Half
  filterDpHigh : Half
  fanTopStall : Half
  fanBotStall : Half
  pumpNoFlow : Half
deriving DecidableEq, Repr

/-- The parameters 00_scope.md R5 calls OPEN. They are a field of State that no step writes, so a
statement about every state is a statement about every value of them (log 4, DESIGN CHOICE). -/
structure Config where
  /-- `TACH_K`, f32, finite and positive. -/
  tachK : Word
  codes : FaultCodes
deriving DecidableEq, Repr

/-- The codes in the order of the table of R301. -/
def FaultCodes.toList (c : FaultCodes) : List Half :=
  [c.resProbe, c.outProbe, c.levelLow, c.caseTempHigh, c.caseTempLow, c.caseHumHigh, c.resTempHigh,
   c.resTempLow, c.outTempHigh, c.outTempLow, c.filterDpHigh, c.fanTopStall, c.fanBotStall,
   c.pumpNoFlow]

/-- The constraints R5 puts on the parameters: `TACH_K` finite and greater than 0 (sign bit 0,
exponent not all ones, pattern not 0); codes nonzero and pairwise distinct. -/
def Config.wf (c : Config) : Bool :=
  decide (0 < c.tachK.toNat ∧ c.tachK.toNat < 0x7F800000) &&
  c.codes.toList.all (fun k => k != 0) && decide c.codes.toList.Nodup

/-- The default values R5 and R301 give for the open parameters: `TACH_K = 30.0`, codes 1..14. -/
def Config.specDefault : Config where
  tachK := 0x41F00000
  codes :=
    { resProbe := 1, outProbe := 2, levelLow := 3, caseTempHigh := 4, caseTempLow := 5,
      caseHumHigh := 6, resTempHigh := 7, resTempLow := 8, outTempHigh := 9, outTempLow := 10,
      filterDpHigh := 11, fanTopStall := 12, fanBotStall := 13, pumpNoFlow := 14 }

/-- `FC_NONE`, the value of `error.code` when nothing was ever latched (R5). -/
def Config.fcNone : Half := 0

/-- `CAP[i]`, the capacity of filter `i` (R5, R6; WCC §4.1). -/
def Config.cap : FilterId → Nat
  | .levelSense => 100
  | .levelRef => 100
  | .filterDp => 100
  | .fanTop => 10
  | .fanBot => 10

/-- `FRAME_LEN`, the payload length in bytes (R5; 20_memory.md R62). -/
def Config.frameLen : Nat := 54

/-- `FAN_DUTY_ON`, 100% (R5). -/
def Config.fanDutyOn : Byte := 255

/-- `FAN_DUTY_OFF`, 0% (R5). -/
def Config.fanDutyOff : Byte := 0

/-- The number of entries of the schedule ROM (46_cycle.md R281). -/
def Config.romLen : Nat := 30

/-- The pattern of the NaN that an arithmetic primitive gives for two operands: R9 leaves it open
(93_implementation_defined.md U6), so it is a free value without a body (log 7). No state whose
parameters meet `Config.wf` ever stores it. -/
opaque Config.nanPattern : Word → Word → Word

end Sys2Proof
end

