-- ==== Sys2Proof/Syntax.lean ====
section
/-!
DEFINITION. The 31 commands of TCE, one constructor per row of spec/opcode_table.json
(30_encoding.md R93). A selector stays the 3-bit field it is in the command byte; WellFormed.lean
says which selectors a format admits (R91). The operand on `din` is no part of the command byte
(R92) and so no part of the syntax. The events TEDGE 0 and TEDGE 1 are not commands (R94).
-/
namespace Sys2Proof

/-- A command. Format F commands carry `i`, format T commands `t`, the format C command `r`, each
the whole field `cmd[2:0]`; format N commands carry nothing. -/
inductive Instr where
  | fadd (i : Sel)    -- FADD i
  | favg (i : Sel)    -- FAVG i
  | fcnt (i : Sel)    -- FCNT i
  | fclr (i : Sel)    -- FCLR i
  | tpoll (t : Sel)   -- TPOLL t
  | trpt (t : Sel)    -- TRPT t
  | msp               -- MSP
  | mls               -- MLS
  | mlr               -- MLR
  | mdp               -- MDP
  | mtr               -- MTR
  | mto               -- MTO
  | mti               -- MTI
  | mhu               -- MHU
  | mpf               -- MPF
  | mir               -- MIR
  | cklvl             -- CKLVL
  | ckcth             -- CKCTH
  | ckctl             -- CKCTL
  | ckchh             -- CKCHH
  | ckrth             -- CKRTH
  | ckrtl             -- CKRTL
  | ckoth             -- CKOTH
  | ckotl             -- CKOTL
  | ckdph             -- CKDPH
  | ckfs (t : Sel)    -- CKFS t
  | ckpmp             -- CKPMP
  | latch             -- LATCH
  | tstep             -- TSTEP
  | enc               -- ENC
  | cycle (r : Sel)   -- CYCLE r
deriving DecidableEq, Repr

end Sys2Proof
end

