-- ==== Sys2Proof/WellFormed.lean ====
section
/-!
DEFINITION. Which selectors each format admits (spec/30_encoding.md R91): format F 0..4, format T
0..1, format C 0..1; a format N command carries no selector.
-/
namespace Sys2Proof

/-- Legal `sel` of format F: a filter instance 0..4 (R91). -/
def legalFilterSel (i : Sel) : Bool := decide (i.toNat ≤ 4)

/-- Legal `sel` of format T: a fan, 0 or 1 (R91). -/
def legalFanSel (t : Sel) : Bool := decide (t.toNat ≤ 1)

/-- Legal `sel` of format C: the report flag, 0 or 1 (R91). -/
def legalReportSel (r : Sel) : Bool := decide (r.toNat ≤ 1)

/-- The instruction's selector is one its format admits. -/
def Instr.wf : Instr → Bool
  | .fadd i => legalFilterSel i
  | .favg i => legalFilterSel i
  | .fcnt i => legalFilterSel i
  | .fclr i => legalFilterSel i
  | .tpoll t => legalFanSel t
  | .trpt t => legalFanSel t
  | .msp => true
  | .mls => true
  | .mlr => true
  | .mdp => true
  | .mtr => true
  | .mto => true
  | .mti => true
  | .mhu => true
  | .mpf => true
  | .mir => true
  | .cklvl => true
  | .ckcth => true
  | .ckctl => true
  | .ckchh => true
  | .ckrth => true
  | .ckrtl => true
  | .ckoth => true
  | .ckotl => true
  | .ckdph => true
  | .ckfs t => legalFanSel t
  | .ckpmp => true
  | .latch => true
  | .tstep => true
  | .enc => true
  | .cycle r => legalReportSel r

end Sys2Proof
end

