-- ==== Sys2Proof/Decode.lean ====
section
/-!
DEFINITION. Decoding and encoding of command bytes (spec/30_encoding.md R90 to R93, R100). A command
is one byte, `op5[7:3]` and `sel[2:0]`; 51 bytes are legal and every other byte is rejected by name.
-/
namespace Sys2Proof

/-- Why a byte is no command (R100). -/
inductive DecodeError where
  | reservedOpcode (sel : Sel)                    -- op5 = 0, any selector
  | illegalSelector (op5 : BitVec 5) (sel : Sel)  -- a selector the format does not admit
  | noByte                                        -- nothing to decode
deriving DecidableEq, Repr

/-- `cmd[7:3]`. -/
def opcodeField (cmd : Byte) : BitVec 5 := cmd.extractLsb' 3 5

/-- `cmd[2:0]`. -/
def selectorField (cmd : Byte) : Sel := cmd.extractLsb' 0 3

/-- A format F command, if its selector is one of 0..4. -/
def formatF (op : BitVec 5) (sel : Sel) (mk : Sel → Instr) : Except DecodeError Instr :=
  if legalFilterSel sel then .ok (mk sel) else .error (.illegalSelector op sel)

/-- A format T command, if its selector is 0 or 1. -/
def formatT (op : BitVec 5) (sel : Sel) (mk : Sel → Instr) : Except DecodeError Instr :=
  if legalFanSel sel then .ok (mk sel) else .error (.illegalSelector op sel)

/-- A format C command, if its selector is 0 or 1. -/
def formatC (op : BitVec 5) (sel : Sel) (mk : Sel → Instr) : Except DecodeError Instr :=
  if legalReportSel sel then .ok (mk sel) else .error (.illegalSelector op sel)

/-- A format N command, if its selector is 0. -/
def formatN (op : BitVec 5) (sel : Sel) (i : Instr) : Except DecodeError Instr :=
  if sel = 0 then .ok i else .error (.illegalSelector op sel)

/-- The opcode map of R93, from the two fields. -/
def decodeFields (op : BitVec 5) (sel : Sel) : Except DecodeError Instr :=
  match op.toNat with
  | 1 => formatF op sel .fadd
  | 2 => formatF op sel .favg
  | 3 => formatF op sel .fcnt
  | 4 => formatF op sel .fclr
  | 5 => formatT op sel .tpoll
  | 6 => formatT op sel .trpt
  | 7 => formatN op sel .msp
  | 8 => formatN op sel .mls
  | 9 => formatN op sel .mlr
  | 10 => formatN op sel .mdp
  | 11 => formatN op sel .mtr
  | 12 => formatN op sel .mto
  | 13 => formatN op sel .mti
  | 14 => formatN op sel .mhu
  | 15 => formatN op sel .mpf
  | 16 => formatN op sel .mir
  | 17 => formatN op sel .cklvl
  | 18 => formatN op sel .ckcth
  | 19 => formatN op sel .ckctl
  | 20 => formatN op sel .ckchh
  | 21 => formatN op sel .ckrth
  | 22 => formatN op sel .ckrtl
  | 23 => formatN op sel .ckoth
  | 24 => formatN op sel .ckotl
  | 25 => formatN op sel .ckdph
  | 26 => formatT op sel .ckfs
  | 27 => formatN op sel .ckpmp
  | 28 => formatN op sel .latch
  | 29 => formatN op sel .tstep
  | 30 => formatN op sel .enc
  | 31 => formatC op sel .cycle
  | _ => .error (.reservedOpcode sel)

/-- The decoder of R93: split the byte into `op5` and `sel`, look up, check the selector. -/
def decodeByte (cmd : Byte) : Except DecodeError Instr :=
  decodeFields (opcodeField cmd) (selectorField cmd)

/-- Decode the first command of a list of bytes and answer the rest: all commands are one byte
(R90, R103). -/
def decode : List Byte → Except DecodeError (Instr × List Byte)
  | [] => .error .noByte
  | b :: rest =>
    match decodeByte b with
    | .ok i => .ok (i, rest)
    | .error e => .error e

/-- `op5` of each command (R93). -/
def Instr.opcode : Instr → BitVec 5
  | .fadd _ => 1
  | .favg _ => 2
  | .fcnt _ => 3
  | .fclr _ => 4
  | .tpoll _ => 5
  | .trpt _ => 6
  | .msp => 7
  | .mls => 8
  | .mlr => 9
  | .mdp => 10
  | .mtr => 11
  | .mto => 12
  | .mti => 13
  | .mhu => 14
  | .mpf => 15
  | .mir => 16
  | .cklvl => 17
  | .ckcth => 18
  | .ckctl => 19
  | .ckchh => 20
  | .ckrth => 21
  | .ckrtl => 22
  | .ckoth => 23
  | .ckotl => 24
  | .ckdph => 25
  | .ckfs _ => 26
  | .ckpmp => 27
  | .latch => 28
  | .tstep => 29
  | .enc => 30
  | .cycle _ => 31

/-- `sel` of each command: the operand, or 0 for format N (R91). -/
def Instr.selector : Instr → Sel
  | .fadd i => i
  | .favg i => i
  | .fcnt i => i
  | .fclr i => i
  | .tpoll t => t
  | .trpt t => t
  | .msp => 0
  | .mls => 0
  | .mlr => 0
  | .mdp => 0
  | .mtr => 0
  | .mto => 0
  | .mti => 0
  | .mhu => 0
  | .mpf => 0
  | .mir => 0
  | .cklvl => 0
  | .ckcth => 0
  | .ckctl => 0
  | .ckchh => 0
  | .ckrth => 0
  | .ckrtl => 0
  | .ckoth => 0
  | .ckotl => 0
  | .ckdph => 0
  | .ckfs t => t
  | .ckpmp => 0
  | .latch => 0
  | .tstep => 0
  | .enc => 0
  | .cycle r => r

/-- The command byte `{op5, sel}` (R90). -/
def encodeByte (i : Instr) : Byte := i.opcode ++ i.selector

/-- The words of a well-formed instruction: one byte (R90). -/
def encode (i : Instr) : List Byte := [encodeByte i]

/-- The command byte that a row of spec/opcode_table.json stands for, numbered as the table numbers
it. Every row has 8 bits, and TCE has no operand words (R92: the operand is on `din`). -/
def tableByte (w : Nat) : Byte := BitVec.ofNat 8 w

/-- The instruction the decoder reads from an instruction of the table whose bits are `w`. -/
def decodeTableWord (nbits w : Nat) : Option Instr :=
  if nbits = 8 then
    match decode [tableByte w] with
    | .ok (i, _) => some i
    | .error _ => none
  else none

end Sys2Proof
end

