-- ==== Sys2Proof/Machine/Binary32.lean ====
section
/-!
DEFINITION. The floating-point primitives of spec/00_scope.md R9 on binary32 patterns: exact integer
arithmetic, rounded once to nearest, ties to even, subnormals kept, no traps and no flags. The special
cases R9 does not list are IEEE 754's (log 8, PRESUMED).
-/
namespace Sys2Proof.Machine

/-- The result of an arithmetic primitive: a pattern, or `none` for a NaN, whose pattern R9 leaves
open (log 7). -/
abbrev F32Result := Option Word

/-- `F32_ZERO`, `+0.0` (R9). -/
def f32Zero : Word := 0x00000000

/-- `F32_1E6`, `1000000.0` (R9). -/
def f32Million : Word := 0x49742400

/-- The magnitude pattern of an infinity. -/
def f32InfMagnitude : Nat := 0x7F800000

/-- The sign bit, `w[31]` (R7). -/
def f32Sign (w : Word) : Bool := w.getLsbD 31

/-- The exponent field, `w[30:23]` (R7). -/
def f32Exponent (w : Word) : Nat := (w.extractLsb' 23 8).toNat

/-- The fraction field, `w[22:0]` (R7). -/
def f32Fraction (w : Word) : Nat := (w.extractLsb' 0 23).toNat

/-- The pattern is a NaN. -/
def f32IsNan (w : Word) : Bool := f32Exponent w == 255 && f32Fraction w != 0

/-- The pattern is an infinity. -/
def f32IsInf (w : Word) : Bool := f32Exponent w == 255 && f32Fraction w == 0

/-- The magnitude of a finite pattern, exactly, in units of 2^-149 (the least subnormal); an infinity's
pattern gives 2^277, above every finite one. -/
def f32Magnitude (w : Word) : Nat :=
  if f32Exponent w = 0 then f32Fraction w else (2 ^ 23 + f32Fraction w) * 2 ^ (f32Exponent w - 1)

/-- The signed value in units of 2^-149; both zeros give 0. -/
def f32Scaled (w : Word) : Int :=
  if f32Sign w then -(f32Magnitude w : Int) else (f32Magnitude w : Int)

/-- The integer `e` with `2^e <= n/d < 2^(e+1)`, for `n` and `d` above 0 (R9). -/
def floorLog2 (n d : Nat) : Int :=
  let k : Int := (n.log2 : Int) - (d.log2 : Int)
  if d * 2 ^ k.toNat ≤ n * 2 ^ (-k).toNat then k else k - 1

/-- `n/d` rounded to the nearest integer, ties to the even integer (R9). -/
def rneQuotient (n d : Nat) : Nat :=
  let q := n / d
  let r := n % d
  if d < 2 * r ∨ (2 * r = d ∧ q % 2 = 1) then q + 1 else q

/-- The magnitude pattern of `n/d` rounded to binary32: R9's text for `rne32`, with the exponent held
at -126 for the subnormals and an infinity above the largest exponent. -/
def roundMagnitude (n d : Nat) : Nat :=
  if n = 0 then 0
  else
    let e := max (floorLog2 n d) (-126)
    let m := rneQuotient (n * 2 ^ (23 - e).toNat) (d * 2 ^ (e - 23).toNat)
    let m' := if m = 2 ^ 24 then 2 ^ 23 else m
    let e' := if m = 2 ^ 24 then e + 1 else e
    if m' < 2 ^ 23 then m'
    else if 127 < e' then f32InfMagnitude
    else (e' + 127).toNat * 2 ^ 23 + (m' - 2 ^ 23)

/-- The pattern of a sign and a magnitude pattern. -/
def withSign (neg : Bool) (magnitude : Nat) : Word :=
  BitVec.ofNat 32 ((if neg then 2 ^ 31 else 0) + magnitude)

/-- `rne32(n/d)` of R9, for a rational that is not negative. -/
def rne32 (n d : Nat) : Word := withSign false (roundMagnitude n d)

/-- `f32_of_u16(n)`, exact (R9). -/
def f32OfU16 (n : Half) : Word := rne32 n.toNat 1

/-- `f32_of_u8(n)`, exact (R9). -/
def f32OfU8 (n : Byte) : Word := rne32 n.toNat 1

/-- The pattern with its sign bit turned over. -/
def fneg32 (a : Word) : Word := a ^^^ 0x80000000

/-- `fadd32(a, b)` (R9). -/
def fadd32 (a b : Word) : F32Result :=
  if f32IsNan a || f32IsNan b then none
  else if f32IsInf a then
    if f32IsInf b && f32Sign a != f32Sign b then none else some a
  else if f32IsInf b then some b
  else
    let k := f32Scaled a + f32Scaled b
    if k = 0 then some (withSign (f32Sign a && f32Sign b) 0)
    else some (withSign (decide (k < 0)) (roundMagnitude k.natAbs (2 ^ 149)))

/-- `fsub32(a, b)` (R9): `a + (-b)`. -/
def fsub32 (a b : Word) : F32Result := fadd32 a (fneg32 b)

/-- `fmul32(a, b)` (R9). -/
def fmul32 (a b : Word) : F32Result :=
  let neg := f32Sign a != f32Sign b
  if f32IsNan a || f32IsNan b then none
  else if f32IsInf a || f32IsInf b then
    if f32Magnitude a = 0 ∨ f32Magnitude b = 0 then none else some (withSign neg f32InfMagnitude)
  else some (withSign neg (roundMagnitude (f32Magnitude a * f32Magnitude b) (2 ^ 149 * 2 ^ 149)))

/-- `fdiv32(a, b)` (R9). -/
def fdiv32 (a b : Word) : F32Result :=
  let neg := f32Sign a != f32Sign b
  if f32IsNan a || f32IsNan b then none
  else if f32IsInf a then
    if f32IsInf b then none else some (withSign neg f32InfMagnitude)
  else if f32IsInf b then some (withSign neg 0)
  else if f32Magnitude b = 0 then
    if f32Magnitude a = 0 then none else some (withSign neg f32InfMagnitude)
  else some (withSign neg (roundMagnitude (f32Magnitude a) (f32Magnitude b)))

/-- `flt32(a, b)`: the ordered comparison `a < b`, false on a NaN (R9). -/
def flt32 (a b : Word) : Bool :=
  !f32IsNan a && !f32IsNan b && decide (f32Scaled a < f32Scaled b)

/-- `fgt32(a, b)`: the ordered comparison `a > b`, false on a NaN (R9). -/
def fgt32 (a b : Word) : Bool := flt32 b a

/-- `fle32(a, b)`: the ordered comparison `a <= b`, false on a NaN (R9). -/
def fle32 (a b : Word) : Bool :=
  !f32IsNan a && !f32IsNan b && decide (f32Scaled a ≤ f32Scaled b)

/-- `fgt32(a, r)` where `r` is an arithmetic result: false when `r` is a NaN. -/
def fgtResult (a : Word) (r : F32Result) : Bool :=
  match r with
  | some b => fgt32 a b
  | none => false

/-- `fle32(a, r)` where `r` is an arithmetic result: false when `r` is a NaN. -/
def fleResult (a : Word) (r : F32Result) : Bool :=
  match r with
  | some b => fle32 a b
  | none => false

end Sys2Proof.Machine
end

