-- ==== Sys2Proof/Machine/State.lean ====
section
/-!
DEFINITION. The state of TCE as plain data: everything spec/10_state.md R20 gives the block, the run's
output events, and beside them the inputs, the parameters and the environment's coming actions, which
one deterministic step needs to be a function of State alone (logs 1, 2, 4).
-/
namespace Sys2Proof.Machine

/-- Readings, the register file `RD[0..18]` (10_state.md R21), in the order of the frame. -/
structure Readings where
  resTemp : Word          -- RD[0], f32
  setpoint : Word         -- RD[1], f32
  levelSense : Word       -- RD[2], f32
  levelRef : Word         -- RD[3], f32
  insideTemp : Word       -- RD[4], f32
  outsideTemp : Word      -- RD[5], f32
  humidity : Word         -- RD[6], f32
  filterDp : Half         -- RD[7]
  topTach : Word          -- RD[8], f32
  bottomTach : Word       -- RD[9], f32
  fanPwm : Byte           -- RD[10]
  compRunning : Bool      -- RD[11]
  valve : Bool            -- RD[12]
  compressorTime : Word   -- RD[13], ms
  valveTime : Word        -- RD[14], ms
  pumpRunning : Bool      -- RD[15]
  flowOk : Bool           -- RD[16]
  alert : Bool            -- RD[17], latched
  code : Half             -- RD[18], latched
deriving DecidableEq, Repr

/-- The four output registers (10_state.md R26). -/
structure Outputs where
  valveOut : Bool
  compressorOut : Bool
  fanPwmOut : Byte
  alarmOut : Bool
deriving DecidableEq, Repr

/-- The two lockout timestamps, in ms (10_state.md R27). -/
structure LockoutTimers where
  lastCompressorToggle : Word
  lastValveToggle : Word
deriving DecidableEq, Repr

/-- One filter instance (10_state.md R28): the sample store, the slot the next insertion writes, the
number of samples held, their exact sum. -/
structure FilterWindow where
  buf : List Word
  head : Nat
  count : Nat
  sum : Sum40
deriving DecidableEq, Repr

/-- The five filter instances `F[0..4]` (10_state.md R28). -/
structure FilterBank where
  levelSense : FilterWindow  -- F[0]
  levelRef : FilterWindow  -- F[1]
  filterDp : FilterWindow  -- F[2]
  fanTop : FilterWindow  -- F[3]
  fanBot : FilterWindow  -- F[4]
deriving DecidableEq, Repr

/-- One pulse-capture record (10_state.md R30), times in µs. -/
structure PulseCapture where
  ready : Bool
  lastPulseTimestamp : Word
  currentPulseTimestamp : Word
  pulseLength : Word
deriving DecidableEq, Repr

/-- `PC[0]` and `PC[1]` (10_state.md R30). -/
structure PulseBank where
  top : PulseCapture
  bottom : PulseCapture
deriving DecidableEq, Repr

/-- The sequencer registers (10_state.md R33). -/
structure Sequencer where
  phase : BitVec 5
  busy : Bool
  rpt : Bool
deriving DecidableEq, Repr

/-- The input ports but for the tach lines and the command port (10_state.md R40). -/
structure Inputs where
  nowMs : Word
  nowUs : Word
  levelSenseRaw : Half
  levelRefRaw : Half
  filterDpRaw : Half
  resTemp : Word
  resTempOk : Bool
  outTemp : Word
  outTempOk : Bool
  insideTemp : Word
  humidity : Word
  setpoint : Word
  pumpRelay : Bool
  flowSwitch : Bool
  runningState : Bool
deriving DecidableEq, Repr

/-- The levels of the two tachometer lines `IN.tach_top`, `IN.tach_bot` (10_state.md R40), which the
edge detectors compare with the next level (log 14). -/
structure TachLines where
  top : Bool
  bottom : Bool
deriving DecidableEq, Repr

/-- Settings, 15 read-only input fields (10_state.md R24). -/
structure Settings where
  version : Byte
  filterHighLimit : Half
  filterZero : Half
  caseTemperatureHighLimit : Byte
  caseTemperatureLowLimit : Byte
  caseHumidityHighLimit : Byte
  reservoirVolumeLowLimit : Half
  reservoirRefZero : Half
  reservoirTempHighLimit : Byte
  reservoirTempLowLimit : Byte
  outsideTempHighLimit : Byte
  outsideTempLowLimit : Byte
  valveLockout : Word
  compressorLockout : Word
  hysteresis : Word
deriving DecidableEq, Repr

/-- The frame buffer, the only byte-addressed memory (20_memory.md R64): address and byte pairs in
canonical form, an unlisted address reading 0x00, the reset contents (10_state.md R42). -/
abbrev Memory := List Host.Cell

/-- What the environment does next (10_state.md R38, 30_encoding.md R96; log 2). The list of these in
State is the open placement of commands, edges and input changes: every interleaving the spec admits
is some list. -/
inductive EnvAction where
  | command (cmd : Byte) (din : Word)                -- the host presents a command byte and `din`
  | main                                             -- the main agent's turn: inside a CYCLE, its next entry
  | edge (t : Fan) (nowUs : Word)                    -- `.edge t @ nowUs`: one falling edge at that time
  | tach (t : Fan) (level : Bool) (nowUs : Word)     -- the tach line takes a level at that time
  | inputs (p : Inputs)                              -- `.in`: the input ports take these values
  | settings (r : Settings)                          -- `.set`: the Settings record takes these values
  | powerCycle                                       -- the power-on reset (70_reset_and_hazards.md R340)
deriving DecidableEq, Repr

/-- The state. `rd` to `fb` are the block's own (10_state.md R20); `frameStrobe` and `frames` are its
outputs (R38, R41); `din`, `inp`, `tach`, `settings` are inputs (R24, R40); `cfg` the parameters
(00_scope.md R5); `env` the environment's coming actions. -/
structure State where
  rd : Readings
  out : Outputs
  lock : LockoutTimers
  filters : FilterBank
  pulses : PulseBank
  seq : Sequencer
  dout : Word
  cmdErr : Bool
  fb : Memory
  frameStrobe : Bool
  frames : List (List Byte)
  din : Word
  inp : Inputs
  tach : TachLines
  settings : Settings
  cfg : Config
  env : List EnvAction
deriving DecidableEq, Repr

/-- Why the machine stops. Both name an address that does not exist; no state that meets
`Safety.Inv` takes either. -/
inductive Fault where
  /-- A byte offset outside `FB[0..53]` (00_scope.md R8, 20_memory.md R64). Raised by `memWrite`, which
  only ENC calls, with offsets that all exist. Safe: the model stops where no hardware behaviour is
  described. Log 12. -/
  | frameAddress
  /-- A `phase` of 30 or 31: the schedule ROM has 30 words (46_cycle.md R281, R283). Raised by the
  sequencer's fetch. Safe: such a phase is unreachable. Log 12. -/
  | scheduleAddress
deriving DecidableEq, Repr

/-- Why an instruction is refused. -/
inductive Refusal where
  /-- An instruction without a meaning yet, raised by `exec` only; every instruction has one, so
  nothing raises it. Safe. -/
  | notModelled (mnemonic : String)
deriving DecidableEq, Repr

/-- An empty filter of `n` slots. The contents of the slots are unspecified (10_state.md R42) and
never read before they are written; zeros are a DESIGN CHOICE (log 5). -/
def FilterWindow.empty (n : Nat) : FilterWindow where
  buf := List.replicate n 0
  head := 0
  count := 0
  sum := 0

/-- A pulse-capture record after reset (10_state.md R42). -/
def PulseCapture.reset : PulseCapture where
  ready := false
  lastPulseTimestamp := 0
  currentPulseTimestamp := 0
  pulseLength := 0

/-- The input ports as the model's reset state has them: not state of the block (10_state.md R42), so
these are a DESIGN CHOICE, the start values of 95_test_vectors.md (log 6). -/
def Inputs.quiet : Inputs where
  nowMs := 0
  nowUs := 0
  levelSenseRaw := 0
  levelRefRaw := 0
  filterDpRaw := 0
  resTemp := 0
  resTempOk := true
  outTemp := 0
  outTempOk := true
  insideTemp := 0
  humidity := 0
  setpoint := 0
  pumpRelay := false
  flowSwitch := false
  runningState := true

/-- Settings as the model's reset state has them (log 6, DESIGN CHOICE, as for the ports). -/
def Settings.zero : Settings where
  version := 0
  filterHighLimit := 0
  filterZero := 0
  caseTemperatureHighLimit := 0
  caseTemperatureLowLimit := 0
  caseHumidityHighLimit := 0
  reservoirVolumeLowLimit := 0
  reservoirRefZero := 0
  reservoirTempHighLimit := 0
  reservoirTempLowLimit := 0
  outsideTempHighLimit := 0
  outsideTempLowLimit := 0
  valveLockout := 0
  compressorLockout := 0
  hysteresis := 0

/-- The state right after the power-on reset (10_state.md R42; 70_reset_and_hazards.md R341). -/
def State.reset : State where
  rd :=
    { resTemp := 0, setpoint := 0, levelSense := 0, levelRef := 0, insideTemp := 0,
      outsideTemp := 0, humidity := 0, filterDp := 0, topTach := 0, bottomTach := 0, fanPwm := 0,
      compRunning := false, valve := false, compressorTime := 0, valveTime := 0,
      pumpRunning := false, flowOk := false, alert := false, code := Config.fcNone }
  out := { valveOut := false, compressorOut := false, fanPwmOut := 0, alarmOut := false }
  lock := { lastCompressorToggle := 0, lastValveToggle := 0 }
  filters :=
    { levelSense := FilterWindow.empty (Config.cap .levelSense)
      levelRef := FilterWindow.empty (Config.cap .levelRef)
      filterDp := FilterWindow.empty (Config.cap .filterDp)
      fanTop := FilterWindow.empty (Config.cap .fanTop)
      fanBot := FilterWindow.empty (Config.cap .fanBot) }
  pulses := { top := PulseCapture.reset, bottom := PulseCapture.reset }
  seq := { phase := 0, busy := false, rpt := false }
  dout := 0
  cmdErr := false
  fb := []
  frameStrobe := false
  frames := []
  din := 0
  inp := Inputs.quiet
  tach := { top := false, bottom := false }
  settings := Settings.zero
  cfg := Config.specDefault
  env := []

end Sys2Proof.Machine
end

