-- ==== Sys2Proof/Machine/Operands.lean ====
section
/-!
DEFINITION. The operand forms of TCE: selectors (spec/30_encoding.md R91, R92), the data port, and the
integer helpers of 00_scope.md R7. Ports and Settings are read as the State fields of their names.
-/
namespace Sys2Proof.Machine

/-- The filter a format F selector names, `i = cmd[2:0]` in 0..4 (R91, R92). -/
def filterOfSel (i : Sel) : Option FilterId :=
  match i.toNat with
  | 0 => some .levelSense
  | 1 => some .levelRef
  | 2 => some .filterDp
  | 3 => some .fanTop
  | 4 => some .fanBot
  | _ => none

/-- The fan a format T selector names, `{0, 0, t}` (R91, R92). -/
def fanOfSel (t : Sel) : Option Fan :=
  match t.toNat with
  | 0 => some .top
  | 1 => some .bottom
  | _ => none

/-- The report flag a format C selector gives, `{0, 0, r}` (R91, R92). -/
def reportOfSel (r : Sel) : Option Bool :=
  match r.toNat with
  | 0 => some false
  | 1 => some true
  | _ => none

/-- `F[3+t]`, the filter of fan `t` (41_tach.md R141, R142). -/
def fanFilter : Fan → FilterId
  | .top => .fanTop
  | .bottom => .fanBot

/-- `sub32(a, b) = (a - b) mod 2^32` (00_scope.md R7). -/
def sub32 (a b : Word) : Word := a - b

/-- `sat16(n) = min(n, 65535)` (00_scope.md R7). -/
def sat16 (n : Nat) : Half := BitVec.ofNat 16 (min n 65535)

/-- `din[15:0]`, the operand of LATCH (R92). -/
def codeOfDin (d : Word) : Half := d.extractLsb' 0 16

/-- `zext_32(v)` of a 16-bit sample (00_scope.md R7). -/
def zext32 (v : Half) : Word := v.setWidth 32

/-- `zext_40(v)` of a sample (00_scope.md R7). -/
def zext40 (v : Word) : Sum40 := v.setWidth 40

/-- A bool as a frame byte's value: `0x01` for true and `0x00` for false (45_telemetry.md R261). -/
def boolWord (b : Bool) : Word := if b then 1 else 0

/-- The value of the present level read, per fan. -/
def TachLines.get (l : TachLines) : Fan → Bool
  | .top => l.top
  | .bottom => l.bottom

/-- The tach lines with one line at a new level. -/
def TachLines.set (l : TachLines) (t : Fan) (level : Bool) : TachLines :=
  match t with
  | .top => { l with top := level }
  | .bottom => { l with bottom := level }

end Sys2Proof.Machine
end

