-- ==== Sys2Proof/Machine/Flags.lean ====
section
/-!
DEFINITION. The conditions TCE tests (spec/10_state.md R36: there are no arithmetic condition codes):
the threshold comparisons of 43_fault_monitor.md R202, the stall and flow conditions of R200 and R201,
the lockout gates of 44_thermal_sm.md R238 and the guard of 46_cycle.md R282. The flags themselves are
State fields written by Ops.lean.
-/
namespace Sys2Proof.Machine

/-- A high check fires when `reading > limit`, strictly (R202). -/
def aboveLimit (reading limit : Word) : Bool := fgt32 reading limit

/-- A low check fires when `reading < limit`, strictly (R202). -/
def belowLimit (reading limit : Word) : Bool := flt32 reading limit

/-- The differential-pressure check compares two unsigned integers (R199, R202). -/
def aboveLimitU16 (reading limit : Half) : Bool := decide (limit.toNat < reading.toNat)

/-- A fan is stalled: no sample held although the commanded duty is not 0 (R200). -/
def stalled (count : Nat) (duty : Byte) : Bool := count == 0 && duty != 0

/-- The pump runs without flow (R201). -/
def pumpWithoutFlow (running flow : Bool) : Bool := running && !flow

/-- A lockout gate: `sub32(now, timestamp) >= lockout`, unsigned (44_thermal_sm.md R232, R238). -/
def lockoutElapsed (now stamp lockout : Word) : Bool :=
  decide (lockout.toNat ≤ (sub32 now stamp).toNat)

/-- A schedule entry with guard `g` executes when `g = 0` or `rpt = 1` (46_cycle.md R280, R282). -/
def entryExecutes (g rpt : Bool) : Bool := !g || rpt

end Sys2Proof.Machine
end

