-- ==== Sys2Proof/Machine/Ops.lean ====
section
/-!
DEFINITION. The named operations over TCE's memories and registers, each defined once: the frame buffer
(spec/20_memory.md R60), the filters (40_filter.md R120, R121), the pulse-capture records, the block's
one exception `raise Latch(code)` (60_exceptions.md R300), `raise IllegalCommand` (30_encoding.md R101)
and the sequencer's `phase` (46_cycle.md R283). There is no return from an exception (60_exceptions.md
R310): nothing but reset clears the latch.
-/
namespace Sys2Proof.Machine

/-- One byte of the frame buffer; an unlisted address reads 0x00 (10_state.md R42). -/
def Memory.read (a : Nat) : Memory → Byte
  | [] => 0
  | (a', b) :: rest => if a = a' then b else Memory.read a rest

/-- Set one byte, keeping the canonical form: addresses strictly rising, no entry of value 0x00. -/
def Memory.write (a : Nat) (b : Byte) : Memory → Memory
  | [] => if b = 0 then [] else [(a, b)]
  | (a', b') :: rest =>
    if a < a' then (if b = 0 then (a', b') :: rest else (a, b) :: (a', b') :: rest)
    else if a = a' then (if b = 0 then rest else (a, b) :: rest)
    else (a', b') :: Memory.write a b rest

/-- The canonical form from address `lo` on: strictly rising addresses that exist, no byte 0x00. -/
def Memory.wfFrom (lo : Nat) : Memory → Bool
  | [] => true
  | (a, b) :: rest => decide (lo ≤ a) && decide (a < Config.frameLen) && b != 0 && Memory.wfFrom (a + 1) rest

/-- The canonical form of the frame buffer. -/
def Memory.wf (m : Memory) : Bool := Memory.wfFrom 0 m

/-- Set consecutive bytes from address `a` on. -/
def Memory.writeBytes (a : Nat) : List Byte → Memory → Memory
  | [], m => m
  | b :: bs, m => Memory.writeBytes (a + 1) bs (Memory.write a b m)

/-- The `n` low bytes of `v`, least significant first (20_memory.md R60). -/
def littleEndian (n : Nat) (v : Word) : List Byte :=
  (List.range n).map (fun j => v.extractLsb' (8 * j) 8)

/-- `MemWrite(a, n, v)` (20_memory.md R60): `none` when a byte would lie outside `FB[0..53]`. -/
def memWrite (a n : Nat) (v : Word) (m : Memory) : Option Memory :=
  if a + n ≤ Config.frameLen then some (Memory.writeBytes a (littleEndian n v) m) else none

/-- `MemRead(a, n)` (20_memory.md R60) of up to 4 bytes; `none` outside `FB[0..53]`. -/
def memRead (a n : Nat) (m : Memory) : Option Word :=
  if a + n ≤ Config.frameLen then
    some (((List.range n).map (fun j => (Memory.read (a + j) m).setWidth 32 <<< (8 * j))).foldl (· ||| ·) 0)
  else none

/-- The 54 bytes `FB[0..53]`. -/
def frameBytes (m : Memory) : List Byte := (List.range Config.frameLen).map (fun a => Memory.read a m)

/-- `F[i]`. -/
def FilterBank.get (b : FilterBank) : FilterId → FilterWindow
  | .levelSense => b.levelSense
  | .levelRef => b.levelRef
  | .filterDp => b.filterDp
  | .fanTop => b.fanTop
  | .fanBot => b.fanBot

/-- The bank with `F[i]` replaced. -/
def FilterBank.set (b : FilterBank) (i : FilterId) (f : FilterWindow) : FilterBank :=
  match i with
  | .levelSense => { b with levelSense := f }
  | .levelRef => { b with levelRef := f }
  | .filterDp => { b with filterDp := f }
  | .fanTop => { b with fanTop := f }
  | .fanBot => { b with fanBot := f }

/-- `PC[t]`. -/
def PulseBank.get (b : PulseBank) : Fan → PulseCapture
  | .top => b.top
  | .bottom => b.bottom

/-- The bank with `PC[t]` replaced. -/
def PulseBank.set (b : PulseBank) (t : Fan) (p : PulseCapture) : PulseBank :=
  match t with
  | .top => { b with top := p }
  | .bottom => { b with bottom := p }

/-- `FilterAdd` on one window of capacity `cap` (40_filter.md R120): a full window gives up the sample
at `head`, which the new one overwrites. -/
def filterInsert (cap : Nat) (x : Word) (f : FilterWindow) : FilterWindow :=
  { buf := f.buf.set f.head x
    head := (f.head + 1) % cap
    count := if f.count = cap then f.count else f.count + 1
    sum := (if f.count = cap then f.sum - zext40 (f.buf.getD f.head 0) else f.sum) + zext40 x }

/-- `FilterAvg` of one window (40_filter.md R121): `+0.0` when empty, else the exact mean rounded
once. -/
def filterMean (f : FilterWindow) : Word :=
  if f.count = 0 then f32Zero else rne32 f.sum.toNat f.count

/-- The integer mean of 42_measure.md R163: `sat16(sum div count)`. -/
def filterIntegerMean (f : FilterWindow) : Half := sat16 (f.sum.toNat / f.count)

/-- Empty a window, keeping the dead contents of its slots (40_filter.md R125). -/
def filterCleared (f : FilterWindow) : FilterWindow := { f with count := 0, sum := 0, head := 0 }

/-- The state with `F[i]` replaced. -/
def State.setFilter (i : FilterId) (f : FilterWindow) (s : State) : State :=
  { s with filters := s.filters.set i f }

/-- `FilterAdd(i, x)` (40_filter.md R120). -/
def State.addSample (i : FilterId) (x : Word) (s : State) : State :=
  s.setFilter i (filterInsert (Config.cap i) x (s.filters.get i))

/-- The state with `PC[t]` replaced. -/
def State.setPulse (t : Fan) (p : PulseCapture) (s : State) : State :=
  { s with pulses := s.pulses.set t p }

/-- The state with Readings replaced. -/
def State.setRd (r : Readings) (s : State) : State := { s with rd := r }

/-- `dout <- v` (10_state.md R34). -/
def State.setDout (v : Word) (s : State) : State := { s with dout := v }

/-- `raise Latch(code)`: `RD.code <- code`, `RD.alert <- 1`, `alarm_out <- 1`, and nothing else
(60_exceptions.md R300). -/
def State.raiseLatch (code : Half) (s : State) : State :=
  { s with
    rd := { s.rd with alert := true, code := code }
    out := { s.out with alarmOut := true } }

/-- A check latches its code when its condition holds and changes nothing otherwise
(43_fault_monitor.md R190). -/
def State.latchIf (c : Bool) (code : Half) (s : State) : State :=
  if c then s.raiseLatch code else s

/-- `raise IllegalCommand`: `cmd_err <- 1` and nothing else (30_encoding.md R101). -/
def State.raiseIllegal (s : State) : State := { s with cmdErr := true }

/-- The first line of CYCLE: `busy <- 1 ; rpt <- r ; phase <- 0` (46_cycle.md R280). -/
def State.startCycle (r : Bool) (s : State) : State :=
  { s with seq := { phase := 0, busy := true, rpt := r } }

/-- After an entry: `phase` one further, or the end of the cycle after entry 29 (46_cycle.md R280,
R283). -/
def State.advancePhase (s : State) : State :=
  if s.seq.phase = 29 then { s with seq := { s.seq with phase := 0, busy := false } }
  else { s with seq := { s.seq with phase := s.seq.phase + 1 } }

/-- `emit FRAME(FB[0..53])`: append the event and raise the strobe (45_telemetry.md R262; log 13). -/
def State.emitFrame (s : State) : State :=
  { s with frames := s.frames ++ [frameBytes s.fb], frameStrobe := true }

/-- The strobe is up for the duration of ENC's operation only, so a step begins with it down
(45_telemetry.md R262; log 13). -/
def State.lowerStrobe (s : State) : State := { s with frameStrobe := false }

/-- Go on with the next state of an outcome. -/
def andThen (o : Host.Outcome State Fault Refusal) (f : State → State) :
    Host.Outcome State Fault Refusal :=
  match o with
  | .next s => .next (f s)
  | .fault r => .fault r
  | .refused r => .refused r

/-- Run an operation on the filter a selector names; an illegal selector is an illegal command
(40_filter.md R122: "`IllegalCommand` when `i > 4`"; log 16). -/
def onFilter (i : Sel) (f : FilterId → State → State) (s : State) : Host.Outcome State Fault Refusal :=
  match filterOfSel i with
  | some k => .next (f k s)
  | none => .next s.raiseIllegal

/-- Run an operation on the fan a selector names; an illegal selector is an illegal command
(41_tach.md R141; log 16). -/
def onFan (t : Sel) (f : Fan → State → State) (s : State) : Host.Outcome State Fault Refusal :=
  match fanOfSel t with
  | some k => .next (f k s)
  | none => .next s.raiseIllegal

end Sys2Proof.Machine
end

