-- ==== Sys2Proof/Machine/Measure.lean ====
section
/-!
DEFINITION. The measurement stage (spec/42_measure.md): MSP, MLS, MLR, MDP, MTR, MTO, MTI, MHU, MPF,
MIR.
-/
namespace Sys2Proof.Machine

/-- `MSP` — the setpoint (R160). -/
def execMsp (s : State) : Host.Outcome State Fault Refusal :=
  .next (s.setRd { s.rd with setpoint := s.inp.setpoint })

/-- `MLS` — sample and smooth the reservoir level sense (R161). -/
def execMls (s : State) : Host.Outcome State Fault Refusal :=
  let s' := s.addSample .levelSense (zext32 s.inp.levelSenseRaw)
  .next (s'.setRd { s'.rd with levelSense := filterMean s'.filters.levelSense })

/-- `MLR` — sample and smooth the reservoir level reference (R162). -/
def execMlr (s : State) : Host.Outcome State Fault Refusal :=
  let s' := s.addSample .levelRef (zext32 s.inp.levelRefRaw)
  .next (s'.setRd { s'.rd with levelRef := filterMean s'.filters.levelRef })

/-- `MDP` — sample and smooth the filter differential pressure, as an integer (R163). -/
def execMdp (s : State) : Host.Outcome State Fault Refusal :=
  let s' := s.addSample .filterDp (zext32 s.inp.filterDpRaw)
  .next (s'.setRd { s'.rd with filterDp := filterIntegerMean s'.filters.filterDp })

/-- `MTR` — the reservoir probe's reading, or `0.0` and a latch (R164). -/
def execMtr (s : State) : Host.Outcome State Fault Refusal :=
  if s.inp.resTempOk then .next (s.setRd { s.rd with resTemp := s.inp.resTemp })
  else .next ((s.setRd { s.rd with resTemp := f32Zero }).raiseLatch s.cfg.codes.resProbe)

/-- `MTO` — the outside probe's reading, or `0.0` and a latch (R165). -/
def execMto (s : State) : Host.Outcome State Fault Refusal :=
  if s.inp.outTempOk then .next (s.setRd { s.rd with outsideTemp := s.inp.outTemp })
  else .next ((s.setRd { s.rd with outsideTemp := f32Zero }).raiseLatch s.cfg.codes.outProbe)

/-- `MTI` — the case temperature (R166). -/
def execMti (s : State) : Host.Outcome State Fault Refusal :=
  .next (s.setRd { s.rd with insideTemp := s.inp.insideTemp })

/-- `MHU` — the case humidity (R167). -/
def execMhu (s : State) : Host.Outcome State Fault Refusal :=
  .next (s.setRd { s.rd with humidity := s.inp.humidity })

/-- `MPF` — the pump and flow observations (R168). -/
def execMpf (s : State) : Host.Outcome State Fault Refusal :=
  .next (s.setRd { s.rd with pumpRunning := s.inp.pumpRelay, flowOk := s.inp.flowSwitch })

/-- `MIR` — mirror the outputs and derive the elapsed times (R169). -/
def execMir (s : State) : Host.Outcome State Fault Refusal :=
  .next (s.setRd { s.rd with
    compRunning := s.out.compressorOut
    valve := s.out.valveOut
    fanPwm := s.out.fanPwmOut
    compressorTime := sub32 s.inp.nowMs s.lock.lastCompressorToggle
    valveTime := sub32 s.inp.nowMs s.lock.lastValveToggle })

end Sys2Proof.Machine
end

