-- ==== Sys2Proof/Machine/Cycle.lean ====
section
/-!
DEFINITION. CYCLE and the schedule ROM (spec/46_cycle.md). CYCLE's own step is the start of the cycle
together with entry 0; the entries after it are the sequencer's (Machine/Sequencer.lean).
-/
namespace Sys2Proof.Machine

/-- The schedule ROM, 30 words `{g, cmd}` (R281). -/
def scheduleRom : List RomWord :=
  [0x038, 0x040, 0x048, 0x050, 0x058, 0x060, 0x068, 0x070, 0x078, 0x028, 0x029, 0x130, 0x131] ++
  [0x088, 0x090, 0x098, 0x0A0, 0x0A8, 0x0B0, 0x0B8, 0x0C0, 0x0C8, 0x1D0, 0x1D1, 0x0D8] ++
  [0x123, 0x124, 0x0E8, 0x080, 0x0F0]

/-- The guard bit of a ROM word (30_encoding.md R95). -/
def romGuard (w : RomWord) : Bool := w.getLsbD 8

/-- The command byte of a ROM word (30_encoding.md R95). -/
def romCommand (w : RomWord) : Byte := w.extractLsb' 0 8

/-- `CYCLE r` (R280): the first line takes effect together with the execution of entry 0, which is MSP
without a guard (R281; the law `execCycle_is_entry_zero` of Laws/Sequencer.lean shows that this is the sequencer's own
step of entry 0). -/
def execCycle (r : Sel) (s : State) : Host.Outcome State Fault Refusal :=
  match reportOfSel r with
  | some b => andThen (execMsp (s.startCycle b)) State.advancePhase
  | none => .next s.raiseIllegal

end Sys2Proof.Machine
end

