-- ==== Sys2Proof/Machine/FaultMonitor.lean ====
section
/-!
DEFINITION. FaultMonitor (spec/43_fault_monitor.md): the eleven check commands and LATCH. A check whose
condition holds takes the block's exception, `raise Latch(code)`, and changes nothing otherwise (R190).
-/
namespace Sys2Proof.Machine

/-- `CKLVL` — reservoir level low, check 1 (R191). -/
def execCklvl (s : State) : Host.Outcome State Fault Refusal :=
  .next (s.latchIf (belowLimit s.rd.levelSense (f32OfU16 s.settings.reservoirVolumeLowLimit)) s.cfg.codes.levelLow)

/-- `CKCTH` — case temperature high, check 2 (R192). -/
def execCkcth (s : State) : Host.Outcome State Fault Refusal :=
  .next (s.latchIf (aboveLimit s.rd.insideTemp (f32OfU8 s.settings.caseTemperatureHighLimit)) s.cfg.codes.caseTempHigh)

/-- `CKCTL` — case temperature low, check 3 (R193). -/
def execCkctl (s : State) : Host.Outcome State Fault Refusal :=
  .next (s.latchIf (belowLimit s.rd.insideTemp (f32OfU8 s.settings.caseTemperatureLowLimit)) s.cfg.codes.caseTempLow)

/-- `CKCHH` — case humidity high, check 4 (R194). -/
def execCkchh (s : State) : Host.Outcome State Fault Refusal :=
  .next (s.latchIf (aboveLimit s.rd.humidity (f32OfU8 s.settings.caseHumidityHighLimit)) s.cfg.codes.caseHumHigh)

/-- `CKRTH` — reservoir temperature high, check 5 (R195). -/
def execCkrth (s : State) : Host.Outcome State Fault Refusal :=
  .next (s.latchIf (aboveLimit s.rd.resTemp (f32OfU8 s.settings.reservoirTempHighLimit)) s.cfg.codes.resTempHigh)

/-- `CKRTL` — reservoir temperature low, check 6 (R196). -/
def execCkrtl (s : State) : Host.Outcome State Fault Refusal :=
  .next (s.latchIf (belowLimit s.rd.resTemp (f32OfU8 s.settings.reservoirTempLowLimit)) s.cfg.codes.resTempLow)

/-- `CKOTH` — outside temperature high, check 7 (R197). -/
def execCkoth (s : State) : Host.Outcome State Fault Refusal :=
  .next (s.latchIf (aboveLimit s.rd.outsideTemp (f32OfU8 s.settings.outsideTempHighLimit)) s.cfg.codes.outTempHigh)

/-- `CKOTL` — outside temperature low, check 8 (R198). -/
def execCkotl (s : State) : Host.Outcome State Fault Refusal :=
  .next (s.latchIf (belowLimit s.rd.outsideTemp (f32OfU8 s.settings.outsideTempLowLimit)) s.cfg.codes.outTempLow)

/-- `CKDPH` — filter differential pressure high, check 9 (R199). -/
def execCkdph (s : State) : Host.Outcome State Fault Refusal :=
  .next (s.latchIf (aboveLimitU16 s.rd.filterDp s.settings.filterHighLimit) s.cfg.codes.filterDpHigh)

/-- The stall code of fan `t` (R200). -/
def stallCode (c : FaultCodes) : Fan → Half
  | .top => c.fanTopStall
  | .bottom => c.fanBotStall

/-- Judge one fan for a stall (R200). -/
def State.checkFan (t : Fan) (s : State) : State :=
  s.latchIf (stalled (s.filters.get (fanFilter t)).count s.out.fanPwmOut) (stallCode s.cfg.codes t)

/-- `CKFS t` — fan stall, checks 10 and 11 (R200). -/
def execCkfs (t : Sel) (s : State) : Host.Outcome State Fault Refusal :=
  onFan t State.checkFan s

/-- `CKPMP` — pump running without flow, check 12 (R201). -/
def execCkpmp (s : State) : Host.Outcome State Fault Refusal :=
  .next (s.latchIf (pumpWithoutFlow s.rd.pumpRunning s.rd.flowOk) s.cfg.codes.pumpNoFlow)

/-- `LATCH` — latch the code on `din[15:0]` (R208). -/
def execLatch (s : State) : Host.Outcome State Fault Refusal :=
  .next (s.raiseLatch (codeOfDin s.din))

end Sys2Proof.Machine
end

