-- ==== Sys2Proof/Machine/FilterCmd.lean ====
section
/-!
DEFINITION. SampleFilter: FADD, FAVG, FCNT, FCLR (spec/40_filter.md).
-/
namespace Sys2Proof.Machine

/-- `FADD i` — insert the sample on `din` (R122). -/
def execFadd (i : Sel) (s : State) : Host.Outcome State Fault Refusal :=
  onFilter i (fun k s => s.addSample k s.din) s

/-- `FAVG i` — `dout <- FilterAvg(i)` (R123). -/
def execFavg (i : Sel) (s : State) : Host.Outcome State Fault Refusal :=
  onFilter i (fun k s => s.setDout (filterMean (s.filters.get k))) s

/-- `FCNT i` — `dout <- zext_32(F[i].count)` (R124). -/
def execFcnt (i : Sel) (s : State) : Host.Outcome State Fault Refusal :=
  onFilter i (fun k s => s.setDout (BitVec.ofNat 32 (s.filters.get k).count)) s

/-- `FCLR i` — reset to empty (R125). -/
def execFclr (i : Sel) (s : State) : Host.Outcome State Fault Refusal :=
  onFilter i (fun k s => s.setFilter k (filterCleared (s.filters.get k))) s

end Sys2Proof.Machine
end

