-- ==== Sys2Proof/Machine/Tach.lean ====
section
/-!
DEFINITION. TachometerCapture (spec/41_tach.md): the event TEDGE, and the commands TPOLL and TRPT.
-/
namespace Sys2Proof.Machine

/-- The producer's write of one record at time `now` (R140). -/
def capturePulse (now : Word) (p : PulseCapture) : PulseCapture where
  ready := true
  lastPulseTimestamp := now
  currentPulseTimestamp := now
  pulseLength := sub32 now p.lastPulseTimestamp

/-- `TEDGE t` — the falling-edge event, one atomic step of a tach agent (R140; 20_memory.md R74). -/
def State.tedge (t : Fan) (s : State) : State :=
  s.setPulse t (capturePulse s.inp.nowUs (s.pulses.get t))

/-- Consume a captured pulse: test `ready`, insert, clear `ready`, in one step (R141;
20_memory.md R76). -/
def State.pollPulse (t : Fan) (s : State) : State :=
  let p := s.pulses.get t
  if p.ready then (s.addSample (fanFilter t) p.pulseLength).setPulse t { p with ready := false }
  else s

/-- `TPOLL t` (R141). -/
def execTpoll (t : Sel) (s : State) : Host.Outcome State Fault Refusal :=
  onFan t State.pollPulse s

/-- The quotient of R142, `fdiv32(fmul32(TACH_K, F32_1E6), mean)`; a NaN, which no legal `TACH_K` can
give, has a free pattern (log 7). -/
def fanSpeed (tachK mean : Word) : Word :=
  match fmul32 tachK f32Million with
  | none => Config.nanPattern tachK f32Million
  | some product =>
    match fdiv32 product mean with
    | none => Config.nanPattern product mean
    | some rpm => rpm

/-- `RD[8+t] <- v` (R142). -/
def Readings.setTach (r : Readings) (t : Fan) (v : Word) : Readings :=
  match t with
  | .top => { r with topTach := v }
  | .bottom => { r with bottomTach := v }

/-- Report a fan's speed: `0.0` without data, else the quotient (R142). -/
def State.reportFan (t : Fan) (s : State) : State :=
  let f := s.filters.get (fanFilter t)
  s.setRd (s.rd.setTach t (if f.count = 0 then f32Zero else fanSpeed s.cfg.tachK (filterMean f)))

/-- `TRPT t` (R142). -/
def execTrpt (t : Sel) (s : State) : Host.Outcome State Fault Refusal :=
  onFan t State.reportFan s

end Sys2Proof.Machine
end

