-- ==== Sys2Proof/Machine/Telemetry.lean ====
section
/-!
DEFINITION. TelemetryEncoder: ENC (spec/45_telemetry.md R260, R261) and the frame layout of
20_memory.md R61.
-/
namespace Sys2Proof.Machine

/-- The 19 fields of the frame: offset, bytes, value (R260; 20_memory.md R61, R62). -/
def frameFields (r : Readings) : List (Nat × Nat × Word) :=
  [(0, 4, r.resTemp), (4, 4, r.setpoint), (8, 4, r.levelSense), (12, 4, r.levelRef),
   (16, 4, r.insideTemp), (20, 4, r.outsideTemp), (24, 4, r.humidity),
   (28, 2, r.filterDp.setWidth 32), (30, 4, r.topTach), (34, 4, r.bottomTach),
   (38, 1, r.fanPwm.setWidth 32), (39, 1, boolWord r.compRunning), (40, 1, boolWord r.valve),
   (41, 4, r.compressorTime), (45, 4, r.valveTime), (49, 1, boolWord r.pumpRunning),
   (50, 1, boolWord r.flowOk), (51, 1, boolWord r.alert), (52, 2, r.code.setWidth 32)]

/-- The field writes in their order; `none` if one lies outside the frame buffer. -/
def writeFields : List (Nat × Nat × Word) → Memory → Option Memory
  | [], m => some m
  | (a, n, v) :: rest, m =>
    match memWrite a n v m with
    | some m' => writeFields rest m'
    | none => none

/-- `ENC` — serialise Readings into the frame buffer and hand it over (R260, R262). -/
def execEnc (s : State) : Host.Outcome State Fault Refusal :=
  match writeFields (frameFields s.rd) s.fb with
  | some m => .next { s with fb := m }.emitFrame
  | none => .fault .frameAddress

end Sys2Proof.Machine
end

