-- ==== Sys2Proof/Machine/Thermal.lean ====
section
/-!
DEFINITION. ThermalControlStateMachine: TSTEP (spec/44_thermal_sm.md R232).
-/
namespace Sys2Proof.Machine

/-- The engage path's valve rule: if the valve is not energized, energize it and record (R232, R233). -/
def State.openValve (now : Word) (s : State) : State :=
  if s.out.valveOut then s
  else { s with
    out := { s.out with valveOut := true }
    lock := { s.lock with lastValveToggle := now } }

/-- The engage path's compressor rule, both gates taken from the timestamps as they stand (R232, R233,
R238). -/
def State.startCompressor (now : Word) (s : State) : State :=
  if lockoutElapsed now s.lock.lastValveToggle s.settings.valveLockout &&
     lockoutElapsed now s.lock.lastCompressorToggle s.settings.compressorLockout then
    { s with
      out := { s.out with compressorOut := true, fanPwmOut := Config.fanDutyOn }
      lock := { s.lock with lastCompressorToggle := now } }
  else s

/-- The disengage path's rule, gated by the compressor timer alone (R232, R234). -/
def State.shutDown (now : Word) (s : State) : State :=
  if lockoutElapsed now s.lock.lastCompressorToggle s.settings.compressorLockout then
    { s with
      out := { s.out with compressorOut := false, valveOut := false, fanPwmOut := Config.fanDutyOff }
      lock := { lastCompressorToggle := now, lastValveToggle := now } }
  else s

/-- One evaluation of the transition rules: engage, then disengage, both may apply (R232, R239). -/
def State.thermalStep (s : State) : State :=
  let now := s.inp.nowMs
  let t := s.rd.resTemp
  let hi := fadd32 s.rd.setpoint s.settings.hysteresis
  let lo := fsub32 s.rd.setpoint s.settings.hysteresis
  let s1 := if fgtResult t hi then (s.openValve now).startCompressor now else s
  if fleResult t lo then s1.shutDown now else s1

/-- `TSTEP` (R232); skipped entirely when `IN.running_state = 0` (R236). -/
def execTstep (s : State) : Host.Outcome State Fault Refusal :=
  if s.inp.runningState then .next s.thermalStep else .next s

end Sys2Proof.Machine
end

