-- ==== Sys2Proof/Machine/Dispatch.lean ====
section
/-!
DEFINITION. One arm per command (spec/30_encoding.md R93), each one call of its meaning.
-/
namespace Sys2Proof.Machine

/-- The meaning of a command, as one atomic step of the main agent (20_memory.md R70). -/
def exec (i : Instr) (s : State) : Host.Outcome State Fault Refusal :=
  match i with
  | .fadd sel => Sys2Proof.Machine.execFadd sel s
  | .favg sel => Sys2Proof.Machine.execFavg sel s
  | .fcnt sel => Sys2Proof.Machine.execFcnt sel s
  | .fclr sel => Sys2Proof.Machine.execFclr sel s
  | .tpoll sel => Sys2Proof.Machine.execTpoll sel s
  | .trpt sel => Sys2Proof.Machine.execTrpt sel s
  | .msp => Sys2Proof.Machine.execMsp s
  | .mls => Sys2Proof.Machine.execMls s
  | .mlr => Sys2Proof.Machine.execMlr s
  | .mdp => Sys2Proof.Machine.execMdp s
  | .mtr => Sys2Proof.Machine.execMtr s
  | .mto => Sys2Proof.Machine.execMto s
  | .mti => Sys2Proof.Machine.execMti s
  | .mhu => Sys2Proof.Machine.execMhu s
  | .mpf => Sys2Proof.Machine.execMpf s
  | .mir => Sys2Proof.Machine.execMir s
  | .cklvl => Sys2Proof.Machine.execCklvl s
  | .ckcth => Sys2Proof.Machine.execCkcth s
  | .ckctl => Sys2Proof.Machine.execCkctl s
  | .ckchh => Sys2Proof.Machine.execCkchh s
  | .ckrth => Sys2Proof.Machine.execCkrth s
  | .ckrtl => Sys2Proof.Machine.execCkrtl s
  | .ckoth => Sys2Proof.Machine.execCkoth s
  | .ckotl => Sys2Proof.Machine.execCkotl s
  | .ckdph => Sys2Proof.Machine.execCkdph s
  | .ckfs sel => Sys2Proof.Machine.execCkfs sel s
  | .ckpmp => Sys2Proof.Machine.execCkpmp s
  | .latch => Sys2Proof.Machine.execLatch s
  | .tstep => Sys2Proof.Machine.execTstep s
  | .enc => Sys2Proof.Machine.execEnc s
  | .cycle sel => Sys2Proof.Machine.execCycle sel s

end Sys2Proof.Machine
end

