-- ==== Sys2Proof/Machine/Sequencer.lean ====
section
/-!
DEFINITION. The main agent's steps (spec/46_cycle.md R280, R283, R284; 30_encoding.md R101, R102): a
host command, and the next entry of a running CYCLE.
-/
namespace Sys2Proof.Machine

/-- Execute a command byte: its meaning, or `raise IllegalCommand` (30_encoding.md R93, R101). -/
def runByte (cmd : Byte) (s : State) : Host.Outcome State Fault Refusal :=
  match decode [cmd] with
  | .ok (i, _) => exec i s
  | .error _ => .next s.raiseIllegal

/-- A schedule entry: its command if the guard lets it, then `phase` moves on, executed or skipped
(46_cycle.md R280, R282, R283). -/
def runWord (w : RomWord) (s : State) : Host.Outcome State Fault Refusal :=
  if entryExecutes (romGuard w) s.seq.rpt then andThen (runByte (romCommand w) s) State.advancePhase
  else .next s.advancePhase

/-- The next entry of the running CYCLE, fetched at `phase` (46_cycle.md R280). A phase beyond the ROM
does not exist (log 12). -/
def runEntry (s : State) : Host.Outcome State Fault Refusal :=
  match scheduleRom[s.seq.phase.toNat]? with
  | some w => runWord w s
  | none => .fault .scheduleAddress

/-- The main agent's turn with no host command taken: inside a CYCLE its next entry, outside one
nothing (70_reset_and_hazards.md R341; log 3). -/
def mainTurn (s : State) : Host.Outcome State Fault Refusal :=
  if s.seq.busy then runEntry s else .next s

/-- A command at the head of the environment's list: held off while busy, when the main agent goes on
with its cycle and the command stays (30_encoding.md R102; log 10), else taken, with `din` as
presented. -/
def commandTurn (cmd : Byte) (d : Word) (rest : List EnvAction) (s : State) :
    Host.Outcome State Fault Refusal :=
  if s.seq.busy then runEntry s else runByte cmd { s with env := rest, din := d }

end Sys2Proof.Machine
end

