-- ==== Sys2Proof/Machine/Environment.lean ====
section
/-!
DEFINITION. The environment's actions and the two tach agents (spec/10_state.md R38 to R40,
60_exceptions.md R305, R306; 70_reset_and_hazards.md R340).
-/
namespace Sys2Proof.Machine

/-- A tach line takes a level at time `us`; a falling edge is the event TEDGE (60_exceptions.md R305,
log 14). -/
def State.driveTach (t : Fan) (level : Bool) (us : Word) (s : State) : State :=
  let s' := { s with inp := { s.inp with nowUs := us }, tach := s.tach.set t level }
  if s.tach.get t && !level then s'.tedge t else s'

/-- `.edge t @ us` (30_encoding.md R96): the line rises and falls, so that exactly one TEDGE t with
`IN.now_us = us` happens (log 14). -/
def State.pulseTach (t : Fan) (us : Word) (s : State) : State :=
  (s.driveTach t true us).driveTach t false us

/-- The power-on reset (70_reset_and_hazards.md R340, R341): every piece of the block's own state at
its reset value. What is not the block's state stays: inputs, Settings, parameters, the environment's
list, and the output events of the run so far (log 15). -/
def State.powerOn (s : State) : State :=
  { State.reset with
    frames := s.frames
    din := s.din
    inp := s.inp
    tach := s.tach
    settings := s.settings
    cfg := s.cfg
    env := s.env }

/-- One turn: the head of the environment's list decides who steps; with an empty list the main agent
does (log 2, log 3). -/
def turn (s : State) : Host.Outcome State Fault Refusal :=
  match s.env with
  | [] => mainTurn s
  | .command cmd d :: rest => commandTurn cmd d rest s
  | .main :: rest => mainTurn { s with env := rest }
  | .edge t us :: rest => .next (State.pulseTach t us { s with env := rest })
  | .tach t level us :: rest => .next (State.driveTach t level us { s with env := rest })
  | .inputs p :: rest => .next { s with env := rest, inp := p }
  | .settings r :: rest => .next { s with env := rest, settings := r }
  | .powerCycle :: rest => .next (State.powerOn { s with env := rest })

/-- The state with a command byte, and `din = 0`, presented next to an idle command port: the head of
the environment's list, with no CYCLE running (log 11). -/
def State.presentCommand (cmd : Byte) (s : State) : State :=
  { s with
    seq := { s.seq with phase := 0, busy := false }
    env := .command cmd 0 :: s.env }

end Sys2Proof.Machine
end

