-- ==== Sys2Proof/Machine/Step.lean ====
section
/-!
DEFINITION. One step of TCE: an atomic step of the main agent or of a tach agent, or an action of the
environment (spec/20_memory.md R70 to R72), with the strobe of an ENC before it let down.
-/
namespace Sys2Proof.Machine

/-- One step. -/
def step (s : State) : Host.Outcome State Fault Refusal := turn s.lowerStrobe

/-- The state with a command of spec/opcode_table.json, whose `nbits` bits are `w`, placed where step
takes its next command: presented on an idle command port, with the bits above `nbits` zero and no
operand on `din` (log 11). -/
def State.withFetchWord (s : State) (nbits w : Nat) : State :=
  s.presentCommand (tableByte (w % 2 ^ nbits))

end Sys2Proof.Machine
end

