-- ==== Sys2Proof/Safety.lean ====
section
/-!
DEFINITION. What claims about TCE are stated in: the invariants spec/ names (10_state.md R29, R32, R33;
44_thermal_sm.md R237), the value of a binary32 pattern (00_scope.md R7), a decoder of the frame by the
layout of 20_memory.md R61, and the table of fault causes of 60_exceptions.md R301.
-/
namespace Sys2Proof.Safety

open Sys2Proof.Machine

/-- The samples a window holds (R29): `buf[0 .. count-1]` while it fills, all of `buf` once full. -/
def heldSamples (cap : Nat) (f : FilterWindow) : List Word :=
  if f.count < cap then f.buf.take f.count else f.buf

/-- The invariants of one filter instance (R29). -/
structure FilterInv (cap : Nat) (f : FilterWindow) : Prop where
  length : f.buf.length = cap
  count_le : f.count ≤ cap
  head_lt : f.head < cap
  head_eq : f.count < cap → f.head = f.count
  sum_eq : f.sum.toNat = ((heldSamples cap f).map BitVec.toNat).sum

/-- The three reachable rows of the output table (44_thermal_sm.md R231, R237). -/
def ThermalInv (o : Outputs) : Prop :=
  (o.compressorOut = true → o.valveOut = true) ∧
  (o.compressorOut = true → o.fanPwmOut = Config.fanDutyOn) ∧
  (o.compressorOut = false → o.fanPwmOut = Config.fanDutyOff)

/-- The sequencer between steps (10_state.md R33): outside a CYCLE `phase = 0`; inside one, after its
first step, `phase` is the index of a later entry of the ROM. -/
def SequencerInv (q : Sequencer) : Prop :=
  (q.busy = false → q.phase = 0) ∧ (q.busy = true → 1 ≤ q.phase.toNat ∧ q.phase.toNat ≤ 29)

/-- `alert` and `alarm_out` are equal (10_state.md R32). -/
def LatchInv (s : State) : Prop := s.rd.alert = s.out.alarmOut

/-- While the strobe is up, the last output event is the frame buffer (45_telemetry.md R262). -/
def StrobeInv (s : State) : Prop := s.frameStrobe = true → s.frames.getLast? = some (frameBytes s.fb)

/-- The invariant of the whole machine. -/
structure Inv (s : State) : Prop where
  memory : Memory.wf s.fb = true
  filter : ∀ i, FilterInv (Config.cap i) (s.filters.get i)
  thermal : ThermalInv s.out
  sequencer : SequencerInv s.seq
  latch : LatchInv s
  strobe : StrobeInv s

/-- The environment does not cycle the power in this step. -/
def NoPowerCycle (s : State) : Prop := s.env.head? ≠ some .powerCycle

/-- The next step is the main agent's own, and no command that waits is to be taken first: the list is
empty, or begins with a command, which inside a CYCLE is held off and stays (log 10), or with the main
agent's turn. `rest` is the list after the step (20_memory.md R72, log 2). -/
def MainAgentSteps (s : State) (rest : List EnvAction) : Prop :=
  (s.env = [] ∧ rest = []) ∨ (∃ b d r, s.env = .command b d :: r ∧ rest = s.env) ∨ s.env = .main :: rest

/-- The command port is about to be taken: idle, with this command at the head of the list. -/
def Presents (s : State) (cmd : Byte) (d : Word) (rest : List EnvAction) : Prop :=
  s.seq.busy = false ∧ s.env = .command cmd d :: rest

/-- The number `i` of a filter instance (10_state.md R28). -/
def filterNumber : FilterId → Sel
  | .levelSense => 0
  | .levelRef => 1
  | .filterDp => 2
  | .fanTop => 3
  | .fanBot => 4

/-- The number `t` of a fan (41_tach.md). -/
def fanNumber : Fan → Sel
  | .top => 0
  | .bottom => 1

/-- A command byte as the encoding entries write it, `base | sel` (30_encoding.md R93). -/
def formByte (base : Byte) (sel : Sel) : Byte := base ||| sel.setWidth 8

/-- The byte decodes to the command. -/
def Encodes (b : Byte) (i : Instr) : Prop := decode [b] = .ok (i, [])

/-- The byte is illegal, and running it sets `cmd_err` and nothing else (30_encoding.md R101). -/
def Rejected (b : Byte) : Prop :=
  (∃ e, decode [b] = .error e) ∧ ∀ s : State, runByte b s = .next { s with cmdErr := true }

/-- The bytes of a 32-bit field, least significant first (20_memory.md R60). -/
def bytes32 (v : Word) : List Byte :=
  [v.extractLsb' 0 8, v.extractLsb' 8 8, v.extractLsb' 16 8, v.extractLsb' 24 8]

/-- The bytes of a 16-bit field, least significant first (20_memory.md R60). -/
def bytes16 (v : Half) : List Byte := [v.extractLsb' 0 8, v.extractLsb' 8 8]

/-- The byte of a bool field (45_telemetry.md R261). -/
def bytesBool (b : Bool) : List Byte := [if b then 0x01 else 0x00]

/-- The 54 bytes of the frame of a Readings value, field by field in the order of 20_memory.md R61. -/
def framePayload (r : Readings) : List Byte :=
  bytes32 r.resTemp ++ bytes32 r.setpoint ++ bytes32 r.levelSense ++ bytes32 r.levelRef ++
  bytes32 r.insideTemp ++ bytes32 r.outsideTemp ++ bytes32 r.humidity ++ bytes16 r.filterDp ++
  bytes32 r.topTach ++ bytes32 r.bottomTach ++ [r.fanPwm] ++ bytesBool r.compRunning ++
  bytesBool r.valve ++ bytes32 r.compressorTime ++ bytes32 r.valveTime ++ bytesBool r.pumpRunning ++
  bytesBool r.flowOk ++ bytesBool r.alert ++ bytes16 r.code

/-- `IDLE` (44_thermal_sm.md R231). -/
def Idle (o : Outputs) : Prop := o.valveOut = false ∧ o.compressorOut = false ∧ o.fanPwmOut = 0

/-- `VALVE_OPEN` (44_thermal_sm.md R231). -/
def ValveOpen (o : Outputs) : Prop := o.valveOut = true ∧ o.compressorOut = false ∧ o.fanPwmOut = 0

/-- `COOLING` (44_thermal_sm.md R231). -/
def Cooling (o : Outputs) : Prop := o.valveOut = true ∧ o.compressorOut = true ∧ o.fanPwmOut = 255

/-- The pattern is a finite number. -/
def F32Finite (w : Word) : Prop := (w.extractLsb' 23 8).toNat ≠ 255

/-- The value of a finite binary32 pattern (00_scope.md R7): sign bit 31, exponent bits 30:23 with bias
127, fraction bits 22:0, subnormals with exponent field 0. -/
def f32Value (w : Word) : ℚ :=
  let sign : ℚ := if w.getLsbD 31 then -1 else 1
  let e := (w.extractLsb' 23 8).toNat
  let f : ℚ := (w.extractLsb' 0 23).toNat
  if e = 0 then sign * (f / 2 ^ 23) * 2 ^ (-126 : Int) else sign * (1 + f / 2 ^ 23) * 2 ^ ((e : Int) - 127)

/-- `r` is the rational `q` rounded to binary32, to nearest, ties to even (00_scope.md R9): no finite
pattern is nearer, and of two equally near values the even pattern is taken; from half a unit in the
last place beyond the greatest finite number on, an infinity of `q`'s sign. -/
def RoundsTo (q : ℚ) (r : Word) : Prop :=
  (|q| < 2 ^ 128 - 2 ^ 103 → F32Finite r ∧ ∀ w, F32Finite w → |q - f32Value r| ≤ |q - f32Value w| ∧
    (|q - f32Value r| = |q - f32Value w| → f32Value w = f32Value r ∨ r.getLsbD 0 = false)) ∧
  (2 ^ 128 - 2 ^ 103 ≤ q → r = 0x7F800000) ∧ (q ≤ -(2 ^ 128 - 2 ^ 103) → r = 0xFF800000)

/-- The byte `b` of a `bool(uint8)` field, decoded as `b != 0` (45_telemetry.md R263). -/
def boolOfWord (w : Word) : Bool := w != 0

/-- The decoder of the frame by the layout of 20_memory.md R61 (45_telemetry.md R263; no part of TCE). -/
def decodeFrame (m : Memory) : Option Readings := do
  let resTemp ← memRead 0 4 m
  let setpoint ← memRead 4 4 m
  let levelSense ← memRead 8 4 m
  let levelRef ← memRead 12 4 m
  let insideTemp ← memRead 16 4 m
  let outsideTemp ← memRead 20 4 m
  let humidity ← memRead 24 4 m
  let filterDp ← memRead 28 2 m
  let topTach ← memRead 30 4 m
  let bottomTach ← memRead 34 4 m
  let fanPwm ← memRead 38 1 m
  let compRunning ← memRead 39 1 m
  let valve ← memRead 40 1 m
  let compressorTime ← memRead 41 4 m
  let valveTime ← memRead 45 4 m
  let pumpRunning ← memRead 49 1 m
  let flowOk ← memRead 50 1 m
  let alert ← memRead 51 1 m
  let code ← memRead 52 2 m
  pure
    { resTemp := resTemp, setpoint := setpoint, levelSense := levelSense, levelRef := levelRef,
      insideTemp := insideTemp, outsideTemp := outsideTemp, humidity := humidity,
      filterDp := filterDp.setWidth 16, topTach := topTach, bottomTach := bottomTach,
      fanPwm := fanPwm.setWidth 8, compRunning := boolOfWord compRunning, valve := boolOfWord valve,
      compressorTime := compressorTime, valveTime := valveTime, pumpRunning := boolOfWord pumpRunning,
      flowOk := boolOfWord flowOk, alert := boolOfWord alert, code := code.setWidth 16 }

/-- The state after `raise Latch(code)`, written out (60_exceptions.md R300). -/
def latched (code : Half) (s : State) : State :=
  { s with rd := { s.rd with alert := true, code := code }, out := { s.out with alarmOut := true } }

/-- The code a command latches in a state, by the causes of 60_exceptions.md R301 and the host's LATCH;
`none` where its condition does not hold or it has none. -/
def latchedCode (i : Instr) (s : State) : Option Half :=
  let when (c : Bool) (k : Half) : Option Half := if c then some k else none
  match i with
  | .mtr => when (!s.inp.resTempOk) s.cfg.codes.resProbe
  | .mto => when (!s.inp.outTempOk) s.cfg.codes.outProbe
  | .cklvl => when (flt32 s.rd.levelSense (f32OfU16 s.settings.reservoirVolumeLowLimit)) s.cfg.codes.levelLow
  | .ckcth => when (fgt32 s.rd.insideTemp (f32OfU8 s.settings.caseTemperatureHighLimit)) s.cfg.codes.caseTempHigh
  | .ckctl => when (flt32 s.rd.insideTemp (f32OfU8 s.settings.caseTemperatureLowLimit)) s.cfg.codes.caseTempLow
  | .ckchh => when (fgt32 s.rd.humidity (f32OfU8 s.settings.caseHumidityHighLimit)) s.cfg.codes.caseHumHigh
  | .ckrth => when (fgt32 s.rd.resTemp (f32OfU8 s.settings.reservoirTempHighLimit)) s.cfg.codes.resTempHigh
  | .ckrtl => when (flt32 s.rd.resTemp (f32OfU8 s.settings.reservoirTempLowLimit)) s.cfg.codes.resTempLow
  | .ckoth => when (fgt32 s.rd.outsideTemp (f32OfU8 s.settings.outsideTempHighLimit)) s.cfg.codes.outTempHigh
  | .ckotl => when (flt32 s.rd.outsideTemp (f32OfU8 s.settings.outsideTempLowLimit)) s.cfg.codes.outTempLow
  | .ckdph => when (decide (s.settings.filterHighLimit.toNat < s.rd.filterDp.toNat)) s.cfg.codes.filterDpHigh
  | .ckfs t =>
    if t = 0 then when (s.filters.fanTop.count == 0 && s.out.fanPwmOut != 0) s.cfg.codes.fanTopStall
    else if t = 1 then when (s.filters.fanBot.count == 0 && s.out.fanPwmOut != 0) s.cfg.codes.fanBotStall
    else none
  | .ckpmp => when (s.rd.pumpRunning && !s.rd.flowOk) s.cfg.codes.pumpNoFlow
  | .latch => some (s.din.extractLsb' 0 16)
  | .fadd _ => none
  | .favg _ => none
  | .fcnt _ => none
  | .fclr _ => none
  | .tpoll _ => none
  | .trpt _ => none
  | .msp => none
  | .mls => none
  | .mlr => none
  | .mdp => none
  | .mti => none
  | .mhu => none
  | .mpf => none
  | .mir => none
  | .tstep => none
  | .enc => none
  | .cycle _ => none

/-- The schedule of 46_cycle.md R281, each phase's guard and command. -/
def scheduleTable : List (Bool × Instr) :=
  [(false, .msp), (false, .mls), (false, .mlr), (false, .mdp), (false, .mtr), (false, .mto),
   (false, .mti), (false, .mhu), (false, .mpf), (false, .tpoll 0), (false, .tpoll 1)] ++
  [(true, .trpt 0), (true, .trpt 1), (false, .cklvl), (false, .ckcth), (false, .ckctl),
   (false, .ckchh), (false, .ckrth), (false, .ckrtl), (false, .ckoth), (false, .ckotl)] ++
  [(false, .ckdph), (true, .ckfs 0), (true, .ckfs 1), (false, .ckpmp), (true, .fclr 3),
   (true, .fclr 4), (false, .tstep), (false, .mir), (false, .enc)]

/-- The commands of a control cycle in their order; the guarded entries stand only in a cycle that
closes a reporting window (46_cycle.md R282). -/
def cycleCommands (r : Bool) : List Instr :=
  (scheduleTable.filter (fun e => !e.1 || r)).map Prod.snd

/-- The sequencer after an entry (46_cycle.md R280, R283). -/
def nextSequencer (q : Sequencer) : Sequencer :=
  if q.phase = 29 then { phase := 0, busy := false, rpt := q.rpt }
  else { phase := q.phase + 1, busy := q.busy, rpt := q.rpt }

/-- The commands issued one after another, stopping at a stop. -/
def runCommands : List Instr → State → Host.Outcome State Fault Refusal
  | [], s => .next s
  | i :: is, s =>
    match exec i s with
    | .next t => runCommands is t
    | .fault r => .fault r
    | .refused r => .refused r

/-- Two windows that agree on all but dead slots (40_filter.md R125; 93_implementation_defined.md U4). -/
structure SameLive (cap : Nat) (f g : FilterWindow) : Prop where
  head : f.head = g.head
  count : f.count = g.count
  sum : f.sum = g.sum
  held : heldSamples cap f = heldSamples cap g

/-- Two states that agree on all but the dead slots of the filters. -/
structure SameButDeadSlots (s t : State) : Prop where
  rest : t = { s with filters := t.filters }
  live : ∀ i, SameLive (Config.cap i) (s.filters.get i) (t.filters.get i)

/-- The last `n` elements of a list. -/
def lastN (n : Nat) (xs : List Word) : List Word := xs.drop (xs.length - n)

end Sys2Proof.Safety
end

