-- ==== Sys2Proof/Certificates/Slice0/Obligations.lean ====
section
/-!
DEFINITION. The statements about TCE for the provers. Each docstring names the rule of spec/ that it
formalises; OBLIGATIONS.json lists them. The clauses `Encodes` and `Rejected` state the Encoding and the
`IllegalCommand` entry of a command's own rule; the opcode map behind them is decision D3 of the spec and
what an illegal byte does decision D4. Statements hold for every value of the parameters `TACH_K` and
`FC_*` and of the free value of Config, and for every placement of the environment's actions.
-/
open Sys2Proof Sys2Proof.Machine Sys2Proof.Safety

/-! ## Encoding -/

/-- Decoding the encoding of a well-formed command gives it back and leaves the rest of the bytes
(30_encoding.md R90, R91, R93, decision D3 of the spec). -/
def Obligations.DecodeInvertsEncode : Prop :=
  ∀ (i : Instr) (rest : List Byte), i.wf = true → decode (encode i ++ rest) = .ok (i, rest)

/-- A byte that decodes is the encoding of the command it decodes to, which is well-formed: no byte is a
second spelling (30_encoding.md R93, R97, decisions D3 and D33 of the spec). -/
def Obligations.EncodeInvertsDecode : Prop :=
  ∀ (b : Byte) (rest rest' : List Byte) (i : Instr), decode (b :: rest) = .ok (i, rest') →
    rest' = rest ∧ i.wf = true ∧ encode i = [b]

/-- The illegal encodings are exactly those 30_encoding.md R100 lists, and 51 bytes are legal (decisions D3
and D4 of the spec). -/
def Obligations.IllegalEncodingsAreExactlyTheListedOnes : Prop :=
  (∀ b : Byte,
    let op := (b >>> 3).toNat
    let sel := (b &&& 7).toNat
    (∃ e, decode [b] = .error e) ↔
      op = 0 ∨ (1 ≤ op ∧ op ≤ 4 ∧ 5 ≤ sel) ∨ ((op = 5 ∨ op = 6 ∨ op = 26) ∧ 2 ≤ sel) ∨
      (op = 31 ∧ 2 ≤ sel) ∨ (((7 ≤ op ∧ op ≤ 25) ∨ (27 ≤ op ∧ op ≤ 30)) ∧ 1 ≤ sel)) ∧
  ((List.range 256).filter (fun n => (decode [BitVec.ofNat 8 n]).toOption.isSome)).length = 51

/-- Bytes of every family, written out from the encodings of 30_encoding.md R93 (decision D3 of the spec),
decode to what they stand for. -/
def Obligations.WrittenOutBytesDecode : Prop :=
  Encodes 0b00001011 (.fadd 3) ∧ Encodes 0b00100100 (.fclr 4) ∧ Encodes 0b00101001 (.tpoll 1) ∧
  Encodes 0b00111000 .msp ∧ Encodes 0b10000000 .mir ∧ Encodes 0b11010001 (.ckfs 1) ∧
  Encodes 0b11100000 .latch ∧ Encodes 0b11101000 .tstep ∧ Encodes 0b11110000 .enc ∧
  Encodes 0b11111001 (.cycle 1)

/-! ## A step -/

/-- When the command port is idle and the byte presented decodes to a command, the step is that
command's, on the state with the byte taken, `din` as presented and the strobe of an earlier ENC let
down (30_encoding.md R90, R92, decision D3 of the spec; the list and the strobe are the model's choice, logs 2
and 13). -/
def Obligations.StepRunsTheDecodedCommand : Prop :=
  ∀ (s : State) (b : Byte) (d : Word) (rest : List EnvAction) (i : Instr),
    Presents s b d rest → decode [b] = .ok (i, []) →
      step s = exec i { s with env := rest, din := d, frameStrobe := false }

/-- Inside a CYCLE every step of the main agent runs the schedule's entry at `phase`, or skips it when its
guard says so, and moves the sequencer on (46_cycle.md R280 to R283, decisions D5 and D6 of the spec);
edge events fall before and after such a step (20_memory.md R72). The three ways in which the list gives
the main agent its turn are the model's choice (logs 2 and 10). -/
def Obligations.StepRunsTheScheduleEntry : Prop :=
  ∀ (s : State) (rest : List EnvAction) (g : Bool) (i : Instr), s.seq.busy = true →
    MainAgentSteps s rest → scheduleTable[s.seq.phase.toNat]? = some (g, i) →
      (g = true → s.seq.rpt = false →
        step s = .next { s with env := rest, frameStrobe := false, seq := nextSequencer s.seq }) ∧
      (g = false ∨ s.seq.rpt = true →
        ∃ t, exec i { s with env := rest, frameStrobe := false } = .next t ∧ t.seq = s.seq ∧
          step s = .next { t with seq := nextSequencer t.seq })

/-- A command presented while busy is not accepted: it stays presented, and its operand is not taken
(30_encoding.md R102, a decision of the spec; log 10). -/
def Obligations.CommandIsHeldOffWhileBusy : Prop :=
  ∀ (s t : State) (b : Byte) (d : Word) (rest : List EnvAction),
    s.seq.busy = true → s.env = .command b d :: rest → step s = .next t →
      t.env = .command b d :: rest ∧ t.din = s.din

/-- An illegal byte changes nothing but `cmd_err`, and so does a command term with a selector its format
does not admit (30_encoding.md R101, a decision of the spec; logs 9 and 16). -/
def Obligations.IllegalCommandSetsCmdErrOnly : Prop :=
  (∀ (s : State) (b : Byte) (d : Word) (rest : List EnvAction) (e : DecodeError),
    Presents s b d rest → decode [b] = .error e →
      step s = .next { s with env := rest, din := d, frameStrobe := false, cmdErr := true }) ∧
  (∀ (s : State) (i : Instr), i.wf = false → exec i s = .next { s with cmdErr := true })

/-- The parameters never change; Settings, the input ports and the levels of the tach lines change only
by the environment's actions, and `din` only with a command that is taken (10_state.md R25, R38, R40,
decisions D1, D2 and D27 of the spec; logs 1 and 14). -/
def Obligations.OnlyTheEnvironmentChangesInputs : Prop :=
  ∀ s t : State, step s = .next t →
    t.cfg = s.cfg ∧
    (t.settings = s.settings ∨ ∃ r rest, s.env = .settings r :: rest ∧ t.settings = r) ∧
    (t.inp = s.inp ∨ (∃ p rest, s.env = .inputs p :: rest ∧ t.inp = p) ∨
      ∃ us, t.inp = { s.inp with nowUs := us } ∧
        ((∃ f rest, s.env = .edge f us :: rest) ∨ ∃ f l rest, s.env = .tach f l us :: rest)) ∧
    (t.tach = s.tach ∨ (∃ f us rest, s.env = .edge f us :: rest ∧ t.tach = s.tach.set f false) ∨
      ∃ f l us rest, s.env = .tach f l us :: rest ∧ t.tach = s.tach.set f l) ∧
    (t.din = s.din ∨ ∃ b d rest, Presents s b d rest ∧ t.din = d)

/-! ## SampleFilter -/

/-- FADD (40_filter.md R122, with FilterAdd of R120 written out, whose sample type is decision D7 of the
spec). -/
def Obligations.FaddInsertsOneSample : Prop :=
  (∀ (k : FilterId) (s : State),
    let f := s.filters.get k
    Encodes (formByte 0x08 (filterNumber k)) (.fadd (filterNumber k)) ∧
    exec (.fadd (filterNumber k)) s = .next { s with
      filters := s.filters.set k
       { buf := f.buf.set f.head s.din
         head := (f.head + 1) % Config.cap k
         count := if f.count = Config.cap k then f.count else f.count + 1
         sum := (if f.count = Config.cap k then f.sum - (f.buf.getD f.head 0).setWidth 40 else f.sum) +
           s.din.setWidth 40 } }) ∧
  (∀ (sel : Sel) (s : State), 4 < sel.toNat →
    Rejected (formByte 0x08 sel) ∧ exec (.fadd sel) s = .next { s with cmdErr := true })

/-- FAVG (40_filter.md R123, with FilterAvg of R121 written out, whose value for an empty filter is decision D7
of the spec). -/
def Obligations.FavgReadsTheMean : Prop :=
  (∀ (k : FilterId) (s : State),
    let f := s.filters.get k
    Encodes (formByte 0x10 (filterNumber k)) (.favg (filterNumber k)) ∧
    exec (.favg (filterNumber k)) s =
      .next { s with dout := if f.count = 0 then 0x00000000 else rne32 f.sum.toNat f.count }) ∧
  (∀ (sel : Sel) (s : State), 4 < sel.toNat →
    Rejected (formByte 0x10 sel) ∧ exec (.favg sel) s = .next { s with cmdErr := true })

/-- FCNT (40_filter.md R124). -/
def Obligations.FcntReadsTheCount : Prop :=
  (∀ (k : FilterId) (s : State),
    Encodes (formByte 0x18 (filterNumber k)) (.fcnt (filterNumber k)) ∧
    exec (.fcnt (filterNumber k)) s =
      .next { s with dout := BitVec.ofNat 32 (s.filters.get k).count } ∧
    (Inv s → ∃ t, exec (.fcnt (filterNumber k)) s = .next t ∧
      t.dout.toNat = (s.filters.get k).count ∧ t.dout.toNat ≤ Config.cap k)) ∧
  (∀ (sel : Sel) (s : State), 4 < sel.toNat →
    Rejected (formByte 0x18 sel) ∧ exec (.fcnt sel) s = .next { s with cmdErr := true })

/-- FCLR (40_filter.md R125, whose `head <- 0` is a decision of the spec). -/
def Obligations.FclrEmptiesTheFilter : Prop :=
  (∀ (k : FilterId) (s : State),
    Encodes (formByte 0x20 (filterNumber k)) (.fclr (filterNumber k)) ∧
    exec (.fclr (filterNumber k)) s = .next { s with
      filters := s.filters.set k
       { buf := (s.filters.get k).buf, head := 0, count := 0, sum := 0 } }) ∧
  (∀ (sel : Sel) (s : State), 4 < sel.toNat →
    Rejected (formByte 0x20 sel) ∧ exec (.fclr sel) s = .next { s with cmdErr := true })

/-- After any samples inserted since a clear, a window holds the count and the exact sum of the last
`cap` of them, and its mean is that sum over that count rounded once (40_filter.md R126, derived there
from R120 and R121). -/
def Obligations.WindowHoldsExactlyTheLastSamples : Prop :=
  ∀ (cap : Nat) (f : FilterWindow) (xs : List Word), 0 < cap → cap ≤ 100 → f.buf.length = cap →
    f.head = 0 → f.count = 0 → f.sum = 0 →
    let g := xs.foldl (fun w x => filterInsert cap x w) f
    let total := ((lastN cap xs).map BitVec.toNat).sum
    g.count = min xs.length cap ∧ g.sum.toNat = total ∧
      (xs ≠ [] → filterMean g = rne32 total (min xs.length cap))

/-- What stands in a slot not written since the last clear is never observed: two states that differ
only there step alike, whatever the step (40_filter.md R125, derived there from R120 and R29;
93_implementation_defined.md U4; log 5). -/
def Obligations.DeadSlotsAreNeverObserved : Prop :=
  ∀ s s' t : State, Inv s → Inv s' → SameButDeadSlots s s' → step s = .next t →
    ∃ t', step s' = .next t' ∧ SameButDeadSlots t t'

/-! ## TachometerCapture -/

/-- The event TEDGE (41_tach.md R140): a falling edge, and nothing else, captures a pulse. The write
of `currentPulseTimestamp` is decision D24 of the spec. The line's level, which only the edge detector
reads, is the model's choice (log 14). -/
def Obligations.FallingEdgeCapturesAPulse : Prop :=
  ∀ (s : State) (f : Fan) (us : Word) (rest : List EnvAction),
    let pulse : PulseCapture :=
      { ready := true, lastPulseTimestamp := us, currentPulseTimestamp := us
        pulseLength := us - (s.pulses.get f).lastPulseTimestamp }
    (s.env = .edge f us :: rest → step s = .next { s with
      env := rest, frameStrobe := false, inp := { s.inp with nowUs := us }
      tach := s.tach.set f false, pulses := s.pulses.set f pulse }) ∧
    (∀ level, s.env = .tach f level us :: rest → step s = .next { s with
      env := rest, frameStrobe := false, inp := { s.inp with nowUs := us }
      tach := s.tach.set f level
      pulses := if s.tach.get f = true ∧ level = false then s.pulses.set f pulse else s.pulses })

/-- Edges of different fans commute: the two orders leave the same state but for the time port, which
shows the later time (20_memory.md R72, derived there; 60_exceptions.md R307, decision D25 of the
spec). -/
def Obligations.EdgesOfDifferentFansCommute : Prop :=
  ∀ (s : State) (a b : Word) (rest : List EnvAction),
    ∃ t, core.run 2 { s with env := .edge .top a :: .edge .bottom b :: rest } = .next t ∧
      core.run 2 { s with env := .edge .bottom b :: .edge .top a :: rest } =
        .next { t with inp := { t.inp with nowUs := a } } ∧
      t.inp.nowUs = b

/-- TPOLL (41_tach.md R141). -/
def Obligations.TpollConsumesACapturedPulse : Prop :=
  (∀ (f : Fan) (s : State),
    let p := s.pulses.get f
    let k := match f with | .top => FilterId.fanTop | .bottom => FilterId.fanBot
    Encodes (formByte 0x28 (fanNumber f)) (.tpoll (fanNumber f)) ∧
    (p.ready = true → exec (.tpoll (fanNumber f)) s = .next { s with
      filters := s.filters.set k (filterInsert (Config.cap k) p.pulseLength (s.filters.get k))
      pulses := s.pulses.set f { p with ready := false } }) ∧
    (p.ready = false → exec (.tpoll (fanNumber f)) s = .next s)) ∧
  (∀ (sel : Sel) (s : State), 1 < sel.toNat →
    Rejected (formByte 0x28 sel) ∧ exec (.tpoll sel) s = .next { s with cmdErr := true })

/-- TRPT (41_tach.md R142, decision D23 of the spec): `0.0` without data, else the quotient of the two
roundings; with legal parameters there always is one and it is no NaN (93_implementation_defined.md
U6). -/
def Obligations.TrptReportsTheFanSpeed : Prop :=
  (∀ (f : Fan) (s : State),
    let w := match f with | .top => s.filters.fanTop | .bottom => s.filters.fanBot
    let stored : Word → State := fun v => match f with
      | .top => { s with rd := { s.rd with topTach := v } }
      | .bottom => { s with rd := { s.rd with bottomTach := v } }
    Encodes (formByte 0x30 (fanNumber f)) (.trpt (fanNumber f)) ∧
    (w.count = 0 → exec (.trpt (fanNumber f)) s = .next (stored 0x00000000)) ∧
    (∀ product rpm, w.count ≠ 0 → fmul32 s.cfg.tachK 0x49742400 = some product →
      fdiv32 product (rne32 w.sum.toNat w.count) = some rpm →
      exec (.trpt (fanNumber f)) s = .next (stored rpm)) ∧
    (w.count ≠ 0 → s.cfg.wf = true → ∃ product rpm, fmul32 s.cfg.tachK 0x49742400 = some product ∧
      fdiv32 product (rne32 w.sum.toNat w.count) = some rpm ∧ f32IsNan rpm = false)) ∧
  (∀ (sel : Sel) (s : State), 1 < sel.toNat →
    Rejected (formByte 0x30 sel) ∧ exec (.trpt sel) s = .next { s with cmdErr := true })

/-! ## Measurement -/

/-- MSP, MTI and MHU copy their ports' patterns (42_measure.md R160, R166, R167; where they come from is
a decision of the spec, D26 and D37). -/
def Obligations.PortsAreCopiedIntoReadings : Prop :=
  ∀ s : State,
    (Encodes 0x38 .msp ∧ exec .msp s = .next { s with rd := { s.rd with setpoint := s.inp.setpoint } }) ∧
    (Encodes 0x68 .mti ∧
      exec .mti s = .next { s with rd := { s.rd with insideTemp := s.inp.insideTemp } }) ∧
    (Encodes 0x70 .mhu ∧ exec .mhu s = .next { s with rd := { s.rd with humidity := s.inp.humidity } }) ∧
    ∀ sel : Sel, sel ≠ 0 → Rejected (formByte 0x38 sel) ∧ Rejected (formByte 0x68 sel) ∧
      Rejected (formByte 0x70 sel)

/-- MLS, MLR and MDP insert their raw sample, then take the mean, which always has a sample (42_measure.md
R161 to R163; the plain means and the floor are decisions of the spec, D8 to D10). -/
def Obligations.RawSamplesAreSmoothed : Prop :=
  (∀ s : State,
    let f := filterInsert 100 (s.inp.levelSenseRaw.setWidth 32) s.filters.levelSense
    Encodes 0x40 .mls ∧ f.count ≠ 0 ∧ exec .mls s = .next { s with
      filters := { s.filters with levelSense := f }
      rd := { s.rd with levelSense := rne32 f.sum.toNat f.count } }) ∧
  (∀ s : State,
    let f := filterInsert 100 (s.inp.levelRefRaw.setWidth 32) s.filters.levelRef
    Encodes 0x48 .mlr ∧ f.count ≠ 0 ∧ exec .mlr s = .next { s with
      filters := { s.filters with levelRef := f }
      rd := { s.rd with levelRef := rne32 f.sum.toNat f.count } }) ∧
  (∀ s : State,
    let f := filterInsert 100 (s.inp.filterDpRaw.setWidth 32) s.filters.filterDp
    Encodes 0x50 .mdp ∧ f.count ≠ 0 ∧ exec .mdp s = .next { s with
      filters := { s.filters with filterDp := f }
      rd := { s.rd with filterDp := BitVec.ofNat 16 (min (f.sum.toNat / f.count) 65535) } }) ∧
  ∀ sel : Sel, sel ≠ 0 → Rejected (formByte 0x40 sel) ∧ Rejected (formByte 0x48 sel) ∧
    Rejected (formByte 0x50 sel)

/-- MTR (42_measure.md R164; that it latches here is decision D36 of the spec). -/
def Obligations.MtrSubstitutesZeroAndLatches : Prop :=
  (∀ s : State, Encodes 0x58 .mtr ∧
    (s.inp.resTempOk = true →
      exec .mtr s = .next { s with rd := { s.rd with resTemp := s.inp.resTemp } }) ∧
    (s.inp.resTempOk = false → exec .mtr s = .next { s with
      rd := { s.rd with resTemp := 0x00000000, alert := true, code := s.cfg.codes.resProbe }
      out := { s.out with alarmOut := true } })) ∧
  ∀ sel : Sel, sel ≠ 0 → Rejected (formByte 0x58 sel)

/-- MTO (42_measure.md R165): as MTR with its own register and code, distinct from the reservoir
probe's when the parameters are legal. -/
def Obligations.MtoSubstitutesZeroAndLatches : Prop :=
  (∀ s : State, Encodes 0x60 .mto ∧
    (s.inp.outTempOk = true →
      exec .mto s = .next { s with rd := { s.rd with outsideTemp := s.inp.outTemp } }) ∧
    (s.inp.outTempOk = false → exec .mto s = .next { s with
      rd := { s.rd with outsideTemp := 0x00000000, alert := true, code := s.cfg.codes.outProbe }
      out := { s.out with alarmOut := true } }) ∧
    (s.cfg.wf = true → s.cfg.codes.outProbe ≠ s.cfg.codes.resProbe)) ∧
  ∀ sel : Sel, sel ≠ 0 → Rejected (formByte 0x60 sel)

/-- MPF (42_measure.md R168). -/
def Obligations.MpfCopiesPumpAndFlow : Prop :=
  (∀ s : State, Encodes 0x78 .mpf ∧ exec .mpf s = .next { s with
    rd := { s.rd with pumpRunning := s.inp.pumpRelay, flowOk := s.inp.flowSwitch } }) ∧
  ∀ sel : Sel, sel ≠ 0 → Rejected (formByte 0x78 sel)

/-- MIR (42_measure.md R169; its place in the cycle is decision D30 of the spec). -/
def Obligations.MirMirrorsOutputsAndElapsedTimes : Prop :=
  (∀ s : State, Encodes 0x80 .mir ∧ exec .mir s = .next { s with rd := { s.rd with
    compRunning := s.out.compressorOut
    valve := s.out.valveOut
    fanPwm := s.out.fanPwmOut
    compressorTime := s.inp.nowMs - s.lock.lastCompressorToggle
    valveTime := s.inp.nowMs - s.lock.lastValveToggle } }) ∧
  ∀ sel : Sel, sel ≠ 0 → Rejected (formByte 0x80 sel)

/-! ## FaultMonitor -/

/-- CKCTH, CKCHH, CKRTH and CKOTH: a reading above its `u8` limit latches the check's code, any other
changes nothing (43_fault_monitor.md R192, R194, R195, R197). -/
def Obligations.HighChecksLatchAboveTheLimit : Prop :=
  (∀ s : State,
    (Encodes 0x90 .ckcth ∧ exec .ckcth s = .next
      (if fgt32 s.rd.insideTemp (f32OfU8 s.settings.caseTemperatureHighLimit)
        then latched s.cfg.codes.caseTempHigh s else s)) ∧
    (Encodes 0xA0 .ckchh ∧ exec .ckchh s = .next
      (if fgt32 s.rd.humidity (f32OfU8 s.settings.caseHumidityHighLimit)
        then latched s.cfg.codes.caseHumHigh s else s)) ∧
    (Encodes 0xA8 .ckrth ∧ exec .ckrth s = .next
      (if fgt32 s.rd.resTemp (f32OfU8 s.settings.reservoirTempHighLimit)
        then latched s.cfg.codes.resTempHigh s else s)) ∧
    (Encodes 0xB8 .ckoth ∧ exec .ckoth s = .next
      (if fgt32 s.rd.outsideTemp (f32OfU8 s.settings.outsideTempHighLimit)
        then latched s.cfg.codes.outTempHigh s else s))) ∧
  ∀ sel : Sel, sel ≠ 0 → Rejected (formByte 0x90 sel) ∧ Rejected (formByte 0xA0 sel) ∧
    Rejected (formByte 0xA8 sel) ∧ Rejected (formByte 0xB8 sel)

/-- CKCTL, CKRTL and CKOTL: a reading below its `u8` limit latches the check's code, any other changes
nothing; the `0.0` that a disconnected probe leaves is below every limit above 0 (43_fault_monitor.md
R193, R196, R198). -/
def Obligations.LowChecksLatchBelowTheLimit : Prop :=
  (∀ s : State,
    (Encodes 0x98 .ckctl ∧ exec .ckctl s = .next
      (if flt32 s.rd.insideTemp (f32OfU8 s.settings.caseTemperatureLowLimit)
        then latched s.cfg.codes.caseTempLow s else s)) ∧
    (Encodes 0xB0 .ckrtl ∧ exec .ckrtl s = .next
      (if flt32 s.rd.resTemp (f32OfU8 s.settings.reservoirTempLowLimit)
        then latched s.cfg.codes.resTempLow s else s)) ∧
    (Encodes 0xC0 .ckotl ∧ exec .ckotl s = .next
      (if flt32 s.rd.outsideTemp (f32OfU8 s.settings.outsideTempLowLimit)
        then latched s.cfg.codes.outTempLow s else s))) ∧
  (∀ limit : Byte, flt32 0x00000000 (f32OfU8 limit) = true ↔ limit ≠ 0) ∧
  ∀ sel : Sel, sel ≠ 0 → Rejected (formByte 0x98 sel) ∧ Rejected (formByte 0xB0 sel) ∧
    Rejected (formByte 0xC0 sel)

/-- CKLVL and CKDPH (43_fault_monitor.md R191, R199; that the level check reads `level_sense`, and that
no zero is subtracted, are decisions D10 and D9 of the spec). -/
def Obligations.LevelAndPressureChecksLatch : Prop :=
  (∀ s : State,
    (Encodes 0x88 .cklvl ∧ exec .cklvl s = .next
      (if flt32 s.rd.levelSense (f32OfU16 s.settings.reservoirVolumeLowLimit)
        then latched s.cfg.codes.levelLow s else s)) ∧
    (Encodes 0xC8 .ckdph ∧ exec .ckdph s = .next
      (if s.settings.filterHighLimit.toNat < s.rd.filterDp.toNat
        then latched s.cfg.codes.filterDpHigh s else s))) ∧
  ∀ sel : Sel, sel ≠ 0 → Rejected (formByte 0x88 sel) ∧ Rejected (formByte 0xC8 sel)

/-- CKFS (43_fault_monitor.md R200; that a reporting window ends with a clear is decision D6 of the
spec). -/
def Obligations.StallCheckLatchesPerFan : Prop :=
  (∀ s : State,
    (Encodes 0xD0 (.ckfs 0) ∧ exec (.ckfs 0) s = .next
      (if s.filters.fanTop.count = 0 ∧ s.out.fanPwmOut ≠ 0
        then latched s.cfg.codes.fanTopStall s else s)) ∧
    (Encodes 0xD1 (.ckfs 1) ∧ exec (.ckfs 1) s = .next
      (if s.filters.fanBot.count = 0 ∧ s.out.fanPwmOut ≠ 0
        then latched s.cfg.codes.fanBotStall s else s))) ∧
  ∀ (sel : Sel) (s : State), 1 < sel.toNat →
    Rejected (formByte 0xD0 sel) ∧ exec (.ckfs sel) s = .next { s with cmdErr := true }

/-- CKPMP (43_fault_monitor.md R201 but for its place in the schedule): the pump without flow latches, and nothing stops the pump. -/
def Obligations.PumpWithoutFlowLatches : Prop :=
  (∀ s : State, Encodes 0xD8 .ckpmp ∧ exec .ckpmp s = .next
    (if s.rd.pumpRunning = true ∧ s.rd.flowOk = false then latched s.cfg.codes.pumpNoFlow s else s)) ∧
  ∀ sel : Sel, sel ≠ 0 → Rejected (formByte 0xD8 sel)

/-- LATCH takes any 16-bit code, the low half of `din` (43_fault_monitor.md R208; that it is a command
is decision D38 of the spec). -/
def Obligations.LatchTakesTheHostsCode : Prop :=
  (∀ s : State, Encodes 0xE0 .latch ∧
    exec .latch s = .next (latched (s.din.extractLsb' 0 16) s)) ∧
  ∀ sel : Sel, sel ≠ 0 → Rejected (formByte 0xE0 sel)

/-- `raise Latch(code)`: code, alert and alarm, and no other field of the state; it transfers no
control, so a command that latches leaves the sequencer as it is, and inside a CYCLE the entry that
latches is followed by the next one (60_exceptions.md R300). -/
def Obligations.LatchWritesCodeAlertAndAlarmOnly : Prop :=
  (∀ (c : Half) (s : State), s.raiseLatch c = latched c s) ∧
  (∀ (i : Instr) (s t : State), exec i s = .next t → latchedCode i s ≠ none → t.seq = s.seq) ∧
  (∀ (s t : State) (rest : List EnvAction) (g : Bool) (i : Instr), s.seq.busy = true →
    MainAgentSteps s rest → scheduleTable[s.seq.phase.toNat]? = some (g, i) →
      latchedCode i s ≠ none → step s = .next t → t.seq = nextSequencer s.seq)

/-- Which commands latch, with which code, and that a latch on top of a latch overwrites: after a
command that latches the code is its own, and after any other all three are as before (60_exceptions.md
R311; the causes are those of R301). -/
def Obligations.LatestLatchOverwrites : Prop :=
  ∀ (i : Instr) (s t : State), exec i s = .next t →
    (∀ c, latchedCode i s = some c → t.rd.code = c ∧ t.rd.alert = true ∧ t.out.alarmOut = true) ∧
    (latchedCode i s = none →
      t.rd.code = s.rd.code ∧ t.rd.alert = s.rd.alert ∧ t.out.alarmOut = s.out.alarmOut)

/-- Nothing but reset clears the latch (60_exceptions.md R310): no step of any agent does, LATCH with
code 0 sets the code and leaves the rest, and the power-on reset clears all three. -/
def Obligations.NothingButResetClearsTheLatch : Prop :=
  (∀ s t : State, step s = .next t → NoPowerCycle s →
    (s.rd.alert = true → t.rd.alert = true) ∧ (s.out.alarmOut = true → t.out.alarmOut = true)) ∧
  (∀ s : State, s.din = 0 → ∃ t, exec .latch s = .next t ∧
    t.rd.code = 0 ∧ t.rd.alert = true ∧ t.out.alarmOut = true) ∧
  (∀ (s : State) (rest : List EnvAction), s.env = .powerCycle :: rest → ∃ t, step s = .next t ∧
    t.rd.code = Config.fcNone ∧ t.rd.alert = false ∧ t.out.alarmOut = false)

/-- `cmd_err` is sticky and is set by an illegal byte taken from the command port and by nothing else:
no schedule entry raises it (30_encoding.md R101, a decision of the spec). -/
def Obligations.CmdErrIsStickyAndSetByIllegalBytesOnly : Prop :=
  ∀ s t : State, Inv s → NoPowerCycle s → step s = .next t →
    (t.cmdErr = true ↔ s.cmdErr = true ∨
      (s.seq.busy = false ∧ ∃ b d rest e, s.env = .command b d :: rest ∧ decode [b] = .error e))

/-! ## ThermalControlStateMachine -/

/-- TSTEP in closed form (44_thermal_sm.md R232): engage, then disengage, with the elapsed times taken
at the point of use and one `now`; skipped when `IN.running_state = 0`. -/
def Obligations.TstepFollowsTheTransitionRules : Prop :=
  (∀ s : State,
    let now := s.inp.nowMs
    let above := match fadd32 s.rd.setpoint s.settings.hysteresis with
      | some hi => fgt32 s.rd.resTemp hi
      | none => false
    let below := match fsub32 s.rd.setpoint s.settings.hysteresis with
      | some lo => fle32 s.rd.resTemp lo
      | none => false
    let opens := above && !s.out.valveOut
    let valveStamp := if opens then now else s.lock.lastValveToggle
    let starts := above && decide (s.settings.valveLockout ≤ now - valveStamp) &&
      decide (s.settings.compressorLockout ≤ now - s.lock.lastCompressorToggle)
    let compressorStamp := if starts then now else s.lock.lastCompressorToggle
    let stops := below && decide (s.settings.compressorLockout ≤ now - compressorStamp)
    Encodes 0xE8 .tstep ∧ (s.inp.runningState = true → exec .tstep s = .next { s with
      out :=
        { valveOut := (s.out.valveOut || opens) && !stops
          compressorOut := (s.out.compressorOut || starts) && !stops
          fanPwmOut := if stops then 0 else if starts then 255 else s.out.fanPwmOut
          alarmOut := s.out.alarmOut }
      lock :=
        { lastCompressorToggle := if stops then now else compressorStamp
          lastValveToggle := if stops then now else valveStamp } }) ∧
    (s.inp.runningState = false → exec .tstep s = .next s)) ∧
  ∀ sel : Sel, sel ≠ 0 → Rejected (formByte 0xE8 sel)

/-- Inside the band nothing is written, whatever the timers; and for `lo <= hi` the three cases cover
every temperature that is no NaN (44_thermal_sm.md R235). -/
def Obligations.DeadBandWritesNothing : Prop :=
  ∀ (s : State) (hi lo : Word), fadd32 s.rd.setpoint s.settings.hysteresis = some hi →
    fsub32 s.rd.setpoint s.settings.hysteresis = some lo →
    (flt32 lo s.rd.resTemp = true → fle32 s.rd.resTemp hi = true → exec .tstep s = .next s) ∧
    (fle32 lo hi = true → f32IsNan s.rd.resTemp = false →
      fgt32 s.rd.resTemp hi = true ∨
      (flt32 lo s.rd.resTemp = true ∧ fle32 s.rd.resTemp hi = true) ∨
      fle32 s.rd.resTemp lo = true)

/-- A NaN temperature, setpoint or hysteresis acts like the dead band (44_thermal_sm.md R239 (a), a
decision of the spec). -/
def Obligations.NanOperandsWriteNothing : Prop :=
  ∀ s : State, (f32IsNan s.rd.resTemp = true ∨ f32IsNan s.rd.setpoint = true ∨
    f32IsNan s.settings.hysteresis = true) → exec .tstep s = .next s

/-- With `IN.running_state = 0` TSTEP changes nothing, and no other command depends on the flag
(44_thermal_sm.md R236). -/
def Obligations.ManualOverrideFreezesTheOutputs : Prop :=
  (∀ s : State, s.inp.runningState = false → exec .tstep s = .next s) ∧
  (∀ (i : Instr) (s t : State) (b : Bool), i ≠ .tstep → exec i s = .next t →
    exec i { s with inp := { s.inp with runningState := b } } =
      .next { t with inp := { t.inp with runningState := b } })

/-- The transition table of 44_thermal_sm.md R240, row by row (derived there from R232). -/
def Obligations.TransitionTableHolds : Prop :=
  ∀ (s t : State) (hi lo : Word), fadd32 s.rd.setpoint s.settings.hysteresis = some hi →
    fsub32 s.rd.setpoint s.settings.hysteresis = some lo → fle32 lo hi = true →
    s.inp.runningState = true → exec .tstep s = .next t →
    let now := s.inp.nowMs
    let T := s.rd.resTemp
    let VL := s.settings.valveLockout
    let CL := s.settings.compressorLockout
    let vt := now - s.lock.lastValveToggle
    let ct := now - s.lock.lastCompressorToggle
    let hot := fgt32 T hi = true
    let inside := flt32 lo T = true ∧ fle32 T hi = true
    let cold := fle32 T lo = true
    let both : LockoutTimers := { lastCompressorToggle := now, lastValveToggle := now }
    (Idle s.out →
      (hot → 0 < VL ∨ ct < CL → ValveOpen t.out ∧ t.lock = { s.lock with lastValveToggle := now }) ∧
      (hot → VL = 0 → CL ≤ ct → Cooling t.out ∧ t.lock = both) ∧
      (inside → Idle t.out ∧ t.lock = s.lock) ∧
      (cold → CL ≤ ct → Idle t.out ∧ t.lock = both) ∧
      (cold → ct < CL → Idle t.out ∧ t.lock = s.lock)) ∧
    (ValveOpen s.out →
      (hot → VL ≤ vt → CL ≤ ct →
        Cooling t.out ∧ t.lock = { s.lock with lastCompressorToggle := now }) ∧
      (hot → vt < VL ∨ ct < CL → ValveOpen t.out ∧ t.lock = s.lock) ∧
      (inside → ValveOpen t.out ∧ t.lock = s.lock) ∧
      (cold → CL ≤ ct → Idle t.out ∧ t.lock = both) ∧
      (cold → ct < CL → ValveOpen t.out ∧ t.lock = s.lock)) ∧
    (Cooling s.out →
      (hot → VL ≤ vt → CL ≤ ct →
        Cooling t.out ∧ t.lock = { s.lock with lastCompressorToggle := now }) ∧
      (hot → vt < VL ∨ ct < CL → Cooling t.out ∧ t.lock = s.lock) ∧
      (inside → Cooling t.out ∧ t.lock = s.lock) ∧
      (cold → CL ≤ ct → Idle t.out ∧ t.lock = both) ∧
      (cold → ct < CL → Cooling t.out ∧ t.lock = s.lock))

/-! ## TelemetryEncoder -/

/-- ENC completes, writes the 54 bytes of the frame and hands them over, and changes nothing else
(45_telemetry.md R260; the bool bytes, the event and the strobe are R261's and R262's, decisions D20 and
D21 of the spec; their form in State is log 13). -/
def Obligations.EncWritesTheWholeFrame : Prop :=
  (∀ s : State, Memory.wf s.fb = true → Encodes 0xF0 .enc ∧ ∃ m, Memory.wf m = true ∧
    frameBytes m = framePayload s.rd ∧
    exec .enc s = .next { s with
      fb := m, frames := s.frames ++ [framePayload s.rd], frameStrobe := true }) ∧
  ∀ sel : Sel, sel ≠ 0 → Rejected (formByte 0xF0 sel)

/-- Decoding the frame that ENC wrote by the layout of 20_memory.md R61 gives back every register bit
for bit (45_telemetry.md R263, derived there from R260 and R261). -/
def Obligations.FrameDecodesToTheReadings : Prop :=
  ∀ s t : State, Memory.wf s.fb = true → exec .enc s = .next t → decodeFrame t.fb = some s.rd

/-! ## The control cycle -/

/-- CYCLE's own step: the sequencer starts, and entry 0, the setpoint, executes in the same step
(46_cycle.md R280, a decision of the spec). -/
def Obligations.CycleStartsWithEntryZero : Prop :=
  (∀ (r : Bool) (s : State),
    let sel : Sel := if r then 1 else 0
    Encodes (formByte 0xF8 sel) (.cycle sel) ∧ exec (.cycle sel) s = .next { s with
      rd := { s.rd with setpoint := s.inp.setpoint }
      seq := { phase := 1, busy := true, rpt := r } }) ∧
  (∀ (sel : Sel) (s : State), 1 < sel.toNat →
    Rejected (formByte 0xF8 sel) ∧ exec (.cycle sel) s = .next { s with cmdErr := true })

/-- The schedule ROM's words are the guards and command bytes of the table of 46_cycle.md R281 (a
decision of the spec). -/
def Obligations.RomHoldsTheSchedule : Prop :=
  scheduleRom.map (fun w => (romGuard w, decode [romCommand w])) =
    scheduleTable.map (fun e => (e.1, .ok (e.2, [])))

/-- A CYCLE not disturbed by the environment leaves the state that its executed entries leave when they
are issued one after another, except for the sequencer, which is idle again (46_cycle.md R280, R282,
decisions D5 and D6 of the spec). A command that waits behind the CYCLE is held off and changes nothing
(30_encoding.md R102; log 10). -/
def Obligations.CycleEqualsItsEntries : Prop :=
  ∀ (s : State) (r : Bool) (d : Word) (rest : List EnvAction),
    Presents s (if r then 0xF9 else 0xF8) d rest →
    (rest = [] ∨ ∃ b' d' rest', rest = .command b' d' :: rest') →
    ∃ t, runCommands (cycleCommands r) { s with env := rest, din := d, frameStrobe := false } = .next t ∧
      core.run 30 s = .next { t with seq := { phase := 0, busy := false, rpt := r } }

/-- A running CYCLE always ends, whatever the environment does meanwhile: edges, changed inputs and
commands that wait (46_cycle.md R284, decision D32 of the spec; 20_memory.md R72). It takes at most one
step for each entry that is left and one for each action in the list (log 2), and unless the power is
cycled it ends at its end: one frame has been sent, by ENC, its last entry. The second clause assumes an
empty list, and then there is one step for each entry that is left. -/
def Obligations.CycleAlwaysEnds : Prop :=
  (∀ s : State, Inv s → s.seq.busy = true → ∃ k t, k ≤ 30 - s.seq.phase.toNat + s.env.length ∧
    core.run k s = .next t ∧ t.seq.busy = false ∧ t.seq.phase = 0 ∧
    (.powerCycle ∉ s.env → ∃ frame, t.frames = s.frames ++ [frame])) ∧
  (∀ s : State, Inv s → s.seq.busy = true → s.env = [] →
    ∃ t, core.run (30 - s.seq.phase.toNat) s = .next t ∧ t.seq.busy = false ∧ t.seq.phase = 0)

/-! ## What a command leaves unchanged -/

/-- Each Readings register is written only by its own operation (10_state.md R21, R22, decision D1 of
the spec; CYCLE's step is its entry 0, MSP). -/
def Obligations.ReadingsAreWrittenOnlyByTheirOperation : Prop :=
  ∀ (i : Instr) (s t : State), exec i s = .next t →
    (i ≠ .mtr → t.rd.resTemp = s.rd.resTemp) ∧
    (i ≠ .msp → (∀ r, i ≠ .cycle r) → t.rd.setpoint = s.rd.setpoint) ∧
    (i ≠ .mls → t.rd.levelSense = s.rd.levelSense) ∧
    (i ≠ .mlr → t.rd.levelRef = s.rd.levelRef) ∧
    (i ≠ .mti → t.rd.insideTemp = s.rd.insideTemp) ∧
    (i ≠ .mto → t.rd.outsideTemp = s.rd.outsideTemp) ∧
    (i ≠ .mhu → t.rd.humidity = s.rd.humidity) ∧
    (i ≠ .mdp → t.rd.filterDp = s.rd.filterDp) ∧
    (i ≠ .trpt 0 → t.rd.topTach = s.rd.topTach) ∧
    (i ≠ .trpt 1 → t.rd.bottomTach = s.rd.bottomTach) ∧
    (i ≠ .mir → t.rd.fanPwm = s.rd.fanPwm ∧ t.rd.compRunning = s.rd.compRunning ∧
      t.rd.valve = s.rd.valve ∧ t.rd.compressorTime = s.rd.compressorTime ∧
      t.rd.valveTime = s.rd.valveTime) ∧
    (i ≠ .mpf → t.rd.pumpRunning = s.rd.pumpRunning ∧ t.rd.flowOk = s.rd.flowOk) ∧
    (latchedCode i s = none → t.rd.alert = s.rd.alert ∧ t.rd.code = s.rd.code)

/-- The relays, the fan duty and the lockout timestamps are written only by TSTEP, the alarm only by a
latch (10_state.md R26, R27; the registers' layout is decisions D15 and D19 of the spec). -/
def Obligations.OutputsAreWrittenOnlyByTstep : Prop :=
  ∀ (i : Instr) (s t : State), exec i s = .next t →
    (i ≠ .tstep → t.out.valveOut = s.out.valveOut ∧ t.out.compressorOut = s.out.compressorOut ∧
      t.out.fanPwmOut = s.out.fanPwmOut ∧ t.lock = s.lock) ∧
    (latchedCode i s = none → t.out.alarmOut = s.out.alarmOut)

/-- A filter instance is written only by FADD and FCLR of its number and by the command that feeds it; a
pulse-capture record only by TPOLL of its fan, which clears `ready` and nothing else of it (10_state.md
R28, R31; the filters' layout is decision D7 of the spec). -/
def Obligations.FiltersAndPulsesAreWrittenOnlyByTheirOwners : Prop :=
  ∀ (i : Instr) (s t : State), exec i s = .next t →
    (∀ k, i ≠ .fadd (filterNumber k) → i ≠ .fclr (filterNumber k) → ¬(i = .mls ∧ k = .levelSense) →
      ¬(i = .mlr ∧ k = .levelRef) → ¬(i = .mdp ∧ k = .filterDp) → ¬(i = .tpoll 0 ∧ k = .fanTop) →
      ¬(i = .tpoll 1 ∧ k = .fanBot) → t.filters.get k = s.filters.get k) ∧
    (∀ f, i ≠ .tpoll (fanNumber f) → t.pulses.get f = s.pulses.get f) ∧
    (∀ f, t.pulses.get f = { s.pulses.get f with ready := (t.pulses.get f).ready } ∧
      ((t.pulses.get f).ready = true → (s.pulses.get f).ready = true))

/-- The frame buffer, its events and its strobe belong to ENC, `dout` to FAVG and FCNT, `cmd_err` to
illegal selectors, the sequencer to CYCLE; no command touches an input or a parameter (10_state.md R25,
R33 to R35, decisions D5, D21, D27 and D31 of the spec). For the frame buffer: every byte reads as before. -/
def Obligations.FrameBufferAndHostRegistersHaveOneWriter : Prop :=
  ∀ (i : Instr) (s t : State), exec i s = .next t →
    (i ≠ .enc → t.fb = s.fb ∧ (∀ a, Memory.read a t.fb = Memory.read a s.fb) ∧ t.frames = s.frames ∧
      t.frameStrobe = s.frameStrobe) ∧
    ((∀ k, i ≠ .favg k) → (∀ k, i ≠ .fcnt k) → t.dout = s.dout) ∧
    (i.wf = true → t.cmdErr = s.cmdErr) ∧
    ((∀ r, i ≠ .cycle r) → t.seq = s.seq) ∧
    t.inp = s.inp ∧ t.tach = s.tach ∧ t.settings = s.settings ∧ t.cfg = s.cfg ∧ t.env = s.env ∧
    t.din = s.din

/-! ## Floating point -/

/-- `rne32` is rounding to nearest, ties to even (00_scope.md R9, decision D18 of the spec). -/
def Obligations.RneIsNearestEven : Prop :=
  ∀ n d : Nat, 0 < d → RoundsTo ((n : ℚ) / (d : ℚ)) (rne32 n d)

/-- On finite operands the four arithmetic primitives give the exactly computed result rounded once, and
a sum that is exactly zero is `+0.0` unless both operands are `-0.0` (00_scope.md R9, decision D18 of
the spec). -/
def Obligations.ArithmeticRoundsTheExactResult : Prop :=
  ∀ a b : Word, F32Finite a → F32Finite b →
    (∃ r, fadd32 a b = some r ∧ RoundsTo (f32Value a + f32Value b) r) ∧
    (∃ r, fsub32 a b = some r ∧ RoundsTo (f32Value a - f32Value b) r) ∧
    (∃ r, fmul32 a b = some r ∧ RoundsTo (f32Value a * f32Value b) r) ∧
    (f32Value b ≠ 0 → ∃ r, fdiv32 a b = some r ∧ RoundsTo (f32Value a / f32Value b) r) ∧
    (f32Value a + f32Value b = 0 →
      fadd32 a b = some (if a = 0x80000000 ∧ b = 0x80000000 then 0x80000000 else 0x00000000))

/-- The special cases 00_scope.md R9 lists, and the comparisons: by value on finite patterns, both zeros
equal, infinities beyond every finite number, false on a NaN (decision D18 of the spec). -/
def Obligations.ComparisonsAndSpecialCases : Prop :=
  (∀ a b : Word, f32IsNan a = true ∨ f32IsNan b = true →
    fadd32 a b = none ∧ fsub32 a b = none ∧ fmul32 a b = none ∧ fdiv32 a b = none ∧
    fgt32 a b = false ∧ flt32 a b = false ∧ fle32 a b = false) ∧
  (∀ a b : Word, F32Finite a → F32Finite b →
    (fgt32 a b = true ↔ f32Value b < f32Value a) ∧ (flt32 a b = true ↔ f32Value a < f32Value b) ∧
    (fle32 a b = true ↔ f32Value a ≤ f32Value b)) ∧
  (∀ a : Word, F32Finite a →
    flt32 a 0x7F800000 = true ∧ flt32 0xFF800000 a = true ∧ fle32 a 0x7F800000 = true ∧
    fle32 0x7F800000 a = false ∧ fle32 0xFF800000 a = true ∧ fle32 a 0xFF800000 = false) ∧
  (∀ a : Word, F32Finite a →
    (0 < f32Value a → fdiv32 a 0x00000000 = some 0x7F800000) ∧
    (f32Value a < 0 → fdiv32 a 0x00000000 = some 0xFF800000) ∧
    (f32Value a = 0 → fdiv32 a 0x00000000 = none ∧ fmul32 a 0x7F800000 = none ∧
      fmul32 a 0xFF800000 = none)) ∧
  fsub32 0x7F800000 0x7F800000 = none ∧ fsub32 0xFF800000 0xFF800000 = none ∧
  fadd32 0x7F800000 0xFF800000 = none ∧ fadd32 0xFF800000 0x7F800000 = none ∧
  fdiv32 0x7F800000 0x7F800000 = none ∧ fdiv32 0xFF800000 0x7F800000 = none

/-- A `u16` or `u8` limit converts exactly (00_scope.md R9, 43_fault_monitor.md R202, decisions D18 and
D11 of the spec). -/
def Obligations.LimitsConvertExactly : Prop :=
  (∀ n : Half, F32Finite (f32OfU16 n) ∧ f32Value (f32OfU16 n) = (n.toNat : ℚ)) ∧
  (∀ n : Byte, F32Finite (f32OfU8 n) ∧ f32Value (f32OfU8 n) = (n.toNat : ℚ))

/-! ## The whole machine -/

/-- The power-on state: the values of 10_state.md R42 (a decision of the spec but for IDLE and the
cleared latch; the sample stores' contents are left out, log 5), meeting the invariant. -/
def Obligations.ResetStateMeetsTheInvariant : Prop :=
  Inv State.reset ∧ Idle State.reset.out ∧ State.reset.out.alarmOut = false ∧
  State.reset.rd.alert = false ∧ State.reset.rd.code = 0 ∧
  framePayload State.reset.rd = List.replicate 54 0 ∧
  State.reset.lock = { lastCompressorToggle := 0, lastValveToggle := 0 } ∧
  (∀ k, (State.reset.filters.get k).count = 0 ∧ (State.reset.filters.get k).sum = 0 ∧
    (State.reset.filters.get k).head = 0) ∧
  (∀ f, State.reset.pulses.get f =
    { ready := false, lastPulseTimestamp := 0, currentPulseTimestamp := 0, pulseLength := 0 }) ∧
  State.reset.seq = { phase := 0, busy := false, rpt := false } ∧ State.reset.dout = 0 ∧
  State.reset.cmdErr = false ∧ frameBytes State.reset.fb = List.replicate 54 0

/-- The power-on reset brings every piece of the block's own state to its reset value, and leaves the
inputs, the parameters and the events already sent (70_reset_and_hazards.md R340, R341, decision D22 of the
spec; what stays is the model's choice, log 15). The equation also puts zeros in the filters' sample
stores: their contents after reset are unspecified (10_state.md R42, 93_implementation_defined.md U4),
and the zeros are the model's DESIGN CHOICE and unsafe (log 5). That no step observes them is
`DeadSlotsAreNeverObserved`. -/
def Obligations.PowerCycleRestoresTheResetState : Prop :=
  ∀ (s : State) (rest : List EnvAction), s.env = .powerCycle :: rest →
    step s = .next { State.reset with
      frames := s.frames, din := s.din, inp := s.inp, tach := s.tach, settings := s.settings
      cfg := s.cfg, env := rest }

/-- Every step keeps the invariant: the frame buffer in canonical form, the filters' counts, heads and
exact sums (10_state.md R29), the three rows of outputs (44_thermal_sm.md R237), `alert` equal to
`alarm_out` (10_state.md R32), the sequencer's range (R33). The spec derives these invariants from its
rules; the last is its decision D5, and the strobe's clause is the model's (log 13). -/
def Obligations.StepKeepsTheInvariant : Prop :=
  ∀ s t : State, Inv s → step s = .next t → Inv t

/-- From every state that meets the invariant a step answers a next state: no fault, no refusal, nothing
halts the block (60_exceptions.md R302; 46_cycle.md R280, decision D5 of the spec). -/
def Obligations.NothingStopsTheBlock : Prop :=
  ∀ s : State, Inv s → ∃ t, step s = .next t

/-! ## The environment -/

/-- A change of the input ports or of Settings takes effect and leaves the block's own state alone
(10_state.md R22, R25, R40), and the next command that reads them sees the new values with no action
needed (20_memory.md R77, decision D5 of the spec). That a change is a step of its own, at the head of a
list, and the strobe are the model's choice (logs 1, 2 and 13). -/
def Obligations.InputChangesAreSeenByTheNextCommand : Prop :=
  ∀ (s : State) (p : Inputs) (r : Settings) (rest : List EnvAction),
    (s.env = .inputs p :: rest → step s = .next { s with env := rest, frameStrobe := false, inp := p }) ∧
    (s.env = .settings r :: rest →
      step s = .next { s with env := rest, frameStrobe := false, settings := r }) ∧
    (∀ (b : Byte) (d : Word) (later : List EnvAction) (i : Instr), s.seq.busy = false →
      rest = .command b d :: later → decode [b] = .ok (i, []) →
        (s.env = .inputs p :: rest → core.run 2 s =
          exec i { s with env := later, din := d, frameStrobe := false, inp := p }) ∧
        (s.env = .settings r :: rest → core.run 2 s =
          exec i { s with env := later, din := d, frameStrobe := false, settings := r }))

/-- With no CYCLE running and nothing from the environment nothing happens, however many steps pass: the
block executes nothing until the host issues a command (70_reset_and_hazards.md R341, log 3). A step only
lets the strobe of an earlier ENC down, and the main agent's own turn changes nothing else (logs 2 and 13). -/
def Obligations.NothingHappensWithoutACommand : Prop :=
  ∀ s : State, s.seq.busy = false →
    (∀ rest, s.env = .main :: rest → step s = .next { s with env := rest, frameStrobe := false }) ∧
    (s.env = [] → ∀ n : Nat, core.run (n + 1) s = .next { s with frameStrobe := false })
end

