-- ==== Sys2Proof/Laws/Binary32.lean ====
section
/-!
SUPPORT. What rounding to binary32 does, said once in integers (spec/00_scope.md R9): the pattern
`roundMagnitude` gives lies between the midpoints to its two neighbours, and is even on a midpoint.
-/
namespace Sys2Proof.Machine

open Sys2Proof.Safety

/-- The magnitude of a pattern without its sign, in units of 2^-149. -/
def patternMagnitude (p : Nat) : Nat :=
  if p < 2 ^ 23 then p else (2 ^ 23 + p % 2 ^ 23) * 2 ^ (p / 2 ^ 23 - 1)

/-- Rounding of an integer quotient: within half a unit, and even on a tie (R9). -/
theorem rneQuotient_spec (n : Nat) {d : Nat} (hd : 0 < d) :
    2 * n ≤ d * (2 * rneQuotient n d + 1) ∧ d * (2 * rneQuotient n d) ≤ 2 * n + d ∧
      (2 * n = d * (2 * rneQuotient n d + 1) → rneQuotient n d % 2 = 0) ∧
      (d * (2 * rneQuotient n d) = 2 * n + d → rneQuotient n d % 2 = 0) := by
  have h1 := Nat.div_add_mod n d
  have h2 := Nat.mod_lt n hd
  unfold rneQuotient
  dsimp only
  generalize n / d = q at *
  generalize n % d = r at *
  subst h1
  split
  · next h =>
    refine ⟨by nlinarith, by rcases h with h | h <;> nlinarith, fun h' => ?_, fun h' => ?_⟩
    · nlinarith
    · have : 2 * r = d := by nlinarith
      omega
  · next h =>
    have h' : 2 * r ≤ d := by omega
    refine ⟨by nlinarith, by nlinarith, fun h'' => ?_, fun h'' => ?_⟩
    · have : 2 * r = d := by nlinarith
      omega
    · nlinarith

/-- A power of two with an integer exponent, as the quotient of two natural powers. -/
theorem two_zpow_mul (z : Int) : (2 : ℚ) ^ z * 2 ^ (-z).toNat = 2 ^ z.toNat := by
  rcases le_total 0 z with h | h
  · obtain ⟨k, rfl⟩ := Int.eq_ofNat_of_zero_le h
    simp
  · obtain ⟨k, hk⟩ := Int.eq_ofNat_of_zero_le (Int.neg_nonneg.2 h)
    have hz : z = -(k : Int) := by omega
    subst hz
    simp

/-- `floorLog2 n d` is the exponent of `n/d` (R9). -/
theorem floorLog2_spec {n d : Nat} (hn : 0 < n) (hd : 0 < d) :
    (d : ℚ) * 2 ^ floorLog2 n d ≤ n ∧ (n : ℚ) < d * 2 ^ (floorLog2 n d + 1) := by
  have hd' : (0 : ℚ) < d := by exact_mod_cast hd
  have n1 : (2 : ℚ) ^ (n.log2 : Int) ≤ n := by
    rw [zpow_natCast]; exact_mod_cast Nat.log2_self_le (by omega)
  have n2 : (n : ℚ) < 2 ^ ((n.log2 : Int) + 1) := by
    have : (n : ℚ) < 2 ^ (n.log2 + 1) := by exact_mod_cast Nat.lt_log2_self
    rwa [← zpow_natCast, Nat.cast_add_one] at this
  have d1 : (2 : ℚ) ^ (d.log2 : Int) ≤ d := by
    rw [zpow_natCast]; exact_mod_cast Nat.log2_self_le (by omega)
  have d2 : (d : ℚ) < 2 ^ ((d.log2 : Int) + 1) := by
    have : (d : ℚ) < 2 ^ (d.log2 + 1) := by exact_mod_cast Nat.lt_log2_self
    rwa [← zpow_natCast, Nat.cast_add_one] at this
  have two : (2 : ℚ) ≠ 0 := by norm_num
  unfold floorLog2
  dsimp only
  generalize (n.log2 : Int) = a at *
  generalize (d.log2 : Int) = b at *
  have hc : (d * 2 ^ (a - b).toNat ≤ n * 2 ^ (-(a - b)).toNat) ↔ (d : ℚ) * 2 ^ (a - b) ≤ n := by
    have hp : (0 : ℚ) < 2 ^ (-(a - b)).toNat := by positivity
    have hq : (d * 2 ^ (a - b).toNat ≤ n * 2 ^ (-(a - b)).toNat) ↔
        (d : ℚ) * 2 ^ (a - b).toNat ≤ n * 2 ^ (-(a - b)).toNat := by exact_mod_cast Iff.rfl
    rw [hq, ← two_zpow_mul, ← mul_assoc, mul_le_mul_iff_left₀ hp]
  have up : (n : ℚ) < d * 2 ^ (a - b + 1) := by
    calc (n : ℚ) < 2 ^ (a + 1) := n2
      _ = 2 ^ b * 2 ^ (a - b + 1) := by rw [← zpow_add₀ two]; congr 1; ring
      _ ≤ d * 2 ^ (a - b + 1) := by gcongr
  split
  · next h => exact ⟨hc.1 h, up⟩
  · next h =>
    rw [hc, not_le] at h
    refine ⟨?_, by rwa [show a - b - 1 + 1 = a - b by ring]⟩
    have : (d : ℚ) * 2 ^ (a - b - 1) ≤ 2 ^ (b + 1) * 2 ^ (a - b - 1) := by gcongr
    rw [← zpow_add₀ two, show b + 1 + (a - b - 1) = a by ring] at this
    exact this.trans n1

/-- The magnitude of the pattern with significand `m` on the grid of step `2^k`. -/
theorem patternMagnitude_normal {k m : Nat} (h1 : 2 ^ 23 ≤ m) (h2 : m ≤ 2 ^ 24) :
    patternMagnitude ((k + 1) * 2 ^ 23 + (m - 2 ^ 23)) = m * 2 ^ k := by
  unfold patternMagnitude
  rw [if_neg (by omega)]
  rcases Nat.lt_or_ge m (2 ^ 24) with h | h
  · rw [show ((k + 1) * 2 ^ 23 + (m - 2 ^ 23)) % 2 ^ 23 = m - 2 ^ 23 by omega,
      show ((k + 1) * 2 ^ 23 + (m - 2 ^ 23)) / 2 ^ 23 = k + 1 by omega]
    rw [show k + 1 - 1 = k by omega, show 2 ^ 23 + (m - 2 ^ 23) = m by omega]
  · have hm : m = 2 ^ 24 := by omega
    subst hm
    rw [show ((k + 1) * 2 ^ 23 + (2 ^ 24 - 2 ^ 23)) % 2 ^ 23 = 0 by omega,
      show ((k + 1) * 2 ^ 23 + (2 ^ 24 - 2 ^ 23)) / 2 ^ 23 = k + 2 by omega]
    rw [show k + 2 - 1 = k + 1 by omega, pow_succ]; ring

/-- A subnormal pattern is its own magnitude. -/
theorem patternMagnitude_subnormal {m : Nat} (h : m ≤ 2 ^ 23) : patternMagnitude m = m := by
  rcases Nat.lt_or_ge m (2 ^ 23) with h' | h'
  · exact if_pos h'
  · simpa [show 8388608 + (m - 8388608) = m by omega] using
      patternMagnitude_normal (k := 0) (m := m) (by omega) (by omega)

/-- A greater pattern has a greater magnitude. -/
theorem patternMagnitude_succ (p : Nat) : patternMagnitude p < patternMagnitude (p + 1) := by
  rcases Nat.lt_or_ge p (2 ^ 23) with h | h
  · rw [patternMagnitude_subnormal (by omega), patternMagnitude_subnormal (by omega)]; omega
  · obtain ⟨k, m, h1, h2, hp⟩ : ∃ k m, 2 ^ 23 ≤ m ∧ m < 2 ^ 24 ∧ p = (k + 1) * 2 ^ 23 + (m - 2 ^ 23) := by
      refine ⟨p / 2 ^ 23 - 1, p % 2 ^ 23 + 2 ^ 23, ?_, ?_, ?_⟩ <;> omega
    rw [hp, patternMagnitude_normal h1 (by omega),
      show (k + 1) * 2 ^ 23 + (m - 2 ^ 23) + 1 = (k + 1) * 2 ^ 23 + ((m + 1) - 2 ^ 23) by omega,
      patternMagnitude_normal (by omega) (by omega)]
    have : 0 < 2 ^ k := by positivity
    nlinarith

/-- The pattern `roundMagnitude` gives for `n/d` lies between the midpoints to its neighbours, and is even
on a midpoint; `x` is `n/d` in units of 2^-149. -/
structure NearestPattern (x : ℚ) (p : Nat) : Prop where
  le_inf : p ≤ f32InfMagnitude
  above : ∀ q, p = q + 1 → (patternMagnitude q : ℚ) + patternMagnitude p ≤ 2 * x ∧
    ((patternMagnitude q : ℚ) + patternMagnitude p = 2 * x → p % 2 = 0)
  below : p < f32InfMagnitude → 2 * x ≤ (patternMagnitude p : ℚ) + patternMagnitude (p + 1) ∧
    (2 * x = (patternMagnitude p : ℚ) + patternMagnitude (p + 1) → p % 2 = 0)

/-- A rounded significand `m` on the grid of step `2^k` gives the nearest pattern. -/
theorem nearest_of_grid {x : ℚ} {k m : Nat} (hk : k ≤ 253) (hm1 : 2 ^ 23 ≤ m) (hm2 : m ≤ 2 ^ 24)
    (hlow : k ≠ 0 → (2 : ℚ) ^ (k + 23) ≤ x) (hov : k = 253 → m < 2 ^ 24)
    (h1 : 2 * x ≤ 2 ^ k * (2 * m + 1)) (h2 : (2 : ℚ) ^ k * (2 * m) ≤ 2 * x + 2 ^ k)
    (h3 : 2 * x = 2 ^ k * (2 * m + 1) → m % 2 = 0)
    (h4 : (2 : ℚ) ^ k * (2 * m) = 2 * x + 2 ^ k → m % 2 = 0) :
    NearestPattern x ((k + 1) * 2 ^ 23 + (m - 2 ^ 23)) := by
  have hP : (0 : ℚ) < 2 ^ k := by positivity
  have hM : (patternMagnitude ((k + 1) * 2 ^ 23 + (m - 2 ^ 23)) : ℚ) = m * 2 ^ k := by
    rw [patternMagnitude_normal hm1 hm2]; push_cast; rfl
  have par : ((k + 1) * 2 ^ 23 + (m - 2 ^ 23)) % 2 = m % 2 := by omega
  refine ⟨?_, ?_, ?_⟩
  · unfold f32InfMagnitude
    omega
  · intro q hq
    rw [hM, par]
    rcases Nat.lt_or_ge (2 ^ 23) m with hm | hm
    · have : q = (k + 1) * 2 ^ 23 + ((m - 1) - 2 ^ 23) := by omega
      rw [this, patternMagnitude_normal (by omega) (by omega)]
      have hc : ((m - 1 : Nat) : ℚ) = m - 1 := by
        rw [Nat.cast_sub (by omega)]; simp
      push_cast
      rw [hc]
      exact ⟨by linarith, fun h => h4 (by linarith)⟩
    · have hm' : m = 2 ^ 23 := by omega
      subst hm'
      refine ⟨?_, fun _ => by omega⟩
      rcases Nat.eq_zero_or_pos k with hk0 | hk0
      · subst hk0
        have : q = 2 ^ 23 - 1 := by omega
        rw [this, patternMagnitude_subnormal (by omega)]
        push_cast at *
        linarith
      · obtain ⟨j, rfl⟩ : ∃ j, k = j + 1 := ⟨k - 1, by omega⟩
        have : q = (j + 1) * 2 ^ 23 + ((2 ^ 24 - 1) - 2 ^ 23) := by omega
        rw [this, patternMagnitude_normal (by omega) (by omega)]
        have := hlow (by omega)
        have e : (2 : ℚ) ^ (j + 1 + 23) = 2 ^ 24 * 2 ^ j := by ring
        have e' : (2 : ℚ) ^ (j + 1) = 2 * 2 ^ j := by ring
        have hj : (0 : ℚ) < 2 ^ j := by positivity
        push_cast
        rw [e] at this
        rw [e']
        norm_num at *
        linarith
  · intro _
    rw [hM, par]
    rcases Nat.lt_or_ge m (2 ^ 24) with hm | hm
    · rw [show (k + 1) * 2 ^ 23 + (m - 2 ^ 23) + 1 = (k + 1) * 2 ^ 23 + ((m + 1) - 2 ^ 23) by omega,
        patternMagnitude_normal (by omega) (by omega)]
      push_cast
      exact ⟨by linarith, fun h => h3 (by linarith)⟩
    · have hm' : m = 2 ^ 24 := by omega
      subst hm'
      rw [show (k + 1) * 2 ^ 23 + (2 ^ 24 - 2 ^ 23) + 1 = (k + 1 + 1) * 2 ^ 23 + ((2 ^ 23 + 1) - 2 ^ 23) by omega,
        patternMagnitude_normal (by omega) (by omega)]
      have e' : (2 : ℚ) ^ (k + 1) = 2 * 2 ^ k := by ring
      push_cast at *
      rw [e']
      refine ⟨by linarith, fun _ => by omega⟩

/-- A significand below 2^23 on the finest grid is its own pattern. -/
theorem nearest_of_subnormal {x : ℚ} {m : Nat} (hm : m < 2 ^ 23)
    (h1 : 2 * x ≤ 2 * m + 1) (h2 : (2 * m : ℚ) ≤ 2 * x + 1)
    (h3 : 2 * x = 2 * m + 1 → m % 2 = 0) (h4 : (2 * m : ℚ) = 2 * x + 1 → m % 2 = 0) :
    NearestPattern x m := by
  refine ⟨by unfold f32InfMagnitude; omega, ?_, ?_⟩
  · rintro q rfl
    rw [patternMagnitude_subnormal (by omega), patternMagnitude_subnormal (by omega)]
    push_cast at *
    exact ⟨by linarith, fun h => h4 (by linarith)⟩
  · intro _
    rw [patternMagnitude_subnormal (by omega), patternMagnitude_subnormal (by omega)]
    push_cast at *
    exact ⟨by linarith, fun h => h3 (by linarith)⟩

/-- Far enough up, infinity is the nearest pattern. -/
theorem nearest_inf {x : ℚ} (h : (2 : ℚ) ^ 277 - 2 ^ 252 ≤ x) : NearestPattern x f32InfMagnitude := by
  refine ⟨le_rfl, ?_, fun h => absurd h (lt_irrefl _)⟩
  intro q hq
  have hq' : q = (253 + 1) * 2 ^ 23 + ((2 ^ 24 - 1) - 2 ^ 23) := by unfold f32InfMagnitude at hq; omega
  have hi : f32InfMagnitude = (254 + 1) * 2 ^ 23 + (2 ^ 23 - 2 ^ 23) := by unfold f32InfMagnitude; omega
  refine ⟨?_, fun _ => by unfold f32InfMagnitude; omega⟩
  rw [hi, hq', patternMagnitude_normal (by omega) (by omega), patternMagnitude_normal (by omega) (by omega)]
  have e1 : (2 : ℚ) ^ 277 = 2 ^ 24 * 2 ^ 253 := by rw [← pow_add]
  rw [e1] at h
  push_cast
  norm_num at h ⊢
  linarith

/-- The grid on which `n/d` is rounded, with step `2^k` in units of 2^-149, and the facts about the
rounded significand `m`. -/
structure OnGrid (x : ℚ) (k m : Nat) : Prop where
  upper : 2 * x ≤ 2 ^ k * (2 * m + 1)
  lower : (2 : ℚ) ^ k * (2 * m) ≤ 2 * x + 2 ^ k
  upper_even : 2 * x = 2 ^ k * (2 * m + 1) → m % 2 = 0
  lower_even : (2 : ℚ) ^ k * (2 * m) = 2 * x + 2 ^ k → m % 2 = 0
  big : k ≠ 0 → (2 : ℚ) ^ (k + 23) ≤ x
  le : m ≤ 2 ^ 24
  ge : k ≠ 0 → 2 ^ 23 ≤ m

/-- The significand R9 rounds to. -/
theorem roundMagnitude_grid {n d : Nat} (hn0 : 0 < n) (hd : 0 < d) :
    ∃ k : Nat, max (floorLog2 n d) (-126) = (k : Int) - 126 ∧
      OnGrid ((n : ℚ) / d * 2 ^ 149) k
        (rneQuotient (n * 2 ^ (23 - max (floorLog2 n d) (-126)).toNat)
          (d * 2 ^ (max (floorLog2 n d) (-126) - 23).toNat)) := by
  have two : (2 : ℚ) ≠ 0 := by norm_num
  have hd' : (0 : ℚ) < d := by exact_mod_cast hd
  obtain ⟨f1, f2⟩ := floorLog2_spec hn0 hd
  generalize floorLog2 n d = fl at *
  obtain ⟨k, hk⟩ : ∃ k : Nat, max fl (-126) = (k : Int) - 126 :=
    ⟨(max fl (-126) + 126).toNat, by omega⟩
  refine ⟨k, hk, ?_⟩
  rw [hk]
  have hD : 0 < d * 2 ^ ((k : Int) - 126 - 23).toNat := by positivity
  obtain ⟨r1, r2, r3, r4⟩ := rneQuotient_spec (n * 2 ^ (23 - ((k : Int) - 126)).toNat) hD
  generalize rneQuotient (n * 2 ^ (23 - ((k : Int) - 126)).toNat) (d * 2 ^ ((k : Int) - 126 - 23).toNat) = m at *
  set x : ℚ := (n : ℚ) / d * 2 ^ 149 with hx
  set D : ℚ := (d : ℚ) * 2 ^ ((k : Int) - 126 - 23).toNat with hDq
  have hDp : 0 < D := by positivity
  have hN : (n : ℚ) * 2 ^ (23 - ((k : Int) - 126)).toNat * 2 ^ k = x * D := by
    have e := two_zpow_mul ((k : Int) - 126 - 23)
    rw [show -((k : Int) - 126 - 23) = 23 - ((k : Int) - 126) by ring] at e
    rw [hDq, hx, ← e]
    have e2 : (2 : ℚ) ^ 149 * 2 ^ ((k : Int) - 126 - 23) = 2 ^ k := by
      rw [← zpow_natCast, ← zpow_natCast, ← zpow_add₀ two]; congr 1; push_cast; ring
    field_simp
    rw [← e2]
  have hk0 : (0 : ℚ) < 2 ^ k := by positivity
  have q1 : 2 * x ≤ 2 ^ k * (2 * m + 1) := by
    have : (2 : ℚ) * (n * 2 ^ (23 - ((k : Int) - 126)).toNat) ≤ D * (2 * m + 1) := by
      rw [hDq]; exact_mod_cast r1
    have := mul_le_mul_of_nonneg_right this hk0.le
    nlinarith
  have q2 : (2 : ℚ) ^ k * (2 * m) ≤ 2 * x + 2 ^ k := by
    have : D * (2 * m) ≤ (2 : ℚ) * (n * 2 ^ (23 - ((k : Int) - 126)).toNat) + D := by
      rw [hDq]; exact_mod_cast r2
    have := mul_le_mul_of_nonneg_right this hk0.le
    nlinarith
  have q3 : 2 * x = 2 ^ k * (2 * m + 1) → m % 2 = 0 := by
    intro h; apply r3
    have : (2 : ℚ) * (n * 2 ^ (23 - ((k : Int) - 126)).toNat) = D * (2 * m + 1) := by
      apply mul_right_cancel₀ hk0.ne'
      linear_combination 2 * hN + D * h
    rw [hDq] at this; exact_mod_cast this
  have q4 : (2 : ℚ) ^ k * (2 * m) = 2 * x + 2 ^ k → m % 2 = 0 := by
    intro h; apply r4
    have : D * (2 * m) = (2 : ℚ) * (n * 2 ^ (23 - ((k : Int) - 126)).toNat) + D := by
      apply mul_right_cancel₀ hk0.ne'
      linear_combination - 2 * hN + D * h
    rw [hDq] at this; exact_mod_cast this
  have up : x < 2 ^ (k + 24) := by
    have : (n : ℚ) / d < 2 ^ ((k : Int) - 126 + 1) := by
      rw [div_lt_iff₀ hd']
      refine f2.trans_le ?_
      rw [mul_comm]
      gcongr
      · norm_num
      · omega
    calc x < 2 ^ ((k : Int) - 126 + 1) * 2 ^ 149 := by rw [hx]; gcongr
      _ = 2 ^ (k + 24) := by
        rw [← zpow_natCast, ← zpow_natCast, ← zpow_add₀ two]; congr 1; push_cast; ring
  have low : k ≠ 0 → (2 : ℚ) ^ (k + 23) ≤ x := by
    intro hk'
    have hfl : fl = (k : Int) - 126 := by omega
    have : (2 : ℚ) ^ ((k : Int) - 126) ≤ (n : ℚ) / d := by
      rw [le_div_iff₀ hd', mul_comm, ← hfl]; exact f1
    calc (2 : ℚ) ^ (k + 23) = 2 ^ ((k : Int) - 126) * 2 ^ 149 := by
          rw [← zpow_natCast, ← zpow_natCast, ← zpow_add₀ two]; congr 1; push_cast; ring
      _ ≤ x := by rw [hx]; gcongr
  have m2 : m ≤ 2 ^ 24 := by
    have h : (2 : ℚ) ^ k * (2 * m) < 2 ^ k * (2 * 2 ^ 24 + 1) := by
      rw [pow_add] at up
      linarith
    have h' : (2 * m : ℚ) < 2 * 2 ^ 24 + 1 := lt_of_mul_lt_mul_left h hk0.le
    have : 2 * m < 2 * 2 ^ 24 + 1 := by exact_mod_cast h'
    omega
  have m1 : k ≠ 0 → 2 ^ 23 ≤ m := by
    intro hk'
    have l := low hk'
    have h : (2 : ℚ) ^ k * (2 * 2 ^ 23) ≤ 2 ^ k * (2 * m + 1) := by
      rw [pow_add] at l
      linarith
    have h' : (2 * 2 ^ 23 : ℚ) ≤ 2 * m + 1 := le_of_mul_le_mul_left h hk0
    have : 2 * 2 ^ 23 ≤ 2 * m + 1 := by exact_mod_cast h'
    omega
  exact ⟨q1, q2, q3, q4, low, m2, m1⟩

/-- A significand that rounds up to 2^24 on the coarsest grid belongs to infinity. -/
theorem nearest_inf_of_carry {x : ℚ} {k : Nat} (hk : 253 ≤ k)
    (h : (2 : ℚ) ^ k * (2 * 2 ^ 24) ≤ 2 * x + 2 ^ k) : NearestPattern x f32InfMagnitude := by
  apply nearest_inf
  have h1 : (2 : ℚ) ^ 253 ≤ 2 ^ k := pow_le_pow_right₀ (by norm_num) hk
  have h2 : (2 : ℚ) ^ 277 = 2 ^ 24 * 2 ^ 253 := by rw [← pow_add]
  rw [h2]
  generalize (2 : ℚ) ^ k = g at *
  norm_num at h1 ⊢
  linarith

/-- `roundMagnitude n d` is the pattern nearest to `n/d` (R9). -/
theorem roundMagnitude_nearest (n : Nat) {d : Nat} (hd : 0 < d) :
    NearestPattern ((n : ℚ) / d * 2 ^ 149) (roundMagnitude n d) := by
  unfold roundMagnitude
  split
  · next hn =>
    subst hn
    exact nearest_of_subnormal (by norm_num) (by norm_num) (by norm_num) (by norm_num) (by norm_num)
  · next hn =>
    obtain ⟨k, hk, grid⟩ := roundMagnitude_grid (Nat.pos_of_ne_zero hn) hd
    dsimp only
    generalize rneQuotient _ _ = m at *
    rw [hk]
    obtain ⟨q1, q2, q3, q4, low, m2, m1⟩ := grid
    generalize (n : ℚ) / d * 2 ^ 149 = x at *
    rcases Nat.lt_or_ge m (2 ^ 23) with hs | hs
    · have hk' : k = 0 := by by_contra h; have := m1 h; omega
      subst hk'
      simp only [if_neg (show m ≠ 2 ^ 24 by omega), if_pos hs]
      norm_num at q1 q2 q3 q4
      exact nearest_of_subnormal hs q1 q2 q3 q4
    · rcases Nat.lt_or_ge m (2 ^ 24) with ht | ht
      · simp only [if_neg (show m ≠ 2 ^ 24 by omega), if_neg (show ¬m < 2 ^ 23 by omega)]
        split
        · next ho =>
          apply nearest_inf
          have hk' : 254 ≤ k := by omega
          have l := low (by omega)
          have : (2 : ℚ) ^ 277 ≤ 2 ^ (k + 23) := pow_le_pow_right₀ (by norm_num) (by omega)
          refine le_trans ?_ (this.trans l)
          rw [sub_le_self_iff]
          positivity
        · next ho =>
          rw [show ((k : Int) - 126 + 127).toNat = k + 1 by omega]
          exact nearest_of_grid (by omega) hs m2 low (fun _ => ht) q1 q2 q3 q4
      · have hm : m = 2 ^ 24 := by omega
        simp only [if_pos hm, if_neg (lt_irrefl (2 ^ 23))]
        split
        · next ho =>
          exact nearest_inf_of_carry (k := k) (by omega) (by rw [hm] at q2; exact_mod_cast q2)
        · next ho =>
          have := nearest_of_grid (k := k) (by omega) hs m2 low (by omega) q1 q2 q3 q4
          rw [show ((k : Int) - 126 + 1 + 127).toNat * 2 ^ 23 + (2 ^ 23 - 2 ^ 23) = (k + 1) * 2 ^ 23 + (m - 2 ^ 23) by omega]
          exact this

/-- Magnitudes are in the order of their patterns. -/
theorem patternMagnitude_lt {p q : Nat} (h : p < q) : patternMagnitude p < patternMagnitude q :=
  strictMono_nat_of_lt_succ patternMagnitude_succ h

/-- The nearest pattern is nearest among all patterns. -/
theorem NearestPattern.nearest {x : ℚ} {p : Nat} (h : NearestPattern x p) (hf : p < f32InfMagnitude)
    (q : Nat) :
    |x - patternMagnitude p| ≤ |x - patternMagnitude q| ∧
      (|x - patternMagnitude p| = |x - patternMagnitude q| → q = p ∨ p % 2 = 0) := by
  have mono : ∀ {a b : Nat}, a ≤ b → (patternMagnitude a : ℚ) ≤ patternMagnitude b := by
    intro a b hab
    exact_mod_cast (strictMono_nat_of_lt_succ patternMagnitude_succ).monotone hab
  obtain ⟨b1, b2⟩ := h.below hf
  rcases lt_trichotomy q p with hq | hq | hq
  · obtain ⟨r, rfl⟩ : ∃ r, p = r + 1 := ⟨p - 1, by omega⟩
    obtain ⟨a1, a2⟩ := h.above r rfl
    have m1 := mono (show q ≤ r by omega)
    have m2 : (patternMagnitude r : ℚ) < patternMagnitude (r + 1) := by exact_mod_cast patternMagnitude_succ r
    have hx : |x - patternMagnitude q| = x - patternMagnitude q := abs_of_nonneg (by linarith)
    have hle : |x - patternMagnitude (r + 1)| ≤ x - patternMagnitude q := by
      rw [abs_le]; constructor <;> linarith
    rw [hx]
    refine ⟨hle, fun he => .inr (a2 ?_)⟩
    rcases abs_cases (x - (patternMagnitude (r + 1) : ℚ)) with ⟨e, _⟩ | ⟨e, _⟩ <;> linarith
  · subst hq; exact ⟨le_rfl, fun _ => .inl rfl⟩
  · have m1 := mono (show p + 1 ≤ q by omega)
    have m2 : (patternMagnitude p : ℚ) < patternMagnitude (p + 1) := by exact_mod_cast patternMagnitude_succ p
    have hx : |x - patternMagnitude q| = patternMagnitude q - x := by
      rw [abs_of_nonpos (by linarith)]; ring
    have hlow : p = 0 ∨ (patternMagnitude p : ℚ) - (patternMagnitude q - x) ≤ x := .inr (by linarith)
    have hle : |x - patternMagnitude p| ≤ patternMagnitude q - x := by
      rw [abs_le]; constructor <;> linarith
    rw [hx]
    refine ⟨hle, fun he => .inr (b2 ?_)⟩
    rcases abs_cases (x - (patternMagnitude p : ℚ)) with ⟨e, _⟩ | ⟨e, _⟩ <;> linarith

/-- The bits of a signed pattern. -/
theorem withSign_toNat (neg : Bool) {p : Nat} (hp : p < 2 ^ 31) :
    (withSign neg p).toNat = (if neg then 2 ^ 31 else 0) + p := by
  unfold withSign
  rw [BitVec.toNat_ofNat]
  cases neg <;> simp <;> omega

/-- The sign of a signed pattern. -/
theorem f32Sign_withSign (neg : Bool) {p : Nat} (hp : p < 2 ^ 31) : f32Sign (withSign neg p) = neg := by
  unfold f32Sign
  rw [BitVec.getLsbD, withSign_toNat neg hp, Nat.testBit_eq_decide_div_mod_eq]
  cases neg <;> simp <;> omega

/-- The exponent field in numbers. -/
theorem f32Exponent_eq (w : Word) : f32Exponent w = w.toNat / 2 ^ 23 % 2 ^ 8 := by
  simp [f32Exponent, Nat.shiftRight_eq_div_pow]

/-- The fraction field in numbers. -/
theorem f32Fraction_eq (w : Word) : f32Fraction w = w.toNat % 2 ^ 23 := by
  simp [f32Fraction]

/-- The magnitude of a pattern is that of its bits without the sign. -/
theorem f32Magnitude_eq (w : Word) : f32Magnitude w = patternMagnitude (w.toNat % 2 ^ 31) := by
  have hw := w.isLt
  unfold f32Magnitude patternMagnitude
  rw [f32Exponent_eq, f32Fraction_eq]
  have e1 : w.toNat % 2 ^ 31 / 2 ^ 23 = w.toNat / 2 ^ 23 % 2 ^ 8 := by omega
  have e2 : w.toNat % 2 ^ 31 % 2 ^ 23 = w.toNat % 2 ^ 23 := by omega
  rw [e1, e2]
  by_cases h : w.toNat / 2 ^ 23 % 2 ^ 8 = 0
  · rw [if_pos h, if_pos (by omega)]; omega
  · rw [if_neg h, if_neg (by omega)]

/-- A finite pattern's value is its scaled integer in units of 2^-149. -/
theorem f32Value_eq (w : Word) : f32Value w * 2 ^ 149 = f32Scaled w := by
  have two : (2 : ℚ) ≠ 0 := by norm_num
  have he : (w.extractLsb' 23 8).toNat = f32Exponent w := rfl
  have hf : (w.extractLsb' 0 23).toNat = f32Fraction w := rfl
  have hs : w.getLsbD 31 = f32Sign w := rfl
  unfold f32Value f32Scaled f32Magnitude
  simp only [he, hf, hs]
  generalize f32Exponent w = e
  generalize f32Fraction w = f
  have key : ∀ e : Nat, e ≠ 0 → (1 + (f : ℚ) / 2 ^ 23) * 2 ^ ((e : Int) - 127) * 2 ^ 149 = (2 ^ 23 + f) * 2 ^ (e - 1) := by
    intro e h
    obtain ⟨j, rfl⟩ := Nat.exists_eq_succ_of_ne_zero h
    have : (2 : ℚ) ^ (((j + 1 : Nat) : Int) - 127) * 2 ^ 149 = 2 ^ 23 * 2 ^ j := by
      rw [← zpow_natCast, ← zpow_natCast, ← zpow_natCast, ← zpow_add₀ two, ← zpow_add₀ two]
      congr 1; push_cast; ring
    rw [mul_assoc, this]
    simp only [Nat.succ_sub_one]
    field_simp
  have key0 : (f : ℚ) / 2 ^ 23 * 2 ^ (-126 : Int) * 2 ^ 149 = f := by
    have : (2 : ℚ) ^ (-126 : Int) * 2 ^ 149 = 2 ^ 23 := by norm_num
    rw [mul_assoc, this]
    field_simp
  by_cases h0 : e = 0
  · simp only [if_pos h0]
    cases f32Sign w
    · simp only [Bool.false_eq_true, if_false]; push_cast; linarith [key0]
    · simp only [if_true]; push_cast; linarith [key0]
  · simp only [if_neg h0]
    have := key e h0
    cases f32Sign w
    · simp only [Bool.false_eq_true, if_false]; push_cast; linarith
    · simp only [if_true]; push_cast; linarith

/-- A pattern is finite when its bits without the sign are below infinity's. -/
theorem f32Finite_iff (w : Word) : F32Finite w ↔ w.toNat % 2 ^ 31 < f32InfMagnitude := by
  have : (w.extractLsb' 23 8).toNat = f32Exponent w := rfl
  unfold F32Finite f32InfMagnitude
  rw [this, f32Exponent_eq]
  omega

/-- The scaled value of a signed pattern. -/
theorem f32Scaled_withSign (neg : Bool) {p : Nat} (hp : p < 2 ^ 31) :
    f32Scaled (withSign neg p) = if neg then -(patternMagnitude p : Int) else patternMagnitude p := by
  have h : (withSign neg p).toNat % 2 ^ 31 = p := by
    rw [withSign_toNat neg hp]; cases neg <;> simp <;> omega
  rw [f32Scaled, f32Sign_withSign neg hp, f32Magnitude_eq, h]

/-- The magnitude that infinity's pattern would have. -/
theorem patternMagnitude_inf : (patternMagnitude f32InfMagnitude : ℚ) = 2 ^ 277 := by
  have h : f32InfMagnitude = (254 + 1) * 2 ^ 23 + (2 ^ 23 - 2 ^ 23) := by unfold f32InfMagnitude; omega
  have e : (2 : ℚ) ^ 277 = 2 ^ 23 * 2 ^ 254 := by rw [← pow_add]
  rw [h, patternMagnitude_normal (by omega) (by omega), e]
  push_cast
  ring

/-- The greatest finite magnitude. -/
theorem patternMagnitude_max : (patternMagnitude (f32InfMagnitude - 1) : ℚ) = 2 ^ 277 - 2 ^ 253 := by
  have h : f32InfMagnitude - 1 = (253 + 1) * 2 ^ 23 + ((2 ^ 24 - 1) - 2 ^ 23) := by
    unfold f32InfMagnitude; omega
  have e : (2 : ℚ) ^ 277 = 2 ^ 24 * 2 ^ 253 := by rw [← pow_add]
  rw [h, patternMagnitude_normal (by omega) (by omega), e]
  push_cast
  ring

/-- From half a unit beyond the greatest finite pattern on, the nearest pattern is infinity's; below, it
is finite. -/
theorem NearestPattern.inf_iff {x : ℚ} {p : Nat} (h : NearestPattern x p) :
    p = f32InfMagnitude ↔ (2 : ℚ) ^ 277 - 2 ^ 252 ≤ x := by
  have e : (2 : ℚ) ^ 253 = 2 * 2 ^ 252 := by rw [← pow_succ']
  have hM := patternMagnitude_max
  have hI := patternMagnitude_inf
  have mono := (strictMono_nat_of_lt_succ patternMagnitude_succ).monotone
  have hpos : (0 : ℚ) < 2 ^ 252 := by positivity
  rw [e] at hM
  constructor
  · intro hp
    obtain ⟨a1, _⟩ := h.above (f32InfMagnitude - 1) (by rw [hp]; unfold f32InfMagnitude; omega)
    rw [hp, hM, hI] at a1
    generalize (2 : ℚ) ^ 277 = g at a1 ⊢
    linarith
  · intro hx
    by_contra hne
    have hlt : p < f32InfMagnitude := lt_of_le_of_ne h.le_inf hne
    obtain ⟨b1, b2⟩ := h.below hlt
    rcases Nat.lt_or_ge (p + 1) f32InfMagnitude with hq | hq
    · have m1 : (patternMagnitude p : ℚ) ≤ patternMagnitude (f32InfMagnitude - 1) := by
        exact_mod_cast mono (show p ≤ f32InfMagnitude - 1 by omega)
      have m2 : (patternMagnitude (p + 1) : ℚ) ≤ patternMagnitude (f32InfMagnitude - 1) := by
        exact_mod_cast mono (show p + 1 ≤ f32InfMagnitude - 1 by omega)
      rw [hM] at m1 m2
      generalize (2 : ℚ) ^ 277 = g at m1 m2 hx
      linarith
    · have hp : p + 1 = f32InfMagnitude := by omega
      have hp' : p = f32InfMagnitude - 1 := by omega
      rw [hp, hI, hp', hM] at b1
      have := b2 (by rw [hp, hI, hp', hM]; linarith)
      unfold f32InfMagnitude at hp
      omega

/-- A rational with the sign and the nearest pattern of its magnitude is rounded (R9). -/
theorem roundsTo_of_nearest {q : ℚ} {neg : Bool} {p : Nat} (hn : neg = true → q ≤ 0)
    (hp : neg = false → 0 ≤ q) (h : NearestPattern (|q| * 2 ^ 149) p) : RoundsTo q (withSign neg p) := by
  have hp31 : p < 2 ^ 31 := by
    have := h.le_inf
    unfold f32InfMagnitude at this
    omega
  have c : (0 : ℚ) < 2 ^ 149 := by positivity
  have mid : (2 ^ 128 - 2 ^ 103 : ℚ) * 2 ^ 149 = 2 ^ 277 - 2 ^ 252 := by
    rw [sub_mul, ← pow_add, ← pow_add]
  have big : p = f32InfMagnitude ↔ (2 ^ 128 - 2 ^ 103 : ℚ) ≤ |q| := by
    rw [h.inf_iff, ← mid, mul_le_mul_iff_left₀ c]
  have top : (0 : ℚ) < 2 ^ 128 - 2 ^ 103 := by norm_num
  refine ⟨fun hq => ?_, fun hq => ?_, fun hq => ?_⟩
  · have hf : p < f32InfMagnitude := lt_of_le_of_ne h.le_inf (fun hc => absurd (big.1 hc) (not_le.2 hq))
    have hmod : (withSign neg p).toNat % 2 ^ 31 = p := by
      rw [withSign_toNat neg hp31]; cases neg <;> simp <;> omega
    refine ⟨by rw [f32Finite_iff, hmod]; exact hf, fun w _ => ?_⟩
    have hv : f32Value (withSign neg p) * 2 ^ 149 = if neg then -(patternMagnitude p : ℚ) else patternMagnitude p := by
      rw [f32Value_eq, f32Scaled_withSign neg hp31]; cases neg <;> simp
    have hw : f32Value w * 2 ^ 149 = if f32Sign w then -(patternMagnitude (w.toNat % 2 ^ 31) : ℚ) else patternMagnitude (w.toNat % 2 ^ 31) := by
      rw [f32Value_eq, f32Scaled, f32Magnitude_eq]; cases f32Sign w <;> simp
    obtain ⟨n1, n2⟩ := h.nearest hf (w.toNat % 2 ^ 31)
    have hq' : q * 2 ^ 149 = if neg then -(|q| * 2 ^ 149) else |q| * 2 ^ 149 := by
      cases neg
      · simp [abs_of_nonneg (hp rfl)]
      · simp [abs_of_nonpos (hn rfl)]
    have hbit : (withSign neg p).getLsbD 0 = false ↔ p % 2 = 0 := by
      rw [BitVec.getLsbD, withSign_toNat neg hp31, Nat.testBit_eq_decide_div_mod_eq]
      cases neg <;> simp <;> omega
    have scale : ∀ u v : ℚ, |u - v| * 2 ^ 149 = |u * 2 ^ 149 - v * 2 ^ 149| := by
      intro u v
      rw [← sub_mul, abs_mul, abs_of_pos c]
    have hr : |q - f32Value (withSign neg p)| * 2 ^ 149 = |(|q| * 2 ^ 149) - patternMagnitude p| := by
      rw [scale, hq', hv]
      cases neg
      · simp
      · simp only [if_true]; rw [abs_sub_comm]; congr 1; ring
    have hM0 : |q| * 2 ^ 149 = 0 → p = 0 := by
      intro h0
      by_contra hne
      obtain ⟨r, rfl⟩ : ∃ r, p = r + 1 := ⟨p - 1, by omega⟩
      have a1 := (h.above r rfl).1
      have : (0 : ℚ) ≤ patternMagnitude r := by positivity
      have : (patternMagnitude r : ℚ) < patternMagnitude (r + 1) := by exact_mod_cast patternMagnitude_succ r
      linarith
    have ha : 0 ≤ |q| * 2 ^ 149 := by positivity
    have hW : (0 : ℚ) ≤ patternMagnitude (w.toNat % 2 ^ 31) := by positivity
    have main : |q - f32Value (withSign neg p)| * 2 ^ 149 ≤ |q - f32Value w| * 2 ^ 149 ∧
        (|q - f32Value (withSign neg p)| * 2 ^ 149 = |q - f32Value w| * 2 ^ 149 →
          f32Value w * 2 ^ 149 = f32Value (withSign neg p) * 2 ^ 149 ∨ p % 2 = 0) := by
      rw [hr, scale, hq', hw, hv]
      by_cases hs : f32Sign w = neg
      · have e : |(if neg then -(|q| * 2 ^ 149) else |q| * 2 ^ 149) -
            (if f32Sign w then -(patternMagnitude (w.toNat % 2 ^ 31) : ℚ) else patternMagnitude (w.toNat % 2 ^ 31))| =
            |(|q| * 2 ^ 149) - patternMagnitude (w.toNat % 2 ^ 31)| := by
          rw [hs]
          cases neg
          · simp
          · simp only [if_true]; rw [abs_sub_comm]; congr 1; ring
        rw [e, hs]
        refine ⟨n1, fun he => (n2 he).imp (fun hm => by rw [hm]) id⟩
      · have e : |(if neg then -(|q| * 2 ^ 149) else |q| * 2 ^ 149) -
            (if f32Sign w then -(patternMagnitude (w.toNat % 2 ^ 31) : ℚ) else patternMagnitude (w.toNat % 2 ^ 31))| =
            |q| * 2 ^ 149 + patternMagnitude (w.toNat % 2 ^ 31) := by
          cases hn' : neg <;> cases hs' : f32Sign w <;> simp only [hn', hs', not_true] at hs
          · simp only [Bool.false_eq_true, if_false, if_true, sub_neg_eq_add]
            exact abs_of_nonneg (by linarith)
          · simp only [Bool.false_eq_true, if_false, if_true]
            rw [abs_of_nonpos (by linarith)]; ring
        rw [e]
        generalize |q| * 2 ^ 149 = a at *
        have tri : |a - patternMagnitude (w.toNat % 2 ^ 31)| ≤ a + patternMagnitude (w.toNat % 2 ^ 31) := by
          rw [abs_le]; constructor <;> linarith
        refine ⟨n1.trans tri, fun he => ?_⟩
        have heq : |a - patternMagnitude (w.toNat % 2 ^ 31)| = a + patternMagnitude (w.toNat % 2 ^ 31) :=
          le_antisymm tri (he ▸ n1)
        rcases n2 (he.trans heq.symm) with hm | hm
        · rcases abs_cases (a - (patternMagnitude (w.toNat % 2 ^ 31) : ℚ)) with ⟨e', _⟩ | ⟨e', _⟩
          · have hz : (patternMagnitude (w.toNat % 2 ^ 31) : ℚ) = 0 := by linarith
            have hz' := hz
            rw [hm] at hz'
            left
            rw [hz, hz']
            cases neg <;> cases f32Sign w <;> simp
          · right
            have := hM0 (by linarith)
            omega
        · exact .inr hm
    obtain ⟨m1, m2⟩ := main
    refine ⟨le_of_mul_le_mul_right m1 c, fun he => ?_⟩
    rcases m2 (by rw [he]) with hm | hm
    · exact .inl (mul_right_cancel₀ c.ne' hm)
    · exact .inr (hbit.2 hm)
  · have hneg : neg = false := by
      by_contra hc
      have := hn (by simpa using hc)
      linarith
    rw [hneg, big.2 (hq.trans (le_abs_self q))]
    rfl
  · have hneg : neg = true := by
      by_contra hc
      have := hp (by simpa using hc)
      linarith
    rw [hneg, big.2 (by rw [abs_of_nonpos (by linarith)]; linarith)]
    rfl

/-- A finite pattern is no NaN. -/
theorem f32IsNan_of_finite {a : Word} (h : F32Finite a) : f32IsNan a = false := by
  have : f32Exponent a ≠ 255 := h
  simp [f32IsNan, this]

/-- A finite pattern is no infinity. -/
theorem f32IsInf_of_finite {a : Word} (h : F32Finite a) : f32IsInf a = false := by
  have : f32Exponent a ≠ 255 := h
  simp [f32IsInf, this]

/-- Turning the sign over leaves the other bits. -/
theorem fneg32_toNat (a : Word) : (fneg32 a).toNat % 2 ^ 31 = a.toNat % 2 ^ 31 := by
  have h : (fneg32 a &&& 0x7FFFFFFF#32) = (a &&& 0x7FFFFFFF#32) := by
    ext i hi
    simp only [fneg32, BitVec.getElem_and, BitVec.getElem_xor]
    interval_cases i <;> simp
  have h := congrArg BitVec.toNat h
  simp only [BitVec.toNat_and] at h
  have e : ∀ x : Nat, x &&& 2147483647 = x % 2 ^ 31 := fun x => by
    rw [show 2147483647 = 2 ^ 31 - 1 by norm_num, Nat.and_two_pow_sub_one_eq_mod]
  simpa [e] using h

/-- Turning the sign over negates the value. -/
theorem fneg32_scaled (a : Word) : f32Scaled (fneg32 a) = -f32Scaled a := by
  have hs : f32Sign (fneg32 a) = !f32Sign a := by simp [f32Sign, fneg32]
  simp only [f32Scaled, hs, f32Magnitude_eq, fneg32_toNat]
  cases f32Sign a <;> simp

/-- Turning the sign over keeps a pattern finite. -/
theorem fneg32_finite (a : Word) : F32Finite (fneg32 a) ↔ F32Finite a := by
  rw [f32Finite_iff, f32Finite_iff, fneg32_toNat]

/-- The value of a pattern, from its scaled integer. -/
theorem f32Value_eq_div (a : Word) : f32Value a = f32Scaled a / 2 ^ 149 := by
  rw [← f32Value_eq]
  field_simp

/-- The size of a pattern's value. -/
theorem abs_f32Scaled (a : Word) : |f32Scaled a| = f32Magnitude a := by
  unfold f32Scaled
  split <;> simp

end Sys2Proof.Machine
end

