-- ==== Sys2Proof/Laws/State.lean ====
section
/-!
SUPPORT. One field law per field per state update: what each named update writes, and that it leaves
every other field alone. No later proof unfolds a record update.
-/
namespace Sys2Proof.Machine

@[simp] theorem State.setFilter_filters (s : State) (i : FilterId) (f : FilterWindow) : (s.setFilter i f).filters = s.filters.set i f := rfl

/-- `setFilter` leaves every other field alone. -/
@[simp] theorem State.setFilter_rest (s : State) (i : FilterId) (f : FilterWindow) :
    (s.setFilter i f).rd = s.rd ∧ (s.setFilter i f).out = s.out ∧ (s.setFilter i f).lock = s.lock ∧
    (s.setFilter i f).pulses = s.pulses ∧ (s.setFilter i f).seq = s.seq ∧ (s.setFilter i f).dout = s.dout ∧
    (s.setFilter i f).cmdErr = s.cmdErr ∧ (s.setFilter i f).fb = s.fb ∧ (s.setFilter i f).frameStrobe = s.frameStrobe ∧
    (s.setFilter i f).frames = s.frames ∧ (s.setFilter i f).din = s.din ∧ (s.setFilter i f).inp = s.inp ∧
    (s.setFilter i f).tach = s.tach ∧ (s.setFilter i f).settings = s.settings ∧ (s.setFilter i f).cfg = s.cfg ∧
    (s.setFilter i f).env = s.env := by
  refine ⟨?_, ?_, ?_, ?_, ?_, ?_, ?_, ?_, ?_, ?_, ?_, ?_, ?_, ?_, ?_, ?_⟩ <;> rfl

@[simp] theorem State.addSample_filters (s : State) (i : FilterId) (x : Word) : (s.addSample i x).filters = s.filters.set i (filterInsert (Config.cap i) x (s.filters.get i)) := rfl

/-- `addSample` leaves every other field alone. -/
@[simp] theorem State.addSample_rest (s : State) (i : FilterId) (x : Word) :
    (s.addSample i x).rd = s.rd ∧ (s.addSample i x).out = s.out ∧ (s.addSample i x).lock = s.lock ∧
    (s.addSample i x).pulses = s.pulses ∧ (s.addSample i x).seq = s.seq ∧ (s.addSample i x).dout = s.dout ∧
    (s.addSample i x).cmdErr = s.cmdErr ∧ (s.addSample i x).fb = s.fb ∧ (s.addSample i x).frameStrobe = s.frameStrobe ∧
    (s.addSample i x).frames = s.frames ∧ (s.addSample i x).din = s.din ∧ (s.addSample i x).inp = s.inp ∧
    (s.addSample i x).tach = s.tach ∧ (s.addSample i x).settings = s.settings ∧ (s.addSample i x).cfg = s.cfg ∧
    (s.addSample i x).env = s.env := by
  refine ⟨?_, ?_, ?_, ?_, ?_, ?_, ?_, ?_, ?_, ?_, ?_, ?_, ?_, ?_, ?_, ?_⟩ <;> rfl

@[simp] theorem State.setPulse_pulses (s : State) (t : Fan) (p : PulseCapture) : (s.setPulse t p).pulses = s.pulses.set t p := rfl

/-- `setPulse` leaves every other field alone. -/
@[simp] theorem State.setPulse_rest (s : State) (t : Fan) (p : PulseCapture) :
    (s.setPulse t p).rd = s.rd ∧ (s.setPulse t p).out = s.out ∧ (s.setPulse t p).lock = s.lock ∧
    (s.setPulse t p).filters = s.filters ∧ (s.setPulse t p).seq = s.seq ∧ (s.setPulse t p).dout = s.dout ∧
    (s.setPulse t p).cmdErr = s.cmdErr ∧ (s.setPulse t p).fb = s.fb ∧ (s.setPulse t p).frameStrobe = s.frameStrobe ∧
    (s.setPulse t p).frames = s.frames ∧ (s.setPulse t p).din = s.din ∧ (s.setPulse t p).inp = s.inp ∧
    (s.setPulse t p).tach = s.tach ∧ (s.setPulse t p).settings = s.settings ∧ (s.setPulse t p).cfg = s.cfg ∧
    (s.setPulse t p).env = s.env := by
  refine ⟨?_, ?_, ?_, ?_, ?_, ?_, ?_, ?_, ?_, ?_, ?_, ?_, ?_, ?_, ?_, ?_⟩ <;> rfl

@[simp] theorem State.tedge_pulses (s : State) (t : Fan) : (s.tedge t).pulses = s.pulses.set t (capturePulse s.inp.nowUs (s.pulses.get t)) := rfl

/-- `tedge` leaves every other field alone. -/
@[simp] theorem State.tedge_rest (s : State) (t : Fan) :
    (s.tedge t).rd = s.rd ∧ (s.tedge t).out = s.out ∧ (s.tedge t).lock = s.lock ∧
    (s.tedge t).filters = s.filters ∧ (s.tedge t).seq = s.seq ∧ (s.tedge t).dout = s.dout ∧
    (s.tedge t).cmdErr = s.cmdErr ∧ (s.tedge t).fb = s.fb ∧ (s.tedge t).frameStrobe = s.frameStrobe ∧
    (s.tedge t).frames = s.frames ∧ (s.tedge t).din = s.din ∧ (s.tedge t).inp = s.inp ∧
    (s.tedge t).tach = s.tach ∧ (s.tedge t).settings = s.settings ∧ (s.tedge t).cfg = s.cfg ∧
    (s.tedge t).env = s.env := by
  refine ⟨?_, ?_, ?_, ?_, ?_, ?_, ?_, ?_, ?_, ?_, ?_, ?_, ?_, ?_, ?_, ?_⟩ <;> rfl

@[simp] theorem State.setRd_rd (s : State) (r : Readings) : (s.setRd r).rd = r := rfl

/-- `setRd` leaves every other field alone. -/
@[simp] theorem State.setRd_rest (s : State) (r : Readings) :
    (s.setRd r).out = s.out ∧ (s.setRd r).lock = s.lock ∧ (s.setRd r).filters = s.filters ∧
    (s.setRd r).pulses = s.pulses ∧ (s.setRd r).seq = s.seq ∧ (s.setRd r).dout = s.dout ∧
    (s.setRd r).cmdErr = s.cmdErr ∧ (s.setRd r).fb = s.fb ∧ (s.setRd r).frameStrobe = s.frameStrobe ∧
    (s.setRd r).frames = s.frames ∧ (s.setRd r).din = s.din ∧ (s.setRd r).inp = s.inp ∧
    (s.setRd r).tach = s.tach ∧ (s.setRd r).settings = s.settings ∧ (s.setRd r).cfg = s.cfg ∧
    (s.setRd r).env = s.env := by
  refine ⟨?_, ?_, ?_, ?_, ?_, ?_, ?_, ?_, ?_, ?_, ?_, ?_, ?_, ?_, ?_, ?_⟩ <;> rfl


/-- `reportFan` leaves every other field alone. -/
@[simp] theorem State.reportFan_rest (s : State) (t : Fan) :
    (s.reportFan t).out = s.out ∧ (s.reportFan t).lock = s.lock ∧ (s.reportFan t).filters = s.filters ∧
    (s.reportFan t).pulses = s.pulses ∧ (s.reportFan t).seq = s.seq ∧ (s.reportFan t).dout = s.dout ∧
    (s.reportFan t).cmdErr = s.cmdErr ∧ (s.reportFan t).fb = s.fb ∧ (s.reportFan t).frameStrobe = s.frameStrobe ∧
    (s.reportFan t).frames = s.frames ∧ (s.reportFan t).din = s.din ∧ (s.reportFan t).inp = s.inp ∧
    (s.reportFan t).tach = s.tach ∧ (s.reportFan t).settings = s.settings ∧ (s.reportFan t).cfg = s.cfg ∧
    (s.reportFan t).env = s.env := by
  refine ⟨?_, ?_, ?_, ?_, ?_, ?_, ?_, ?_, ?_, ?_, ?_, ?_, ?_, ?_, ?_, ?_⟩ <;> rfl

@[simp] theorem State.setDout_dout (s : State) (v : Word) : (s.setDout v).dout = v := rfl

/-- `setDout` leaves every other field alone. -/
@[simp] theorem State.setDout_rest (s : State) (v : Word) :
    (s.setDout v).rd = s.rd ∧ (s.setDout v).out = s.out ∧ (s.setDout v).lock = s.lock ∧
    (s.setDout v).filters = s.filters ∧ (s.setDout v).pulses = s.pulses ∧ (s.setDout v).seq = s.seq ∧
    (s.setDout v).cmdErr = s.cmdErr ∧ (s.setDout v).fb = s.fb ∧ (s.setDout v).frameStrobe = s.frameStrobe ∧
    (s.setDout v).frames = s.frames ∧ (s.setDout v).din = s.din ∧ (s.setDout v).inp = s.inp ∧
    (s.setDout v).tach = s.tach ∧ (s.setDout v).settings = s.settings ∧ (s.setDout v).cfg = s.cfg ∧
    (s.setDout v).env = s.env := by
  refine ⟨?_, ?_, ?_, ?_, ?_, ?_, ?_, ?_, ?_, ?_, ?_, ?_, ?_, ?_, ?_, ?_⟩ <;> rfl

@[simp] theorem State.raiseLatch_rd (s : State) (c : Half) : (s.raiseLatch c).rd = { s.rd with alert := true, code := c } := rfl
@[simp] theorem State.raiseLatch_out (s : State) (c : Half) : (s.raiseLatch c).out = { s.out with alarmOut := true } := rfl

/-- `raiseLatch` leaves every other field alone. -/
@[simp] theorem State.raiseLatch_rest (s : State) (c : Half) :
    (s.raiseLatch c).lock = s.lock ∧ (s.raiseLatch c).filters = s.filters ∧ (s.raiseLatch c).pulses = s.pulses ∧
    (s.raiseLatch c).seq = s.seq ∧ (s.raiseLatch c).dout = s.dout ∧ (s.raiseLatch c).cmdErr = s.cmdErr ∧
    (s.raiseLatch c).fb = s.fb ∧ (s.raiseLatch c).frameStrobe = s.frameStrobe ∧ (s.raiseLatch c).frames = s.frames ∧
    (s.raiseLatch c).din = s.din ∧ (s.raiseLatch c).inp = s.inp ∧ (s.raiseLatch c).tach = s.tach ∧
    (s.raiseLatch c).settings = s.settings ∧ (s.raiseLatch c).cfg = s.cfg ∧ (s.raiseLatch c).env = s.env := by
  refine ⟨?_, ?_, ?_, ?_, ?_, ?_, ?_, ?_, ?_, ?_, ?_, ?_, ?_, ?_, ?_⟩ <;> rfl


/-- `latchIf` leaves every other field alone. -/
@[simp] theorem State.latchIf_rest (s : State) (b : Bool) (c : Half) :
    (s.latchIf b c).lock = s.lock ∧ (s.latchIf b c).filters = s.filters ∧ (s.latchIf b c).pulses = s.pulses ∧
    (s.latchIf b c).seq = s.seq ∧ (s.latchIf b c).dout = s.dout ∧ (s.latchIf b c).cmdErr = s.cmdErr ∧
    (s.latchIf b c).fb = s.fb ∧ (s.latchIf b c).frameStrobe = s.frameStrobe ∧ (s.latchIf b c).frames = s.frames ∧
    (s.latchIf b c).din = s.din ∧ (s.latchIf b c).inp = s.inp ∧ (s.latchIf b c).tach = s.tach ∧
    (s.latchIf b c).settings = s.settings ∧ (s.latchIf b c).cfg = s.cfg ∧ (s.latchIf b c).env = s.env := by
  unfold State.latchIf; split <;> simp


/-- `checkFan` leaves every other field alone. -/
@[simp] theorem State.checkFan_rest (s : State) (t : Fan) :
    (s.checkFan t).lock = s.lock ∧ (s.checkFan t).filters = s.filters ∧ (s.checkFan t).pulses = s.pulses ∧
    (s.checkFan t).seq = s.seq ∧ (s.checkFan t).dout = s.dout ∧ (s.checkFan t).cmdErr = s.cmdErr ∧
    (s.checkFan t).fb = s.fb ∧ (s.checkFan t).frameStrobe = s.frameStrobe ∧ (s.checkFan t).frames = s.frames ∧
    (s.checkFan t).din = s.din ∧ (s.checkFan t).inp = s.inp ∧ (s.checkFan t).tach = s.tach ∧
    (s.checkFan t).settings = s.settings ∧ (s.checkFan t).cfg = s.cfg ∧ (s.checkFan t).env = s.env := by
  unfold State.checkFan; simp

@[simp] theorem State.raiseIllegal_cmdErr (s : State) : (s.raiseIllegal).cmdErr = true := rfl

/-- `raiseIllegal` leaves every other field alone. -/
@[simp] theorem State.raiseIllegal_rest (s : State) :
    (s.raiseIllegal).rd = s.rd ∧ (s.raiseIllegal).out = s.out ∧ (s.raiseIllegal).lock = s.lock ∧
    (s.raiseIllegal).filters = s.filters ∧ (s.raiseIllegal).pulses = s.pulses ∧ (s.raiseIllegal).seq = s.seq ∧
    (s.raiseIllegal).dout = s.dout ∧ (s.raiseIllegal).fb = s.fb ∧ (s.raiseIllegal).frameStrobe = s.frameStrobe ∧
    (s.raiseIllegal).frames = s.frames ∧ (s.raiseIllegal).din = s.din ∧ (s.raiseIllegal).inp = s.inp ∧
    (s.raiseIllegal).tach = s.tach ∧ (s.raiseIllegal).settings = s.settings ∧ (s.raiseIllegal).cfg = s.cfg ∧
    (s.raiseIllegal).env = s.env := by
  refine ⟨?_, ?_, ?_, ?_, ?_, ?_, ?_, ?_, ?_, ?_, ?_, ?_, ?_, ?_, ?_, ?_⟩ <;> rfl

@[simp] theorem State.startCycle_seq (s : State) (r : Bool) : (s.startCycle r).seq = { phase := 0, busy := true, rpt := r } := rfl

/-- `startCycle` leaves every other field alone. -/
@[simp] theorem State.startCycle_rest (s : State) (r : Bool) :
    (s.startCycle r).rd = s.rd ∧ (s.startCycle r).out = s.out ∧ (s.startCycle r).lock = s.lock ∧
    (s.startCycle r).filters = s.filters ∧ (s.startCycle r).pulses = s.pulses ∧ (s.startCycle r).dout = s.dout ∧
    (s.startCycle r).cmdErr = s.cmdErr ∧ (s.startCycle r).fb = s.fb ∧ (s.startCycle r).frameStrobe = s.frameStrobe ∧
    (s.startCycle r).frames = s.frames ∧ (s.startCycle r).din = s.din ∧ (s.startCycle r).inp = s.inp ∧
    (s.startCycle r).tach = s.tach ∧ (s.startCycle r).settings = s.settings ∧ (s.startCycle r).cfg = s.cfg ∧
    (s.startCycle r).env = s.env := by
  refine ⟨?_, ?_, ?_, ?_, ?_, ?_, ?_, ?_, ?_, ?_, ?_, ?_, ?_, ?_, ?_, ?_⟩ <;> rfl


/-- `advancePhase` leaves every other field alone. -/
@[simp] theorem State.advancePhase_rest (s : State) :
    (s.advancePhase).rd = s.rd ∧ (s.advancePhase).out = s.out ∧ (s.advancePhase).lock = s.lock ∧
    (s.advancePhase).filters = s.filters ∧ (s.advancePhase).pulses = s.pulses ∧ (s.advancePhase).dout = s.dout ∧
    (s.advancePhase).cmdErr = s.cmdErr ∧ (s.advancePhase).fb = s.fb ∧ (s.advancePhase).frameStrobe = s.frameStrobe ∧
    (s.advancePhase).frames = s.frames ∧ (s.advancePhase).din = s.din ∧ (s.advancePhase).inp = s.inp ∧
    (s.advancePhase).tach = s.tach ∧ (s.advancePhase).settings = s.settings ∧ (s.advancePhase).cfg = s.cfg ∧
    (s.advancePhase).env = s.env := by
  unfold State.advancePhase; split <;> simp

@[simp] theorem State.emitFrame_frames (s : State) : (s.emitFrame).frames = s.frames ++ [frameBytes s.fb] := rfl
@[simp] theorem State.emitFrame_frameStrobe (s : State) : (s.emitFrame).frameStrobe = true := rfl

/-- `emitFrame` leaves every other field alone. -/
@[simp] theorem State.emitFrame_rest (s : State) :
    (s.emitFrame).rd = s.rd ∧ (s.emitFrame).out = s.out ∧ (s.emitFrame).lock = s.lock ∧
    (s.emitFrame).filters = s.filters ∧ (s.emitFrame).pulses = s.pulses ∧ (s.emitFrame).seq = s.seq ∧
    (s.emitFrame).dout = s.dout ∧ (s.emitFrame).cmdErr = s.cmdErr ∧ (s.emitFrame).fb = s.fb ∧
    (s.emitFrame).din = s.din ∧ (s.emitFrame).inp = s.inp ∧ (s.emitFrame).tach = s.tach ∧
    (s.emitFrame).settings = s.settings ∧ (s.emitFrame).cfg = s.cfg ∧ (s.emitFrame).env = s.env := by
  refine ⟨?_, ?_, ?_, ?_, ?_, ?_, ?_, ?_, ?_, ?_, ?_, ?_, ?_, ?_, ?_⟩ <;> rfl

@[simp] theorem State.lowerStrobe_frameStrobe (s : State) : (s.lowerStrobe).frameStrobe = false := rfl

/-- `lowerStrobe` leaves every other field alone. -/
@[simp] theorem State.lowerStrobe_rest (s : State) :
    (s.lowerStrobe).rd = s.rd ∧ (s.lowerStrobe).out = s.out ∧ (s.lowerStrobe).lock = s.lock ∧
    (s.lowerStrobe).filters = s.filters ∧ (s.lowerStrobe).pulses = s.pulses ∧ (s.lowerStrobe).seq = s.seq ∧
    (s.lowerStrobe).dout = s.dout ∧ (s.lowerStrobe).cmdErr = s.cmdErr ∧ (s.lowerStrobe).fb = s.fb ∧
    (s.lowerStrobe).frames = s.frames ∧ (s.lowerStrobe).din = s.din ∧ (s.lowerStrobe).inp = s.inp ∧
    (s.lowerStrobe).tach = s.tach ∧ (s.lowerStrobe).settings = s.settings ∧ (s.lowerStrobe).cfg = s.cfg ∧
    (s.lowerStrobe).env = s.env := by
  refine ⟨?_, ?_, ?_, ?_, ?_, ?_, ?_, ?_, ?_, ?_, ?_, ?_, ?_, ?_, ?_, ?_⟩ <;> rfl


/-- `pollPulse` leaves every other field alone. -/
@[simp] theorem State.pollPulse_rest (s : State) (t : Fan) :
    (s.pollPulse t).rd = s.rd ∧ (s.pollPulse t).out = s.out ∧ (s.pollPulse t).lock = s.lock ∧
    (s.pollPulse t).seq = s.seq ∧ (s.pollPulse t).dout = s.dout ∧ (s.pollPulse t).cmdErr = s.cmdErr ∧
    (s.pollPulse t).fb = s.fb ∧ (s.pollPulse t).frameStrobe = s.frameStrobe ∧ (s.pollPulse t).frames = s.frames ∧
    (s.pollPulse t).din = s.din ∧ (s.pollPulse t).inp = s.inp ∧ (s.pollPulse t).tach = s.tach ∧
    (s.pollPulse t).settings = s.settings ∧ (s.pollPulse t).cfg = s.cfg ∧ (s.pollPulse t).env = s.env := by
  unfold State.pollPulse; dsimp only; split <;> simp


/-- `openValve` leaves every other field alone. -/
@[simp] theorem State.openValve_rest (s : State) (now : Word) :
    (s.openValve now).rd = s.rd ∧ (s.openValve now).filters = s.filters ∧ (s.openValve now).pulses = s.pulses ∧
    (s.openValve now).seq = s.seq ∧ (s.openValve now).dout = s.dout ∧ (s.openValve now).cmdErr = s.cmdErr ∧
    (s.openValve now).fb = s.fb ∧ (s.openValve now).frameStrobe = s.frameStrobe ∧ (s.openValve now).frames = s.frames ∧
    (s.openValve now).din = s.din ∧ (s.openValve now).inp = s.inp ∧ (s.openValve now).tach = s.tach ∧
    (s.openValve now).settings = s.settings ∧ (s.openValve now).cfg = s.cfg ∧ (s.openValve now).env = s.env := by
  unfold State.openValve; split <;> simp


/-- `startCompressor` leaves every other field alone. -/
@[simp] theorem State.startCompressor_rest (s : State) (now : Word) :
    (s.startCompressor now).rd = s.rd ∧ (s.startCompressor now).filters = s.filters ∧ (s.startCompressor now).pulses = s.pulses ∧
    (s.startCompressor now).seq = s.seq ∧ (s.startCompressor now).dout = s.dout ∧ (s.startCompressor now).cmdErr = s.cmdErr ∧
    (s.startCompressor now).fb = s.fb ∧ (s.startCompressor now).frameStrobe = s.frameStrobe ∧ (s.startCompressor now).frames = s.frames ∧
    (s.startCompressor now).din = s.din ∧ (s.startCompressor now).inp = s.inp ∧ (s.startCompressor now).tach = s.tach ∧
    (s.startCompressor now).settings = s.settings ∧ (s.startCompressor now).cfg = s.cfg ∧ (s.startCompressor now).env = s.env := by
  unfold State.startCompressor; split <;> simp


/-- `shutDown` leaves every other field alone. -/
@[simp] theorem State.shutDown_rest (s : State) (now : Word) :
    (s.shutDown now).rd = s.rd ∧ (s.shutDown now).filters = s.filters ∧ (s.shutDown now).pulses = s.pulses ∧
    (s.shutDown now).seq = s.seq ∧ (s.shutDown now).dout = s.dout ∧ (s.shutDown now).cmdErr = s.cmdErr ∧
    (s.shutDown now).fb = s.fb ∧ (s.shutDown now).frameStrobe = s.frameStrobe ∧ (s.shutDown now).frames = s.frames ∧
    (s.shutDown now).din = s.din ∧ (s.shutDown now).inp = s.inp ∧ (s.shutDown now).tach = s.tach ∧
    (s.shutDown now).settings = s.settings ∧ (s.shutDown now).cfg = s.cfg ∧ (s.shutDown now).env = s.env := by
  unfold State.shutDown; split <;> simp


/-- `thermalStep` leaves every other field alone. -/
@[simp] theorem State.thermalStep_rest (s : State) :
    (s.thermalStep).rd = s.rd ∧ (s.thermalStep).filters = s.filters ∧ (s.thermalStep).pulses = s.pulses ∧
    (s.thermalStep).seq = s.seq ∧ (s.thermalStep).dout = s.dout ∧ (s.thermalStep).cmdErr = s.cmdErr ∧
    (s.thermalStep).fb = s.fb ∧ (s.thermalStep).frameStrobe = s.frameStrobe ∧ (s.thermalStep).frames = s.frames ∧
    (s.thermalStep).din = s.din ∧ (s.thermalStep).inp = s.inp ∧ (s.thermalStep).tach = s.tach ∧
    (s.thermalStep).settings = s.settings ∧ (s.thermalStep).cfg = s.cfg ∧ (s.thermalStep).env = s.env := by
  unfold State.thermalStep; dsimp only; split <;> split <;> simp

/-- Reading `F[j]` after writing `F[i]`. -/
@[simp] theorem FilterBank.get_set (b : FilterBank) (i j : FilterId) (f : FilterWindow) :
    (b.set i f).get j = if j = i then f else b.get j := by
  cases i <;> cases j <;> rfl

/-- Reading `PC[u]` after writing `PC[t]`. -/
@[simp] theorem PulseBank.get_set (b : PulseBank) (t u : Fan) (p : PulseCapture) :
    (b.set t p).get u = if u = t then p else b.get u := by
  cases t <;> cases u <;> rfl

/-- Reading a tach line after driving one. -/
@[simp] theorem TachLines.get_set (l : TachLines) (t u : Fan) (level : Bool) :
    (l.set t level).get u = if u = t then level else l.get u := by
  cases t <;> cases u <;> rfl

/-- A filter bank is its five windows. -/
theorem FilterBank.ext_get {b c : FilterBank} (h : ∀ i, b.get i = c.get i) : b = c := by
  cases b; cases c
  have h0 := h .levelSense; have h1 := h .levelRef; have h2 := h .filterDp
  have h3 := h .fanTop; have h4 := h .fanBot
  simp only [FilterBank.get] at h0 h1 h2 h3 h4
  subst h0 h1 h2 h3 h4
  rfl

end Sys2Proof.Machine
end

