-- ==== Sys2Proof/Laws/Filter.lean ====
section
/-!
SUPPORT. The filters' laws: one insertion keeps the invariants of spec/10_state.md R29, so the 40-bit
sum never overflows and never underflows.
-/
namespace Sys2Proof.Machine

open Sys2Proof.Safety

/-- The exact sum of samples. -/
def sampleSum (xs : List Word) : Nat := (xs.map BitVec.toNat).sum

@[simp] theorem sampleSum_nil : sampleSum [] = 0 := rfl

@[simp] theorem sampleSum_cons (x : Word) (xs : List Word) :
    sampleSum (x :: xs) = x.toNat + sampleSum xs := by
  simp [sampleSum]

@[simp] theorem sampleSum_append (xs ys : List Word) :
    sampleSum (xs ++ ys) = sampleSum xs + sampleSum ys := by
  simp [sampleSum]

/-- Each sample is below 2^32 (R29). -/
theorem sampleSum_le : ∀ xs : List Word, sampleSum xs ≤ xs.length * (2 ^ 32 - 1)
  | [] => Nat.le_refl 0
  | x :: xs => by
    have h1 := sampleSum_le xs
    have h2 := x.isLt
    simp only [sampleSum_cons, List.length_cons]
    omega

/-- Overwriting one sample trades it for the new one. -/
theorem sampleSum_set (x : Word) :
    ∀ (xs : List Word) (k : Nat), k < xs.length →
      sampleSum (xs.set k x) + (xs.getD k 0).toNat = sampleSum xs + x.toNat
  | [], _, h => by simp at h
  | y :: ys, 0, _ => by simp; omega
  | y :: ys, k + 1, h => by
    have := sampleSum_set x ys k (by simpa using h)
    simp only [List.set_cons_succ, sampleSum_cons, List.getD_cons_succ]
    omega

/-- Overwriting the slot after the first `k` and taking one more appends the new sample. -/
theorem take_set_succ (x : Word) :
    ∀ (xs : List Word) (k : Nat), k < xs.length → (xs.set k x).take (k + 1) = xs.take k ++ [x]
  | [], _, h => by simp at h
  | y :: ys, 0, _ => by simp
  | y :: ys, k + 1, h => by
    have := take_set_succ x ys k (by simpa using h)
    simp [this]

/-- Widening a sample to 40 bits keeps its value. -/
@[simp] theorem zext40_toNat (x : Word) : (zext40 x).toNat = x.toNat := by
  have := x.isLt
  simp only [zext40, BitVec.toNat_setWidth]
  omega

/-- The held samples of a window that is not yet full, in terms of `take`. -/
theorem heldSamples_of_le {cap : Nat} {f : FilterWindow} (hl : f.buf.length = cap)
    (hc : f.count ≤ cap) : heldSamples cap f = f.buf.take f.count := by
  unfold heldSamples
  split
  · rfl
  · rw [List.take_of_length_le (by omega)]

/-- The sum of a window fits in 40 bits with a sample to spare (R29). -/
theorem filterInv_sum_lt {cap : Nat} {f : FilterWindow} (h : FilterInv cap f) (hc : cap ≤ 100) :
    f.sum.toNat + 2 ^ 32 < 2 ^ 40 := by
  have hle := sampleSum_le (heldSamples cap f)
  have hlen : (heldSamples cap f).length ≤ cap := by
    rw [heldSamples_of_le h.length h.count_le, List.length_take]
    have := h.count_le
    omega
  have : f.sum.toNat ≤ (heldSamples cap f).length * (2 ^ 32 - 1) := h.sum_eq ▸ hle
  have : (heldSamples cap f).length * (2 ^ 32 - 1) ≤ 100 * (2 ^ 32 - 1) :=
    Nat.mul_le_mul_right _ (by omega)
  omega

/-- An empty window of its capacity meets the invariants. -/
theorem filterInv_empty {cap : Nat} {f : FilterWindow} (hp : 0 < cap) (hl : f.buf.length = cap)
    (hh : f.head = 0) (hc : f.count = 0) (hs : f.sum = 0) : FilterInv cap f where
  length := hl
  count_le := by omega
  head_lt := by omega
  head_eq _ := by omega
  sum_eq := by
    rw [heldSamples_of_le hl (by omega), hc, hs]
    rfl

/-- What an insertion holds: while the window fills, the samples held and the new one. -/
theorem heldSamples_insert_filling {cap : Nat} {f : FilterWindow} (x : Word) (h : FilterInv cap f)
    (hlt : f.count < cap) :
    heldSamples cap (filterInsert cap x f) = heldSamples cap f ++ [x] := by
  have hhead := h.head_eq hlt
  rw [heldSamples_of_le h.length h.count_le, heldSamples_of_le]
  · simp only [filterInsert, if_neg (Nat.ne_of_lt hlt), hhead]
    exact take_set_succ x f.buf f.count (by rw [h.length]; exact hlt)
  · simp [filterInsert, h.length]
  · simp only [filterInsert, if_neg (Nat.ne_of_lt hlt)]
    omega

/-- One insertion keeps the invariants (R29). -/
theorem filterInsert_inv {cap : Nat} {f : FilterWindow} (x : Word) (hp : 0 < cap) (hc : cap ≤ 100)
    (h : FilterInv cap f) : FilterInv cap (filterInsert cap x f) := by
  have hlt40 := filterInv_sum_lt h hc
  have hx := x.isLt
  have hhead := h.head_lt
  rcases Nat.lt_or_ge f.count cap with hlt | hge
  · have hne := Nat.ne_of_lt hlt
    have hh := h.head_eq hlt
    refine ⟨by simp [filterInsert, h.length], ?_, Nat.mod_lt _ hp, ?_, ?_⟩
    · simp only [filterInsert, if_neg hne]; omega
    · simp only [filterInsert, if_neg hne]
      intro h'
      rw [Nat.mod_eq_of_lt (by omega)]
      omega
    · rw [heldSamples_insert_filling x h hlt]
      have hs := h.sum_eq
      change _ = sampleSum _
      change _ = sampleSum _ at hs
      simp only [filterInsert, if_neg hne, BitVec.toNat_add, zext40_toNat, sampleSum_append,
        sampleSum_cons, sampleSum_nil]
      omega
  · have heq : f.count = cap := Nat.le_antisymm h.count_le hge
    refine ⟨by simp [filterInsert, h.length], ?_, Nat.mod_lt _ hp, ?_, ?_⟩
    · simp only [filterInsert, if_pos heq]; omega
    · simp only [filterInsert, if_pos heq]; omega
    · have hset := sampleSum_set x f.buf f.head (by rw [h.length]; exact hhead)
      have hheld : heldSamples cap f = f.buf := by simp [heldSamples, heq]
      have hheld' : heldSamples cap (filterInsert cap x f) = f.buf.set f.head x := by
        simp [heldSamples, filterInsert, heq]
      have hs := h.sum_eq
      rw [hheld] at hs
      rw [hheld']
      change _ = sampleSum _ at hs
      change _ = sampleSum _
      have hold : (f.buf.getD f.head 0).toNat ≤ f.sum.toNat := by
        have := sampleSum_set 0 f.buf f.head (by rw [h.length]; exact hhead)
        simp at this
        simp
        omega
      simp only [filterInsert, if_pos heq, BitVec.toNat_add, BitVec.toNat_sub, zext40_toNat]
      omega

/-- A window holds a sample after an insertion. -/
theorem filterInsert_count_pos {cap : Nat} (hp : 0 < cap) (x : Word) (f : FilterWindow) :
    (filterInsert cap x f).count ≠ 0 := by
  unfold filterInsert
  dsimp only
  split <;> omega

/-- So its mean is the quotient (40_filter.md R121). -/
theorem filterMean_insert {cap : Nat} (hp : 0 < cap) (x : Word) (f : FilterWindow) :
    filterMean (filterInsert cap x f) =
      rne32 (filterInsert cap x f).sum.toNat (filterInsert cap x f).count :=
  if_neg (filterInsert_count_pos hp x f)

/-- Every capacity is between 1 and 100 (00_scope.md R5). -/
theorem cap_pos (i : FilterId) : 0 < Config.cap i := by cases i <;> decide

theorem cap_le (i : FilterId) : Config.cap i ≤ 100 := by cases i <;> decide

/-- Clearing a window keeps the invariants (40_filter.md R125). -/
theorem filterCleared_inv {cap : Nat} {f : FilterWindow} (hp : 0 < cap) (h : FilterInv cap f) :
    FilterInv cap (filterCleared f) :=
  filterInv_empty hp h.length rfl rfl rfl

/-- The filters' part of the machine's invariant. -/
def FiltersInv (b : FilterBank) : Prop := ∀ i, FilterInv (Config.cap i) (b.get i)

/-- Replacing one window by one that meets the invariants keeps them. -/
theorem FiltersInv.set {b : FilterBank} (h : FiltersInv b) (i : FilterId) {f : FilterWindow}
    (hf : FilterInv (Config.cap i) f) : FiltersInv (b.set i f) := by
  intro j
  rw [FilterBank.get_set]
  split
  · next e => rw [e]; exact hf
  · exact h j

/-- `FilterAdd` keeps the filters' invariants. -/
theorem FiltersInv.addSample {s : State} (h : FiltersInv s.filters) (i : FilterId) (x : Word) :
    FiltersInv (s.addSample i x).filters :=
  h.set i (filterInsert_inv x (cap_pos i) (cap_le i) (h i))

end Sys2Proof.Machine
end

