-- ==== Sys2Proof/Laws/Memory.lean ====
section
/-!
SUPPORT. The frame buffer's laws: read after write, and that every memory operation keeps the canonical
form, in which equal contents are equal data.
-/
namespace Sys2Proof.Machine

/-- One cell more, on the canonical form. -/
theorem Memory.wfFrom_cons {lo a : Nat} {b : Byte} {rest : Memory} :
    Memory.wfFrom lo ((a, b) :: rest) = true ↔
      lo ≤ a ∧ a < Config.frameLen ∧ b ≠ 0 ∧ Memory.wfFrom (a + 1) rest = true := by
  simp [Memory.wfFrom, and_assoc]

/-- The form from a higher address on is the form from a lower one on. -/
theorem Memory.wfFrom_mono {lo lo' : Nat} (h : lo' ≤ lo) :
    ∀ {m : Memory}, Memory.wfFrom lo m = true → Memory.wfFrom lo' m = true
  | [], _ => rfl
  | (_, _) :: _, hm => by
    rw [Memory.wfFrom_cons] at hm ⊢
    exact ⟨h.trans hm.1, hm.2⟩

/-- Below its first address a canonical memory reads 0x00. -/
theorem Memory.read_below {c : Nat} :
    ∀ {lo : Nat} {m : Memory}, Memory.wfFrom lo m = true → c < lo → Memory.read c m = 0
  | _, [], _, _ => rfl
  | _, (a, b) :: rest, hm, hc => by
    obtain ⟨h1, _, _, h4⟩ := Memory.wfFrom_cons.1 hm
    have hne : ¬c = a := by omega
    simpa [Memory.read, hne] using Memory.read_below h4 (by omega)

/-- Reading after writing one byte. -/
theorem Memory.read_write {c a : Nat} {b : Byte} :
    ∀ {lo : Nat} {m : Memory}, Memory.wfFrom lo m = true →
      Memory.read c (Memory.write a b m) = if c = a then b else Memory.read c m
  | _, [], _ => by
    by_cases hb : b = 0#8 <;> by_cases hc : c = a <;> simp [Memory.write, Memory.read, hb, hc]
  | _, (a', b') :: rest, hm => by
    obtain ⟨_, _, _, h4⟩ := Memory.wfFrom_cons.1 hm
    have ih := Memory.read_write (c := c) (a := a) (b := b) h4
    have below := fun h => Memory.read_below (c := c) h4 h
    unfold Memory.write
    by_cases h1 : a < a'
    · by_cases hb : b = 0#8 <;> by_cases hc : c = a
      · have hne : ¬a = a' := by omega
        simp [h1, hb, hc, Memory.read, hne, hc ▸ below (by omega)]
      · simp [h1, hb, hc]
      · simp [h1, hb, hc, Memory.read]
      · simp [h1, hb, hc, Memory.read]
    · by_cases h2 : a = a'
      · subst h2
        by_cases hb : b = 0#8 <;> by_cases hc : c = a
        · simp [hb, hc, hc ▸ below (by omega)]
        · simp [hb, hc, Memory.read]
        · simp [hb, hc, Memory.read]
        · simp [hb, hc, Memory.read]
      · by_cases hc' : c = a'
        · have hne : ¬c = a := by omega
          have hne' : ¬a' = a := by omega
          simp [h1, h2, Memory.read, hc', hne']
        · simp [h1, h2, Memory.read, hc', ih]

/-- Writing a byte at an address that exists keeps the canonical form. -/
theorem Memory.write_wf {a : Nat} {b : Byte} (ha : a < Config.frameLen) :
    ∀ {lo : Nat} {m : Memory}, lo ≤ a → Memory.wfFrom lo m = true →
      Memory.wfFrom lo (Memory.write a b m) = true
  | lo, [], hlo, _ => by
    by_cases hb : b = 0#8
    · simp [Memory.write, hb, Memory.wfFrom]
    · simp [Memory.write, hb, Memory.wfFrom, hlo, ha]
  | lo, (a', b') :: rest, hlo, hm => by
    obtain ⟨h1, h2, h3, h4⟩ := Memory.wfFrom_cons.1 hm
    unfold Memory.write
    split
    · split
      · exact hm
      · exact Memory.wfFrom_cons.2
          ⟨hlo, ha, ‹_›, Memory.wfFrom_cons.2 ⟨by omega, h2, h3, h4⟩⟩
    · split
      · subst_vars
        split
        · exact Memory.wfFrom_mono (by omega) h4
        · exact Memory.wfFrom_cons.2 ⟨hlo, ha, ‹_›, h4⟩
      · exact Memory.wfFrom_cons.2 ⟨h1, h2, h3, Memory.write_wf ha (by omega) h4⟩

/-- Writing bytes at addresses that exist keeps the canonical form. -/
theorem Memory.writeBytes_wf :
    ∀ {bs : List Byte} {a : Nat} {m : Memory}, a + bs.length ≤ Config.frameLen →
      Memory.wf m = true → Memory.wf (Memory.writeBytes a bs m) = true
  | [], _, _, _, hm => hm
  | _ :: bs, _, _, ha, hm => by
    simp only [List.length_cons] at ha
    exact Memory.writeBytes_wf (bs := bs) (by omega)
      (Memory.write_wf (by omega) (Nat.zero_le _) hm)

/-- Reading after writing bytes: the bytes written, and every other address as before. -/
theorem Memory.read_writeBytes {c : Nat} :
    ∀ {bs : List Byte} {a : Nat} {m : Memory}, a + bs.length ≤ Config.frameLen →
      Memory.wf m = true →
      Memory.read c (Memory.writeBytes a bs m) =
        if a ≤ c ∧ c < a + bs.length then bs.getD (c - a) 0 else Memory.read c m
  | [], a, m, _, _ => by
    have : ¬(a ≤ c ∧ c < a + 0) := by omega
    simp only [Memory.writeBytes, List.length_nil, if_neg this]
  | b :: bs, a, m, ha, hm => by
    simp only [List.length_cons] at ha ⊢
    have hw : Memory.wf (Memory.write a b m) = true := Memory.write_wf (by omega) (Nat.zero_le _) hm
    rw [Memory.writeBytes, Memory.read_writeBytes (by omega) hw, Memory.read_write hm]
    by_cases h1 : a + 1 ≤ c ∧ c < a + 1 + bs.length
    · have h2 : a ≤ c ∧ c < a + (bs.length + 1) := by omega
      have h3 : c - a = (c - (a + 1)) + 1 := by omega
      rw [if_pos h1, if_pos h2, h3, List.getD_cons_succ]
    · rw [if_neg h1]
      by_cases h2 : c = a
      · have h3 : a ≤ c ∧ c < a + (bs.length + 1) := by omega
        rw [if_pos h2, if_pos h3, h2, Nat.sub_self, List.getD_cons_zero]
      · have h3 : ¬(a ≤ c ∧ c < a + (bs.length + 1)) := by omega
        rw [if_neg h2, if_neg h3]

@[simp] theorem littleEndian_length (n : Nat) (v : Word) : (littleEndian n v).length = n := by
  simp [littleEndian]

/-- `MemWrite` inside the frame buffer completes. -/
theorem memWrite_inside {a n : Nat} (v : Word) (m : Memory) (h : a + n ≤ Config.frameLen) :
    memWrite a n v m = some (Memory.writeBytes a (littleEndian n v) m) := if_pos h

/-- Whatever `MemWrite` answers is in canonical form. -/
theorem memWrite_wf {a n : Nat} {v : Word} {m m' : Memory} (hm : Memory.wf m = true)
    (h : memWrite a n v m = some m') : Memory.wf m' = true := by
  unfold memWrite at h
  split at h
  · cases h
    exact Memory.writeBytes_wf (by simpa) hm
  · cases h

/-- Every field of the list lies in the frame buffer. -/
def FieldsInside (fs : List (Nat × Nat × Word)) : Prop := ∀ f ∈ fs, f.1 + f.2.1 ≤ Config.frameLen

/-- Field writes inside the frame buffer complete, and keep the canonical form. -/
theorem writeFields_inside :
    ∀ {fs : List (Nat × Nat × Word)} {m : Memory}, FieldsInside fs →
      ∃ m', writeFields fs m = some m' ∧ (Memory.wf m = true → Memory.wf m' = true)
  | [], m, _ => ⟨m, rfl, id⟩
  | (a, n, v) :: fs, m, h => by
    have ha : a + n ≤ Config.frameLen := h _ List.mem_cons_self
    obtain ⟨m', h1, h2⟩ := writeFields_inside (fs := fs)
      (m := Memory.writeBytes a (littleEndian n v) m) (fun f hf => h f (List.mem_cons_of_mem _ hf))
    refine ⟨m', by simp only [writeFields, memWrite_inside v m ha, h1], fun hm => h2 ?_⟩
    exact Memory.writeBytes_wf (by simpa) hm

/-- ENC's 19 fields lie in the frame buffer (20_memory.md R61, R62). -/
theorem frameFields_inside (r : Readings) : FieldsInside (frameFields r) := by
  intro f hf
  simp only [frameFields, List.mem_cons, List.not_mem_nil, or_false] at hf
  rcases hf with h | h | h | h | h | h | h | h | h | h | h | h | h | h | h | h | h | h | h <;>
    simp [h, Config.frameLen]

/-- A byte after field writes: that of the last field that covers it (20_memory.md R60). -/
theorem Memory.read_writeFields (c : Nat) :
    ∀ {fs : List (Nat × Nat × Word)} {m m' : Memory}, writeFields fs m = some m' →
      Memory.wf m = true →
      Memory.read c m' = fs.foldl
        (fun b f => if f.1 ≤ c ∧ c < f.1 + f.2.1 then f.2.2.extractLsb' (8 * (c - f.1)) 8 else b)
        (Memory.read c m)
  | [], m, m', h, _ => by
    simp only [writeFields, Option.some.injEq] at h
    subst h
    rfl
  | (a, n, v) :: fs, m, m', h, hm => by
    simp only [writeFields] at h
    split at h
    · next m1 h1 =>
      rw [Memory.read_writeFields c h (memWrite_wf hm h1), List.foldl_cons]
      congr 1
      unfold memWrite at h1
      split at h1
      · next hb =>
        cases h1
        have hl : (littleEndian n v).length = n := by simp [littleEndian]
        rw [Memory.read_writeBytes (by rw [hl]; exact hb) hm, hl]
        split
        · next hc =>
          rw [littleEndian, List.getD_eq_getElem?_getD, List.getElem?_eq_getElem (by simp; omega)]
          simp
        · rfl
      · cases h1
    · cases h

/-- `MemRead(a, 1)` (20_memory.md R60). -/
theorem memRead_one {a : Nat} {m : Memory} {b : Byte} (ha : a + 1 ≤ Config.frameLen)
    (h : Memory.read a m = b) : memRead a 1 m = some (b.setWidth 32) := by
  rw [memRead, if_pos ha]
  simp [h]

/-- `MemRead(a, 2)` puts two bytes together, least significant first (20_memory.md R60). -/
theorem memRead_two {a : Nat} {m : Memory} {v : Half} (ha : a + 2 ≤ Config.frameLen)
    (h0 : Memory.read a m = v.extractLsb' 0 8) (h1 : Memory.read (a + 1) m = v.extractLsb' 8 8) :
    memRead a 2 m = some (v.setWidth 32) := by
  rw [memRead, if_pos ha]
  have e : List.range 2 = [0, 1] := rfl
  simp only [e, List.map_cons, List.map_nil, List.foldl_cons, List.foldl_nil, h0, h1, Nat.add_zero,
    Option.some.injEq]
  ext i hi
  simp only [BitVec.getElem_or, BitVec.getElem_shiftLeft, BitVec.getElem_setWidth,
    BitVec.getLsbD_extractLsb']
  rcases (by omega : i < 8 ∨ (8 ≤ i ∧ i < 16) ∨ 16 ≤ i) with c | c | c
  · simp [c]
  · simp [show ¬i < 8 by omega, show i - 8 < 8 by omega,
      show 8 + (i - 8) = i by omega]
  · simp [show ¬i < 8 by omega, show ¬i - 8 < 8 by omega, BitVec.getLsbD_of_ge v i (by omega)]

/-- `MemRead(a, 4)` puts four bytes together, least significant first (20_memory.md R60). -/
theorem memRead_four {a : Nat} {m : Memory} {v : Word} (ha : a + 4 ≤ Config.frameLen)
    (h0 : Memory.read a m = v.extractLsb' 0 8) (h1 : Memory.read (a + 1) m = v.extractLsb' 8 8)
    (h2 : Memory.read (a + 2) m = v.extractLsb' 16 8)
    (h3 : Memory.read (a + 3) m = v.extractLsb' 24 8) : memRead a 4 m = some v := by
  rw [memRead, if_pos ha]
  have e : List.range 4 = [0, 1, 2, 3] := rfl
  simp only [e, List.map_cons, List.map_nil, List.foldl_cons, List.foldl_nil, h0, h1, h2, h3,
    Nat.add_zero, Option.some.injEq]
  ext i hi
  simp only [BitVec.getElem_or, BitVec.getElem_shiftLeft, BitVec.getElem_setWidth,
    BitVec.getLsbD_extractLsb']
  have hv := BitVec.getLsbD_eq_getElem (x := v) hi
  rcases (by omega : i < 8 ∨ (8 ≤ i ∧ i < 16) ∨ (16 ≤ i ∧ i < 24) ∨ 24 ≤ i) with c | c | c | c
  · simp [c, show i < 16 by omega, show i < 24 by omega, hv]
  · simp [show ¬i < 8 by omega, show i < 16 by omega, show i < 24 by omega, show i - 8 < 8 by omega,
      show 8 + (i - 8) = i by omega, hv]
  · simp [show ¬i < 8 by omega, show ¬i < 16 by omega, show i < 24 by omega, show ¬i - 8 < 8 by omega,
      show i - 16 < 8 by omega, show 16 + (i - 16) = i by omega, hv]
  · simp [show ¬i < 8 by omega, show ¬i < 16 by omega, show ¬i < 24 by omega, show ¬i - 8 < 8 by omega,
      show ¬i - 16 < 8 by omega, show i - 24 < 8 by omega,
      show 24 + (i - 24) = i by omega, hv]

/-- Two canonical memories that read alike everywhere are equal. -/
theorem Memory.wfFrom_ext :
    ∀ {m m' : Memory} {lo : Nat}, Memory.wfFrom lo m = true → Memory.wfFrom lo m' = true →
      (∀ c, Memory.read c m = Memory.read c m') → m = m'
  | [], [], _, _, _, _ => rfl
  | [], (a, b) :: r, _, _, h', h => by
    have := h a
    simp [Memory.read] at this
    exact absurd this.symm (Memory.wfFrom_cons.1 h').2.2.1
  | (a, b) :: r, [], _, h', _, h => by
    have := h a
    simp [Memory.read] at this
    exact absurd this (Memory.wfFrom_cons.1 h').2.2.1
  | (a, b) :: r, (a', b') :: r', lo, hm, hm', h => by
    obtain ⟨_, _, hb, hr⟩ := Memory.wfFrom_cons.1 hm
    obtain ⟨_, _, hb', hr'⟩ := Memory.wfFrom_cons.1 hm'
    have e : a = a' := by
      by_contra hne
      rcases Nat.lt_or_gt_of_ne hne with hlt | hlt
      · have := h a
        rw [Memory.read, if_pos rfl, Memory.read, if_neg hne, Memory.read_below hr' (by omega)] at this
        exact hb this
      · have := h a'
        rw [Memory.read, if_neg (Ne.symm hne), Memory.read, if_pos rfl,
          Memory.read_below hr (by omega)] at this
        exact hb' this.symm
    subst e
    have hbb : b = b' := by simpa [Memory.read] using h a
    subst hbb
    have tail : r = r' := Memory.wfFrom_ext hr hr' fun c => by
      by_cases hc : c = a
      · subst hc
        rw [Memory.read_below hr (by omega), Memory.read_below hr' (by omega)]
      · simpa [Memory.read, hc] using h c
    rw [tail]

end Sys2Proof.Machine
end

