-- ==== Sys2Proof/Laws/Exec.lean ====
section
/-!
SUPPORT. What a command can do, said once: `exec_effect` names every shape of effect, and the laws about
all commands are case splits over those shapes.
-/
namespace Sys2Proof.Machine

open Sys2Proof.Safety

/-- The one command that moves the sequencer. -/
def startsCycle : Instr → Bool
  | .cycle _ => true
  | _ => false

/-- The shapes of a command's effect on a state; `c` says whether the command is CYCLE. -/
inductive Effect (s : State) : Bool → State → Prop where
  | same {c : Bool} : Effect s c s
  | illegal {c : Bool} : Effect s c s.raiseIllegal
  | sample {c : Bool} (k : FilterId) (x : Word) : Effect s c (s.addSample k x)
  | dout {c : Bool} (v : Word) : Effect s c (s.setDout v)
  | clear {c : Bool} (k : FilterId) : Effect s c (s.setFilter k (filterCleared (s.filters.get k)))
  | poll {c : Bool} (t : Fan) : Effect s c (s.pollPulse t)
  | readings {c : Bool} (r : Readings) (ha : r.alert = s.rd.alert) : Effect s c (s.setRd r)
  | smooth {c : Bool} (k : FilterId) (x : Word) (r : Readings) (ha : r.alert = s.rd.alert) :
      Effect s c ((s.addSample k x).setRd r)
  | latch {c : Bool} (k : Half) : Effect s c (s.raiseLatch k)
  | substitute {c : Bool} (r : Readings) (k : Half) : Effect s c ((s.setRd r).raiseLatch k)
  | thermal {c : Bool} : Effect s c s.thermalStep
  | frame {c : Bool} (m : Memory) (hm : Memory.wf s.fb = true → Memory.wf m = true) :
      Effect s c { s with fb := m }.emitFrame
  | cycle (r : Bool) (rd : Readings) (ha : rd.alert = s.rd.alert) :
      Effect s true ((s.startCycle r).setRd rd).advancePhase

/-- A filter command does its operation on the filter its selector names, or is illegal. -/
theorem onFilter_effect {i : Sel} {f : FilterId → State → State} {c : Bool} {s t : State}
    (h : onFilter i f s = .next t) (hf : ∀ k, Effect s c (f k s)) : Effect s c t := by
  unfold onFilter at h
  split at h <;> cases h
  · exact hf _
  · exact .illegal

/-- A fan command does its operation on the fan its selector names, or is illegal. -/
theorem onFan_effect {i : Sel} {f : Fan → State → State} {c : Bool} {s t : State}
    (h : onFan i f s = .next t) (hf : ∀ k, Effect s c (f k s)) : Effect s c t := by
  unfold onFan at h
  split at h <;> cases h
  · exact hf _
  · exact .illegal

/-- A check latches or does nothing (43_fault_monitor.md R190). -/
theorem latchIf_effect {c : Bool} (s : State) (b : Bool) (k : Half) : Effect s c (s.latchIf b k) := by
  unfold State.latchIf
  split
  · exact .latch k
  · exact .same

/-- Reporting a fan writes Readings and leaves the latch. -/
theorem reportFan_effect {c : Bool} (s : State) (t : Fan) : Effect s c (s.reportFan t) :=
  .readings _ (by cases t <;> rfl)

/-- ENC completes, with a canonical frame buffer. -/
theorem execEnc_eq (s : State) :
    ∃ m, execEnc s = .next { s with fb := m }.emitFrame ∧
      writeFields (frameFields s.rd) s.fb = some m ∧ (Memory.wf s.fb = true → Memory.wf m = true) := by
  obtain ⟨m, h1, h2⟩ := writeFields_inside (m := s.fb) (frameFields_inside s.rd)
  exact ⟨m, by simp only [execEnc, h1], h1, h2⟩

/-- Every command's effect has one of the shapes. -/
theorem exec_effect {i : Instr} {s t : State} (h : exec i s = .next t) :
    Effect s (startsCycle i) t := by
  cases i with
  | fadd sel =>
    simp only [exec, execFadd] at h
    exact onFilter_effect h (fun k => .sample k s.din)
  | favg sel =>
    simp only [exec, execFavg] at h
    exact onFilter_effect h (fun k => .dout _)
  | fcnt sel =>
    simp only [exec, execFcnt] at h
    exact onFilter_effect h (fun k => .dout _)
  | fclr sel =>
    simp only [exec, execFclr] at h
    exact onFilter_effect h (fun k => .clear k)
  | tpoll sel =>
    simp only [exec, execTpoll] at h
    exact onFan_effect h (fun k => .poll k)
  | trpt sel =>
    simp only [exec, execTrpt] at h
    exact onFan_effect h (reportFan_effect s)
  | ckfs sel =>
    simp only [exec, execCkfs] at h
    exact onFan_effect h (fun k => latchIf_effect s _ _)
  | msp =>
    simp only [exec, execMsp] at h
    cases h
    exact .readings _ rfl
  | mls =>
    simp only [exec, execMls] at h
    cases h
    exact .smooth .levelSense _ _ rfl
  | mlr =>
    simp only [exec, execMlr] at h
    cases h
    exact .smooth .levelRef _ _ rfl
  | mdp =>
    simp only [exec, execMdp] at h
    cases h
    exact .smooth .filterDp _ _ rfl
  | mtr =>
    simp only [exec, execMtr] at h
    split at h <;> cases h
    · exact .readings _ rfl
    · exact .substitute _ _
  | mto =>
    simp only [exec, execMto] at h
    split at h <;> cases h
    · exact .readings _ rfl
    · exact .substitute _ _
  | mti =>
    simp only [exec, execMti] at h
    cases h
    exact .readings _ rfl
  | mhu =>
    simp only [exec, execMhu] at h
    cases h
    exact .readings _ rfl
  | mpf =>
    simp only [exec, execMpf] at h
    cases h
    exact .readings _ rfl
  | mir =>
    simp only [exec, execMir] at h
    cases h
    exact .readings _ rfl
  | cklvl =>
    simp only [exec, execCklvl] at h
    cases h
    exact latchIf_effect s _ _
  | ckcth =>
    simp only [exec, execCkcth] at h
    cases h
    exact latchIf_effect s _ _
  | ckctl =>
    simp only [exec, execCkctl] at h
    cases h
    exact latchIf_effect s _ _
  | ckchh =>
    simp only [exec, execCkchh] at h
    cases h
    exact latchIf_effect s _ _
  | ckrth =>
    simp only [exec, execCkrth] at h
    cases h
    exact latchIf_effect s _ _
  | ckrtl =>
    simp only [exec, execCkrtl] at h
    cases h
    exact latchIf_effect s _ _
  | ckoth =>
    simp only [exec, execCkoth] at h
    cases h
    exact latchIf_effect s _ _
  | ckotl =>
    simp only [exec, execCkotl] at h
    cases h
    exact latchIf_effect s _ _
  | ckdph =>
    simp only [exec, execCkdph] at h
    cases h
    exact latchIf_effect s _ _
  | ckpmp =>
    simp only [exec, execCkpmp] at h
    cases h
    exact latchIf_effect s _ _
  | latch =>
    simp only [exec, execLatch] at h
    cases h
    exact .latch _
  | tstep =>
    simp only [exec, execTstep] at h
    split at h <;> cases h
    · exact .thermal
    · exact .same
  | enc =>
    obtain ⟨m, h1, _, h3⟩ := execEnc_eq s
    simp only [exec, h1] at h
    cases h
    exact .frame m h3
  | cycle sel =>
    simp only [exec, execCycle] at h
    split at h <;> cases h
    · exact .cycle _ _ rfl
    · exact .illegal

/-- Every command answers a next state, in every state. -/
theorem exec_completes (i : Instr) (s : State) : ∃ t, exec i s = .next t := by
  have onFilter_completes : ∀ (k : Sel) f, ∃ t, onFilter k f s = .next t := by
    intro k f
    unfold onFilter
    split <;> exact ⟨_, rfl⟩
  have onFan_completes : ∀ (k : Sel) f, ∃ t, onFan k f s = .next t := by
    intro k f
    unfold onFan
    split <;> exact ⟨_, rfl⟩
  cases i with
  | fadd sel => simp only [exec, execFadd]; exact onFilter_completes ..
  | favg sel => simp only [exec, execFavg]; exact onFilter_completes ..
  | fcnt sel => simp only [exec, execFcnt]; exact onFilter_completes ..
  | fclr sel => simp only [exec, execFclr]; exact onFilter_completes ..
  | tpoll sel => simp only [exec, execTpoll]; exact onFan_completes ..
  | trpt sel => simp only [exec, execTrpt]; exact onFan_completes ..
  | ckfs sel => simp only [exec, execCkfs]; exact onFan_completes ..
  | mtr => simp only [exec, execMtr]; split <;> exact ⟨_, rfl⟩
  | mto => simp only [exec, execMto]; split <;> exact ⟨_, rfl⟩
  | tstep => simp only [exec, execTstep]; split <;> exact ⟨_, rfl⟩
  | enc =>
    obtain ⟨m, h1, _⟩ := execEnc_eq s
    exact ⟨_, h1⟩
  | cycle sel => simp only [exec, execCycle]; split <;> exact ⟨_, rfl⟩
  | msp | mls | mlr | mdp | mti | mhu | mpf | mir => exact ⟨_, rfl⟩
  | cklvl | ckcth | ckctl | ckchh | ckrth | ckrtl | ckoth | ckotl | ckdph | ckpmp => exact ⟨_, rfl⟩
  | latch => exact ⟨_, rfl⟩

/-- No effect touches the inputs, the parameters or the environment's list (10_state.md R20, R25). -/
theorem Effect.inputs {c : Bool} {s t : State} (h : Effect s c t) :
    t.inp = s.inp ∧ t.tach = s.tach ∧ t.settings = s.settings ∧ t.cfg = s.cfg ∧ t.env = s.env ∧
      t.din = s.din := by
  cases h <;> simp [State.emitFrame]

/-- The filters' invariants are kept. -/
theorem Effect.filters {c : Bool} {s t : State} (h : Effect s c t) (hi : FiltersInv s.filters) :
    FiltersInv t.filters := by
  cases h with
  | sample k x => exact hi.addSample k x
  | smooth k x r ha => exact hi.addSample k x
  | clear k => exact hi.set k (filterCleared_inv (cap_pos k) (hi k))
  | poll u =>
    unfold State.pollPulse
    dsimp only
    split
    · exact hi.addSample _ _
    · exact hi
  | same | illegal | dout | readings | latch | substitute | thermal | frame | cycle => simpa using hi

/-- The valve rule of the engage path keeps the output table (44_thermal_sm.md R237). -/
theorem openValve_thermal {s : State} (now : Word) (h : ThermalInv s.out) :
    ThermalInv (s.openValve now).out ∧ (s.openValve now).out.valveOut = true := by
  unfold State.openValve
  split
  · exact ⟨h, ‹_›⟩
  · exact ⟨⟨fun _ => rfl, h.2⟩, rfl⟩

/-- The compressor rule keeps the output table once the valve is open. -/
theorem startCompressor_thermal {s : State} (now : Word) (h : ThermalInv s.out)
    (hv : s.out.valveOut = true) : ThermalInv (s.startCompressor now).out := by
  unfold State.startCompressor
  split
  · exact ⟨fun _ => hv, fun _ => rfl, fun hc => (Bool.false_ne_true hc.symm).elim⟩
  · exact h

/-- The disengage rule keeps the output table. -/
theorem shutDown_thermal {s : State} (now : Word) (h : ThermalInv s.out) :
    ThermalInv (s.shutDown now).out := by
  unfold State.shutDown
  split
  · exact ⟨fun hc => (Bool.false_ne_true hc).elim, fun hc => (Bool.false_ne_true hc).elim, fun _ => rfl⟩
  · exact h

/-- One evaluation of the transition rules keeps the output table (44_thermal_sm.md R237). -/
theorem thermalStep_thermal {s : State} (h : ThermalInv s.out) : ThermalInv s.thermalStep.out := by
  have engaged := openValve_thermal s.inp.nowMs h
  unfold State.thermalStep
  dsimp only
  split <;> split
  · exact shutDown_thermal _ (startCompressor_thermal _ engaged.1 engaged.2)
  · exact shutDown_thermal _ h
  · exact startCompressor_thermal _ engaged.1 engaged.2
  · exact h

/-- The transition rules leave `alarm_out` (44_thermal_sm.md R232). -/
@[simp] theorem thermalStep_alarm (s : State) : s.thermalStep.out.alarmOut = s.out.alarmOut := by
  unfold State.thermalStep State.openValve State.startCompressor State.shutDown
  dsimp only
  split <;> split <;> (try split) <;> (try split) <;> (try split) <;> rfl

/-- Every effect keeps the output table. -/
theorem Effect.thermalInv {c : Bool} {s t : State} (h : Effect s c t) (hi : ThermalInv s.out) :
    ThermalInv t.out := by
  cases h with
  | thermal => exact thermalStep_thermal hi
  | same | illegal | sample | dout | clear | poll | readings | smooth | latch | substitute | frame |
    cycle => simpa [ThermalInv] using hi

/-- Every effect keeps `alert` and `alarm_out` equal (10_state.md R32). -/
theorem Effect.latchInv {c : Bool} {s t : State} (h : Effect s c t) (hi : LatchInv s) : LatchInv t := by
  unfold LatchInv at hi ⊢
  cases h with
  | readings r ha => simpa [ha] using hi
  | smooth k x r ha => simpa [ha] using hi
  | cycle r rd ha => simpa [ha] using hi
  | latch | substitute => simp
  | same | illegal | sample | dout | clear | poll | thermal | frame => simpa using hi

/-- Every effect keeps a latched fault latched (60_exceptions.md R310). -/
theorem Effect.keeps_latch {c : Bool} {s t : State} (h : Effect s c t) :
    (s.rd.alert = true → t.rd.alert = true) ∧ (s.out.alarmOut = true → t.out.alarmOut = true) := by
  cases h with
  | readings r ha => simp [ha]
  | smooth k x r ha => simp [ha]
  | cycle r rd ha => simp [ha]
  | same | illegal | sample | dout | clear | poll | latch | substitute | thermal | frame => simp

/-- Every effect keeps `cmd_err` set (30_encoding.md R101). -/
theorem Effect.keeps_cmdErr {c : Bool} {s t : State} (h : Effect s c t) (hs : s.cmdErr = true) :
    t.cmdErr = true := by
  cases h with
  | illegal => rfl
  | same | sample | dout | clear | poll | readings | smooth | latch | substitute | thermal | frame |
    cycle => simpa using hs

/-- Every effect keeps the frame buffer canonical. -/
theorem Effect.memory {c : Bool} {s t : State} (h : Effect s c t) (hi : Memory.wf s.fb = true) :
    Memory.wf t.fb = true := by
  cases h with
  | frame m hm => exact hm hi
  | same | illegal | sample | dout | clear | poll | readings | smooth | latch | substitute | thermal |
    cycle => simpa using hi

/-- From a state whose strobe is down, a raised strobe shows the frame just written
(45_telemetry.md R262). -/
theorem Effect.strobe {c : Bool} {s t : State} (h : Effect s c t) (hs : s.frameStrobe = false) : StrobeInv t := by
  unfold StrobeInv
  cases h with
  | frame m hm => simp [State.emitFrame]
  | same | illegal | sample | dout | clear | poll | readings | smooth | latch | substitute | thermal |
    cycle => simp [hs]

/-- A command but CYCLE leaves the sequencer alone (10_state.md R33, 46_cycle.md R283). -/
theorem Effect.seq {s t : State} (h : Effect s false t) : t.seq = s.seq := by
  cases h <;> simp [State.emitFrame]

/-- Moving the phase on touches the sequencer alone, so it keeps what it does not read. -/
theorem advancePhase_eq (s : State) : ∃ q, s.advancePhase = { s with seq := q } := by
  unfold State.advancePhase
  split <;> exact ⟨_, rfl⟩

end Sys2Proof.Machine
end

