-- ==== Sys2Proof/Laws/PerInstr.lean ====
section
/-!
SUPPORT. Statements about each instruction as syntax, one lemma per constructor.
-/
namespace Sys2Proof.Laws.EncodedFields

/-- The command byte holds the opcode in bits 7:3 and the selector in bits 2:0, dropping no bit of
either (spec/30_encoding.md R90). -/
def Statement (i : Instr) : Prop :=
  opcodeField (encodeByte i) = i.opcode ∧ selectorField (encodeByte i) = i.selector

/-- The field laws of the byte `{op5, sel}`. -/
theorem fields_of_append :
    ∀ (op : BitVec 5) (sel : Sel), opcodeField (op ++ sel) = op ∧ selectorField (op ++ sel) = sel := by
  decide

theorem fadd (sel : Sel) : Statement (.fadd sel) := fields_of_append _ _

theorem favg (sel : Sel) : Statement (.favg sel) := fields_of_append _ _

theorem fcnt (sel : Sel) : Statement (.fcnt sel) := fields_of_append _ _

theorem fclr (sel : Sel) : Statement (.fclr sel) := fields_of_append _ _

theorem tpoll (sel : Sel) : Statement (.tpoll sel) := fields_of_append _ _

theorem trpt (sel : Sel) : Statement (.trpt sel) := fields_of_append _ _

theorem msp : Statement .msp := fields_of_append _ _

theorem mls : Statement .mls := fields_of_append _ _

theorem mlr : Statement .mlr := fields_of_append _ _

theorem mdp : Statement .mdp := fields_of_append _ _

theorem mtr : Statement .mtr := fields_of_append _ _

theorem mto : Statement .mto := fields_of_append _ _

theorem mti : Statement .mti := fields_of_append _ _

theorem mhu : Statement .mhu := fields_of_append _ _

theorem mpf : Statement .mpf := fields_of_append _ _

theorem mir : Statement .mir := fields_of_append _ _

theorem cklvl : Statement .cklvl := fields_of_append _ _

theorem ckcth : Statement .ckcth := fields_of_append _ _

theorem ckctl : Statement .ckctl := fields_of_append _ _

theorem ckchh : Statement .ckchh := fields_of_append _ _

theorem ckrth : Statement .ckrth := fields_of_append _ _

theorem ckrtl : Statement .ckrtl := fields_of_append _ _

theorem ckoth : Statement .ckoth := fields_of_append _ _

theorem ckotl : Statement .ckotl := fields_of_append _ _

theorem ckdph : Statement .ckdph := fields_of_append _ _

theorem ckfs (sel : Sel) : Statement (.ckfs sel) := fields_of_append _ _

theorem ckpmp : Statement .ckpmp := fields_of_append _ _

theorem latch : Statement .latch := fields_of_append _ _

theorem tstep : Statement .tstep := fields_of_append _ _

theorem enc : Statement .enc := fields_of_append _ _

theorem cycle (sel : Sel) : Statement (.cycle sel) := fields_of_append _ _

end Sys2Proof.Laws.EncodedFields
end

