-- ==== Sys2Proof/Laws/Sequencer.lean ====
section
/-!
SUPPORT. The main agent's steps: the ROM as instructions, CYCLE's first step as the sequencer's step of
entry 0, and that running a byte or an entry always completes.
-/
namespace Sys2Proof.Machine

open Sys2Proof.Safety

/-- The instruction of a ROM word, if its byte is legal. -/
def romInstr (w : RomWord) : Option Instr :=
  match decodeByte (romCommand w) with
  | .ok i => some i
  | .error _ => none

/-- The ROM holds 30 words (46_cycle.md R281). -/
theorem scheduleRom_length : scheduleRom.length = 30 := rfl

/-- The ROM holds no illegal byte (30_encoding.md R101). -/
theorem scheduleRom_legal : ∀ w ∈ scheduleRom, (romInstr w).isSome = true := by decide

/-- The ROM holds no CYCLE (30_encoding.md R102). -/
theorem scheduleRom_no_cycle :
    ∀ w ∈ scheduleRom, ∀ r : Fin 8, romInstr w ≠ some (.cycle (BitVec.ofFin r)) := by decide

/-- A byte that decodes runs its instruction. -/
theorem runByte_of_decode {b : Byte} {i : Instr} (s : State) (h : decodeByte b = .ok i) :
    runByte b s = exec i s := by
  simp only [runByte, decode, h]

/-- A byte that does not decode raises IllegalCommand (30_encoding.md R101). -/
theorem runByte_of_error {b : Byte} {e : DecodeError} (s : State) (h : decodeByte b = .error e) :
    runByte b s = .next s.raiseIllegal := by
  simp only [runByte, decode, h]

/-- Running a byte completes, with one of the effects of a command. -/
theorem runByte_effect (b : Byte) (s : State) : ∃ c t, runByte b s = .next t ∧ Effect s c t := by
  rcases hd : decodeByte b with e | i
  · exact ⟨false, _, runByte_of_error s hd, .illegal⟩
  · obtain ⟨t, ht⟩ := exec_completes i s
    exact ⟨_, t, (runByte_of_decode s hd).trans ht, exec_effect ht⟩

/-- Entry 0 of the ROM is MSP without a guard (46_cycle.md R281). -/
theorem scheduleRom_zero : scheduleRom[(0 : BitVec 5).toNat]? = some 0x038 := rfl

/-- CYCLE's own step is the first line of R280 together with the sequencer's step of entry 0. -/
theorem execCycle_is_entry_zero (sel : Sel) (r : Bool) (s : State) (h : reportOfSel sel = some r) :
    exec (.cycle sel) s = runEntry (s.startCycle r) := by
  have hg : entryExecutes (romGuard 0x038) r = true := by cases r <;> rfl
  have hd : decodeByte (romCommand 0x038) = .ok .msp := by decide
  simp only [exec, execCycle, h, runEntry, State.startCycle_seq, scheduleRom_zero, runWord, hg, if_true,
    runByte_of_decode _ hd]

/-- A phase inside the ROM has its word. -/
theorem scheduleRom_get {p : BitVec 5} (h : p.toNat ≤ 29) :
    ∃ w, scheduleRom[p.toNat]? = some w ∧ w ∈ scheduleRom := by
  have hl : p.toNat < scheduleRom.length := by rw [scheduleRom_length]; omega
  exact ⟨scheduleRom[p.toNat], List.getElem?_eq_getElem hl, List.getElem_mem hl⟩

/-- An entry of the ROM completes: the effect of a command other than CYCLE, or none if its guard skips
it, and then `phase` moves on (46_cycle.md R280, R283). -/
theorem runWord_effect {w : RomWord} (hw : w ∈ scheduleRom) (s : State) :
    ∃ t, runWord w s = .next t.advancePhase ∧ Effect s false t := by
  unfold runWord
  split
  · have hl := scheduleRom_legal w hw
    have hn := scheduleRom_no_cycle w hw
    rcases hd : decodeByte (romCommand w) with e | i
    · simp [romInstr, hd] at hl
    · obtain ⟨t, ht⟩ := exec_completes i s
      refine ⟨t, by rw [runByte_of_decode s hd, ht]; rfl, ?_⟩
      cases i with
      | cycle sel => exact absurd (by simp [romInstr, hd]) (hn sel.toFin)
      | _ => exact exec_effect ht
  · exact ⟨s, rfl, .same⟩

/-- The sequencer's step inside a CYCLE completes. -/
theorem runEntry_effect {s : State} (h : s.seq.phase.toNat ≤ 29) :
    ∃ t, runEntry s = .next t.advancePhase ∧ Effect s false t := by
  obtain ⟨w, hw, hm⟩ := scheduleRom_get h
  simp only [runEntry, hw]
  exact runWord_effect hm s

end Sys2Proof.Machine
end

