-- ==== Sys2Proof/Laws/Step.lean ====
section
/-!
SUPPORT. What a step can do, said once, and what the environment's actions and the tach agents change.
-/
namespace Sys2Proof.Machine

open Sys2Proof.Safety

/-- Driving a tach line: its level, the time, and on a falling edge the pulse record of its fan
(60_exceptions.md R305). -/
theorem driveTach_eq (t : Fan) (level : Bool) (us : Word) (s : State) :
    s.driveTach t level us =
      { s with
        inp := { s.inp with nowUs := us }
        tach := s.tach.set t level
        pulses := if s.tach.get t && !level then s.pulses.set t (capturePulse us (s.pulses.get t))
          else s.pulses } := by
  unfold State.driveTach
  dsimp only
  split <;> rfl

/-- `.edge t @ us` is exactly one TEDGE of that fan at that time (30_encoding.md R96). -/
theorem pulseTach_eq (t : Fan) (us : Word) (s : State) :
    s.pulseTach t us =
      { s with
        inp := { s.inp with nowUs := us }
        tach := s.tach.set t false
        pulses := s.pulses.set t (capturePulse us (s.pulses.get t)) } := by
  cases t <;> simp [State.pulseTach, driveTach_eq, TachLines.set, TachLines.get]

/-- Inside a CYCLE the main agent's step is the sequencer's, with the strobe let down. -/
theorem step_inCycle {s : State} {rest : List EnvAction} (hb : s.seq.busy = true)
    (h : MainAgentSteps s rest) : step s = runEntry { s with env := rest, frameStrobe := false } := by
  rcases h with ⟨he, rfl⟩ | ⟨b, d, r, he, rfl⟩ | he <;>
    simp [step, turn, State.lowerStrobe, he, mainTurn, commandTurn, hb]

/-- The shapes of a turn, from a state whose strobe is down, each with the head of the environment's list
that gives it: `e` is what is left of the list. -/
inductive Turn (s : State) : State → Prop where
  | idle (e : List EnvAction) (hb : s.seq.busy = false)
      (he : s.env = [] ∧ e = [] ∨ s.env = .main :: e) : Turn s { s with env := e }
  | entry (e : List EnvAction) (t : State) (hb : s.seq.busy = true) (he : MainAgentSteps s e)
      (ht : runEntry { s with env := e } = .next t) : Turn s t
  | command (b : Byte) (d : Word) (e : List EnvAction) (t : State) (hb : s.seq.busy = false)
      (he : s.env = .command b d :: e) (ht : runByte b { s with env := e, din := d } = .next t) : Turn s t
  | edge (f : Fan) (us : Word) (e : List EnvAction) (he : s.env = .edge f us :: e) :
      Turn s (State.pulseTach f us { s with env := e })
  | tach (f : Fan) (level : Bool) (us : Word) (e : List EnvAction) (he : s.env = .tach f level us :: e) :
      Turn s (State.driveTach f level us { s with env := e })
  | inputs (p : Inputs) (e : List EnvAction) (he : s.env = .inputs p :: e) :
      Turn s { s with env := e, inp := p }
  | settings (r : Settings) (e : List EnvAction) (he : s.env = .settings r :: e) :
      Turn s { s with env := e, settings := r }
  | powerCycle (e : List EnvAction) (he : s.env = .powerCycle :: e) :
      Turn s (State.powerOn { s with env := e })

/-- The main agent's turn. -/
theorem mainTurn_cases {s t : State} {e : List EnvAction} (he : s.env = [] ∧ e = [] ∨ s.env = .main :: e)
    (h : mainTurn { s with env := e } = .next t) : Turn s t := by
  unfold mainTurn at h
  split at h
  · next hb => exact .entry e t hb (he.imp_right .inr) h
  · next hb =>
    cases h
    exact .idle e (by simpa using hb) he

/-- Every step that answers a next state has one of the shapes. -/
theorem step_cases {s t : State} (h : step s = .next t) : Turn s.lowerStrobe t := by
  unfold step turn at h
  split at h
  · next he => exact mainTurn_cases (e := []) (.inl ⟨he, rfl⟩) (he ▸ h)
  · next b d e he =>
    unfold commandTurn at h
    split at h
    · next hb => exact .entry s.lowerStrobe.env t hb (.inr (.inl ⟨b, d, e, he, rfl⟩)) h
    · next hb => exact .command b d e t (by simpa using hb) he h
  · next e he => exact mainTurn_cases (.inr he) h
  · next f us e he => cases h; exact .edge f us e he
  · next f level us e he => cases h; exact .tach f level us e he
  · next p e he => cases h; exact .inputs p e he
  · next r e he => cases h; exact .settings r e he
  · next e he => cases h; exact .powerCycle e he

/-- A run of one step more begins with the step. -/
theorem run_of_step {s t : State} (n : Nat) (h : step s = .next t) : core.run (n + 1) s = core.run n t := by
  have h' : core.step s = .next t := h
  simp only [Host.Core.run, h']

/-- The block's own part of the invariant, which every turn of the main agent keeps. -/
theorem Effect.block {c : Bool} {s t : State} (h : Effect s c t) (hs : s.frameStrobe = false)
    (hi : Inv s) :
    Memory.wf t.fb = true ∧ (∀ i, FilterInv (Config.cap i) (t.filters.get i)) ∧ ThermalInv t.out ∧
      LatchInv t ∧ StrobeInv t :=
  ⟨h.memory hi.memory, h.filters hi.filter, h.thermalInv hi.thermal, h.latchInv hi.latch, h.strobe hs⟩

end Sys2Proof.Machine
end

