-- ==== Sys2Proof/Laws/Thermal.lean ====
section
/-!
SUPPORT. The three rules of TSTEP (spec/44_thermal_sm.md R232), each said once as what it writes.
-/
namespace Sys2Proof.Machine

/-- The valve rule: the valve ends energized, and its timestamp moves only if it was not (R232). -/
theorem openValve_eq (now : Word) (s : State) :
    s.openValve now = { s with
      out := { s.out with valveOut := true }
      lock := { s.lock with
        lastValveToggle := if s.out.valveOut then s.lock.lastValveToggle else now } } := by
  rcases s with ⟨rd, ⟨valve, comp, duty, alarm⟩, lock⟩
  cases valve <;> rfl

/-- Both gates of the compressor rule. -/
def compressorGate (now : Word) (s : State) : Bool :=
  lockoutElapsed now s.lock.lastValveToggle s.settings.valveLockout &&
    lockoutElapsed now s.lock.lastCompressorToggle s.settings.compressorLockout

/-- The compressor rule: compressor, duty and timestamp move together, if the gates let them (R232). -/
theorem startCompressor_eq (now : Word) (s : State) :
    s.startCompressor now = { s with
      out := { s.out with
        compressorOut := s.out.compressorOut || compressorGate now s
        fanPwmOut := if compressorGate now s then Config.fanDutyOn else s.out.fanPwmOut }
      lock := { s.lock with
        lastCompressorToggle :=
          if compressorGate now s then now else s.lock.lastCompressorToggle } } := by
  have h : s.startCompressor now = if compressorGate now s then
      { s with
        out := { s.out with compressorOut := true, fanPwmOut := Config.fanDutyOn }
        lock := { s.lock with lastCompressorToggle := now } }
      else s := rfl
  rw [h]
  cases compressorGate now s <;> simp

/-- The gate of the disengage rule: the compressor timer alone (R232, R234). -/
def shutDownGate (now : Word) (s : State) : Bool :=
  lockoutElapsed now s.lock.lastCompressorToggle s.settings.compressorLockout

/-- The disengage rule: everything off and both timestamps now, if the gate lets it (R232). -/
theorem shutDown_eq (now : Word) (s : State) :
    s.shutDown now = { s with
      out := { s.out with
        compressorOut := s.out.compressorOut && !shutDownGate now s
        valveOut := s.out.valveOut && !shutDownGate now s
        fanPwmOut := if shutDownGate now s then Config.fanDutyOff else s.out.fanPwmOut }
      lock :=
        { lastCompressorToggle := if shutDownGate now s then now else s.lock.lastCompressorToggle
          lastValveToggle := if shutDownGate now s then now else s.lock.lastValveToggle } } := by
  have h : s.shutDown now = if shutDownGate now s then
      { s with
        out := { s.out with compressorOut := false, valveOut := false, fanPwmOut := Config.fanDutyOff }
        lock := { lastCompressorToggle := now, lastValveToggle := now } }
      else s := rfl
  rw [h]
  cases shutDownGate now s <;> simp

/-- The disengage and engage conditions of one step exclude each other when the band is not inverted
(44_thermal_sm.md R239 (b)). -/
theorem fle_false_of_fgt {t hi lo : Word} (hb : fle32 lo hi = true) (h : fgt32 t hi = true) :
    fle32 t lo = false := by
  simp only [fgt32, flt32, fle32, Bool.and_eq_true, Bool.not_eq_true', decide_eq_true_eq] at hb h
  simp only [fle32, Bool.and_eq_false_iff, decide_eq_false_iff_not]
  right
  omega

/-- Above the upper bound of a band that is not inverted only the engage path runs. -/
theorem thermalStep_hot {s : State} {hi lo : Word}
    (h1 : fadd32 s.rd.setpoint s.settings.hysteresis = some hi)
    (h2 : fsub32 s.rd.setpoint s.settings.hysteresis = some lo) (hb : fle32 lo hi = true)
    (h : fgt32 s.rd.resTemp hi = true) :
    s.thermalStep = (s.openValve s.inp.nowMs).startCompressor s.inp.nowMs := by
  simp only [State.thermalStep, h1, h2, fgtResult, fleResult, h, fle_false_of_fgt hb h, if_true]
  simp

/-- At or below the lower bound of a band that is not inverted only the disengage path runs. -/
theorem thermalStep_cold {s : State} {hi lo : Word}
    (h1 : fadd32 s.rd.setpoint s.settings.hysteresis = some hi)
    (h2 : fsub32 s.rd.setpoint s.settings.hysteresis = some lo) (hb : fle32 lo hi = true)
    (h : fle32 s.rd.resTemp lo = true) : s.thermalStep = s.shutDown s.inp.nowMs := by
  have hn : fgt32 s.rd.resTemp hi = false := by
    by_contra hc
    simp [fle_false_of_fgt hb (by simpa using hc)] at h
  simp only [State.thermalStep, h1, h2, fgtResult, fleResult, h, hn, if_true]
  simp

end Sys2Proof.Machine
end

