-- ==== Sys2Proof/Tests/Slice0.lean ====
section
/-!
SUPPORT. The model's own tests. Expected results come from spec/95_test_vectors.md (each theorem names
its vector), from 30_encoding.md R93, or from hand calculation where it says so. The second half holds a
witness for the hypotheses of every statement.
-/
namespace Sys2Proof.Tests

open Sys2Proof Sys2Proof.Machine Sys2Proof.Safety

/-- The next state of an outcome. -/
def nextOf (o : Host.Outcome State Fault Refusal) : Option State :=
  match o with
  | .next s => some s
  | .fault _ => none
  | .refused _ => none

/-- What `view` shows of the state after one command. -/
def shows {α : Type} (i : Instr) (s : State) (view : State → α) : Option α :=
  (nextOf (exec i s)).map view

/-- The reset state with a value on `din`. -/
def withDin (d : Word) : State := { State.reset with din := d }

/-- The reset state with one filter replaced: `n` slots, of which the first hold `xs`. -/
def withFilter (k : FilterId) (xs : List Word) (head count : Nat) (sum : Sum40) (s : State) : State :=
  s.setFilter k { buf := xs ++ List.replicate (Config.cap k - xs.length) 0, head := head, count := count, sum := sum }

/-- What a check shows: `(RD.alert, RD.code, alarm_out)`. -/
def latchView (s : State) : Bool × Half × Bool := (s.rd.alert, s.rd.code, s.out.alarmOut)

/-- The outputs of VALVE_OPEN. -/
def openOutputs : Outputs := { valveOut := true, compressorOut := false, fanPwmOut := 0, alarmOut := false }

/-- The outputs of COOLING. -/
def coolingOutputs : Outputs := { valveOut := true, compressorOut := true, fanPwmOut := 255, alarmOut := false }

/-- What TSTEP writes: the outputs and the two timestamps. -/
def thermalView (s : State) : Outputs × LockoutTimers := (s.out, s.lock)

/-- The timestamps as 95_test_vectors.md writes them, valve first. -/
def stamps (valve compressor : Word) : LockoutTimers :=
  { lastCompressorToggle := compressor, lastValveToggle := valve }

/-! ## Decoding: each command's byte, written out from 30_encoding.md R93 -/

theorem test_decode_fadd : decode [0b00001_011] = .ok (.fadd 3, []) := by decide
theorem test_decode_favg : decode [0b00010_000] = .ok (.favg 0, []) := by decide
theorem test_decode_fcnt : decode [0b00011_100] = .ok (.fcnt 4, []) := by decide
theorem test_decode_fclr : decode [0b00100_011] = .ok (.fclr 3, []) := by decide
theorem test_decode_tpoll : decode [0b00101_001] = .ok (.tpoll 1, []) := by decide
theorem test_decode_trpt : decode [0b00110_000] = .ok (.trpt 0, []) := by decide
theorem test_decode_msp : decode [0b00111_000] = .ok (.msp, []) := by decide
theorem test_decode_mls : decode [0b01000_000] = .ok (.mls, []) := by decide
theorem test_decode_mlr : decode [0b01001_000] = .ok (.mlr, []) := by decide
theorem test_decode_mdp : decode [0b01010_000] = .ok (.mdp, []) := by decide
theorem test_decode_mtr : decode [0b01011_000] = .ok (.mtr, []) := by decide
theorem test_decode_mto : decode [0b01100_000] = .ok (.mto, []) := by decide
theorem test_decode_mti : decode [0b01101_000] = .ok (.mti, []) := by decide
theorem test_decode_mhu : decode [0b01110_000] = .ok (.mhu, []) := by decide
theorem test_decode_mpf : decode [0b01111_000] = .ok (.mpf, []) := by decide
theorem test_decode_mir : decode [0b10000_000] = .ok (.mir, []) := by decide
theorem test_decode_cklvl : decode [0b10001_000] = .ok (.cklvl, []) := by decide
theorem test_decode_ckcth : decode [0b10010_000] = .ok (.ckcth, []) := by decide
theorem test_decode_ckctl : decode [0b10011_000] = .ok (.ckctl, []) := by decide
theorem test_decode_ckchh : decode [0b10100_000] = .ok (.ckchh, []) := by decide
theorem test_decode_ckrth : decode [0b10101_000] = .ok (.ckrth, []) := by decide
theorem test_decode_ckrtl : decode [0b10110_000] = .ok (.ckrtl, []) := by decide
theorem test_decode_ckoth : decode [0b10111_000] = .ok (.ckoth, []) := by decide
theorem test_decode_ckotl : decode [0b11000_000] = .ok (.ckotl, []) := by decide
theorem test_decode_ckdph : decode [0b11001_000] = .ok (.ckdph, []) := by decide
theorem test_decode_ckfs : decode [0b11010_001] = .ok (.ckfs 1, []) := by decide
theorem test_decode_ckpmp : decode [0b11011_000] = .ok (.ckpmp, []) := by decide
theorem test_decode_latch : decode [0b11100_000] = .ok (.latch, []) := by decide
theorem test_decode_tstep : decode [0b11101_000] = .ok (.tstep, []) := by decide
theorem test_decode_enc : decode [0b11110_000] = .ok (.enc, []) := by decide
theorem test_decode_cycle : decode [0b11111_001] = .ok (.cycle 1, []) := by decide

/-- Vector X1: the ten illegal bytes. -/
theorem test_decode_illegal :
    [0x00, 0x07, 0x0D, 0x0F, 0x2A, 0x39, 0xD2, 0xE1, 0xFA, 0xFF].all
      (fun b : Byte => (decode [b]).toOption.isNone) = true := by decide

/-- A byte is taken from the front, and the rest is left (R90). -/
theorem test_decode_rest : decode [0xF9, 0x00, 0x38] = .ok (.cycle 1, [0x00, 0x38]) := by decide

/-- The words the host asks about: `decodeTableWord`. -/
theorem test_decodeTableWord :
    decodeTableWord 8 0x0B = some (.fadd 3) ∧ decodeTableWord 8 0x00 = none ∧ decodeTableWord 16 0x0B = none := by
  decide

/-! ## Well-formedness: each check refuses an ill-formed term (R91) -/

theorem test_wf_formatF :
    Instr.wf (.fadd 5) = false ∧ Instr.wf (.favg 6) = false ∧ Instr.wf (.fcnt 7) = false ∧
      Instr.wf (.fclr 5) = false ∧ Instr.wf (.fclr 4) = true := by decide

theorem test_wf_formatT :
    Instr.wf (.tpoll 2) = false ∧ Instr.wf (.trpt 7) = false ∧ Instr.wf (.ckfs 2) = false ∧
      Instr.wf (.ckfs 1) = true := by decide

theorem test_wf_formatC : Instr.wf (.cycle 2) = false ∧ Instr.wf (.cycle 1) = true := by decide

/-- A parameter set with an equal pair of codes, a zero code, or `TACH_K = 0` is refused (00_scope.md R5). -/
theorem test_wf_config :
    Config.specDefault.wf = true ∧ { Config.specDefault with tachK := 0 }.wf = false ∧
      { Config.specDefault with tachK := 0x7F800000 }.wf = false ∧
      { Config.specDefault with codes := { Config.specDefault.codes with resProbe := 2 } }.wf = false ∧
      { Config.specDefault with codes := { Config.specDefault.codes with resProbe := 0 } }.wf = false := by
  decide

/-- Memory that is out of order, holds a zero byte, or lies outside `FB[0..53]` is refused. -/
theorem test_wf_memory :
    Memory.wf [(0, 1), (53, 2)] = true ∧ Memory.wf [(1, 1), (0, 2)] = false ∧ Memory.wf [(0, 0)] = false ∧
      Memory.wf [(54, 1)] = false := by decide

/-! ## One step of each command -/

/-- Vector F2, its last insertion: the full window of 2..11 gives up 2. -/
theorem test_fadd_evicts :
    shows (.fadd 3) (withFilter .fanTop [11, 2, 3, 4, 5, 6, 7, 8, 9, 10] 1 10 65 (withDin 12)) (·.filters.fanTop) =
      some { buf := [11, 12, 3, 4, 5, 6, 7, 8, 9, 10], head := 2, count := 10, sum := 75 } := by decide

/-- Vector F5b, its second insertion: the sum needs 33 bits. -/
theorem test_fadd_wide_sum :
    shows (.fadd 4) (withFilter .fanBot [0xFFFFFFFF] 1 1 0xFFFFFFFF (withDin 0xFFFFFFFF)) (·.filters.fanBot.sum) =
      some 0x1FFFFFFFE := by decide

/-- Vectors F5 and F5b: 4/3, and a mean that is no binary32 number. -/
theorem test_favg_rounds :
    shows (.favg 4) (withFilter .fanBot [1, 1, 2] 3 3 4 State.reset) (·.dout) = some 0x3FAAAAAB ∧
      shows (.favg 4) (withFilter .fanBot [0xFFFFFFFF, 0xFFFFFFFF] 2 2 0x1FFFFFFFE State.reset) (·.dout) =
        some 0x4F800000 := by decide

/-- Vector F3: no data yet. -/
theorem test_favg_empty : shows (.favg 0) (withDin 7) (·.dout) = some 0x00000000 := by decide

/-- Vector F2. -/
theorem test_fcnt :
    shows (.fcnt 3) (withFilter .fanTop [11, 12, 3, 4, 5, 6, 7, 8, 9, 10] 2 10 75 State.reset) (·.dout) = some 10 := by
  decide

/-- Vector F4; the slots keep their contents (R125). -/
theorem test_fclr :
    shows (.fclr 4) (withFilter .fanBot [5, 5, 5, 5, 5, 5, 5] 7 7 35 State.reset) (·.filters.fanBot) =
      some { buf := [5, 5, 5, 5, 5, 5, 5, 0, 0, 0], head := 0, count := 0, sum := 0 } := by decide

/-- The record of vector T2 after its edges. -/
def pulse500 : PulseCapture :=
  { ready := true, lastPulseTimestamp := 3500, currentPulseTimestamp := 3500, pulseLength := 500 }

/-- Vector T2. -/
theorem test_tpoll_consumes :
    shows (.tpoll 1) (State.reset.setPulse .bottom pulse500)
      (fun s => (s.filters.fanBot.count, s.filters.fanBot.sum, s.pulses.bottom)) =
      some (1, 500, { pulse500 with ready := false }) := by decide

/-- Vector T3: nothing to consume. -/
theorem test_tpoll_idle :
    exec (.tpoll 1) (State.reset.setPulse .bottom { pulse500 with ready := false }) =
      .next (State.reset.setPulse .bottom { pulse500 with ready := false }) := rfl

/-- Vectors T6 and T7: two roundings. -/
theorem test_trpt_rounds :
    shows (.trpt 1) (withFilter .fanBot [16666, 16667] 2 2 33333 State.reset) (·.rd.bottomTach) = some 0x44E10093 ∧
      shows (.trpt 0) (withFilter .fanTop [33333] 1 1 33333 State.reset) (·.rd.topTach) = some 0x44610093 := by
  decide

/-- Vectors T5 and T5b: no data, and a mean of zero. -/
theorem test_trpt_edges :
    shows (.trpt 0) { State.reset with rd := { State.reset.rd with topTach := 0x44BB8000 } } (·.rd.topTach) =
      some 0x00000000 ∧
      shows (.trpt 0) (withFilter .fanTop [0] 1 1 0 State.reset) (·.rd.topTach) = some 0x7F800000 := by decide

/-- The reset state with other inputs. -/
def withInputs (f : Inputs → Inputs) : State := { State.reset with inp := f State.reset.inp }

/-- Vector M1. -/
theorem test_msp :
    shows .msp (withInputs ({ · with setpoint := 0x41A00000 })) (·.rd.setpoint) = some 0x41A00000 := by decide

/-- Vector M2b. -/
theorem test_mls :
    shows .mls (withFilter .levelSense [512] 1 1 512 (withInputs ({ · with levelSenseRaw := 515 })))
      (fun s => (s.rd.levelSense, s.filters.levelSense.sum)) = some (0x44006000, 1027) := by decide

/-- Vector M3. -/
theorem test_mlr :
    shows .mlr (withFilter .levelRef [100, 101] 2 2 201 (withInputs ({ · with levelRefRaw := 102 }))) (·.rd.levelRef) =
      some 0x42CA0000 := by decide

/-- Vectors M4 and M4b: floor, and saturation. -/
theorem test_mdp :
    shows .mdp (withFilter .filterDp [10, 11] 2 2 21 (withInputs ({ · with filterDpRaw := 11 }))) (·.rd.filterDp) =
      some 10 ∧
      shows .mdp (withFilter .filterDp [0xFFFFFFFF] 1 1 0xFFFFFFFF (withInputs ({ · with filterDpRaw := 1 })))
        (·.rd.filterDp) = some 65535 := by decide

/-- Vectors M5 and M5b. -/
theorem test_mtr :
    shows .mtr (withInputs ({ · with resTemp := 0xC2FE0000, resTempOk := false }))
      (fun s => (s.rd.resTemp, latchView s)) = some (0, true, 1, true) ∧
      shows .mtr (withInputs ({ · with resTemp := 0x41BC0000 })) (fun s => (s.rd.resTemp, latchView s)) =
        some (0x41BC0000, false, 0, false) := by decide

/-- Vector M6. -/
theorem test_mto :
    shows .mto (withInputs ({ · with outTemp := 0x41CC0000, outTempOk := false }))
      (fun s => (s.rd.outsideTemp, latchView s)) = some (0, true, 2, true) ∧
      shows .mto (withInputs ({ · with outTemp := 0x41CC0000 })) (fun s => (s.rd.outsideTemp, latchView s)) =
        some (0x41CC0000, false, 0, false) := by decide

/-- Vectors M7 and M8. -/
theorem test_mti_mhu :
    shows .mti (withInputs ({ · with insideTemp := 0x41F00000 })) (·.rd.insideTemp) = some 0x41F00000 ∧
      shows .mhu (withInputs ({ · with humidity := 0x42340000 })) (·.rd.humidity) = some 0x42340000 := by decide

/-- Vector M9: no latch here. -/
theorem test_mpf :
    shows .mpf (withInputs ({ · with pumpRelay := true })) (fun s => (s.rd.pumpRunning, s.rd.flowOk, s.rd.alert)) =
      some (true, false, false) := by decide

/-- Vectors M10 and M10b: elapsed times, one of them across the counter's wrap. -/
theorem test_mir :
    shows .mir
      { withInputs ({ · with nowMs := 100000 }) with
        out := coolingOutputs, lock := { lastCompressorToggle := 70000, lastValveToggle := 40000 } }
      (fun s => (s.rd.fanPwm, s.rd.compRunning, s.rd.valve, s.rd.compressorTime, s.rd.valveTime)) =
      some (255, true, true, 30000, 60000) ∧
      shows .mir
        { withInputs ({ · with nowMs := 0x100 }) with
          lock := { lastCompressorToggle := 0xFFFFFF00, lastValveToggle := 5 } }
        (fun s => (s.rd.compressorTime, s.rd.valveTime)) = some (512, 251) := by decide

/-- The reset state with other Readings and Settings. -/
def checked (f : Readings → Readings) (g : Settings → Settings) : State :=
  { State.reset with rd := f State.reset.rd, settings := g State.reset.settings }

/-- Vectors Q1a, Q1b, Q1e and Q1f. -/
theorem test_cklvl :
    shows .cklvl (checked ({ · with levelSense := 0x44000000 }) ({ · with reservoirVolumeLowLimit := 600 })) latchView =
      some (true, 3, true) ∧
    shows .cklvl (checked ({ · with levelSense := 0x44000000 }) ({ · with reservoirVolumeLowLimit := 512 })) latchView =
      some (false, 0, false) ∧
    shows .cklvl (checked ({ · with levelSense := 0x7FC00000 }) ({ · with reservoirVolumeLowLimit := 600 })) latchView =
      some (false, 0, false) ∧
    shows .cklvl (checked ({ · with levelSense := 0xFF800000 }) id) latchView = some (true, 3, true) := by decide

/-- Vectors Q2a, Q2b and Q2c. -/
theorem test_ckcth :
    shows .ckcth (checked ({ · with insideTemp := 0x424A0000 }) ({ · with caseTemperatureHighLimit := 50 })) latchView =
      some (true, 4, true) ∧
    shows .ckcth (checked ({ · with insideTemp := 0x42480000 }) ({ · with caseTemperatureHighLimit := 50 })) latchView =
      some (false, 0, false) ∧
    shows .ckcth (checked ({ · with insideTemp := 0x7F800000 }) ({ · with caseTemperatureHighLimit := 255 })) latchView =
      some (true, 4, true) := by decide

/-- Vectors Q3a, Q3b, Q3c and Q3d. -/
theorem test_ckctl :
    shows .ckctl (checked ({ · with insideTemp := 0x40900000 }) ({ · with caseTemperatureLowLimit := 5 })) latchView =
      some (true, 5, true) ∧
    shows .ckctl (checked ({ · with insideTemp := 0x40A00000 }) ({ · with caseTemperatureLowLimit := 5 })) latchView =
      some (false, 0, false) ∧
    shows .ckctl (checked ({ · with insideTemp := 0x80000000 }) id) latchView = some (false, 0, false) ∧
    shows .ckctl (checked ({ · with insideTemp := 0xBF000000 }) id) latchView = some (true, 5, true) := by decide

/-- Vectors Q4a and Q4b. -/
theorem test_ckchh :
    shows .ckchh (checked ({ · with humidity := 0x42A20000 }) ({ · with caseHumidityHighLimit := 80 })) latchView =
      some (true, 6, true) ∧
    shows .ckchh (checked ({ · with humidity := 0x42A00000 }) ({ · with caseHumidityHighLimit := 80 })) latchView =
      some (false, 0, false) := by decide

/-- Vectors Q5a and Q5b. -/
theorem test_ckrth :
    shows .ckrth (checked ({ · with resTemp := 0x42100000 }) ({ · with reservoirTempHighLimit := 35 })) latchView =
      some (true, 7, true) ∧
    shows .ckrth (checked ({ · with resTemp := 0x420C0000 }) ({ · with reservoirTempHighLimit := 35 })) latchView =
      some (false, 0, false) := by decide

/-- Vectors Q6a and Q6b: the substituted default. -/
theorem test_ckrtl :
    shows .ckrtl (checked id ({ · with reservoirTempLowLimit := 5 })) latchView = some (true, 8, true) ∧
    shows .ckrtl (checked id id) latchView = some (false, 0, false) := by decide

/-- Vectors Q7a and Q7b. -/
theorem test_ckoth :
    shows .ckoth (checked ({ · with outsideTemp := 0x42240000 }) ({ · with outsideTempHighLimit := 40 })) latchView =
      some (true, 9, true) ∧
    shows .ckoth (checked ({ · with outsideTemp := 0x42200000 }) ({ · with outsideTempHighLimit := 40 })) latchView =
      some (false, 0, false) := by decide

/-- Vectors Q8a, Q8b and Q8c. -/
theorem test_ckotl :
    shows .ckotl (checked ({ · with outsideTemp := 0xC0400000 }) id) latchView = some (true, 10, true) ∧
    shows .ckotl (checked id id) latchView = some (false, 0, false) ∧
    shows .ckotl (checked id ({ · with outsideTempLowLimit := 1 })) latchView = some (true, 10, true) := by decide

/-- Vectors Q9a, Q9b and Q9d. -/
theorem test_ckdph :
    shows .ckdph (checked ({ · with filterDp := 301 }) ({ · with filterHighLimit := 300 })) latchView =
      some (true, 11, true) ∧
    shows .ckdph (checked ({ · with filterDp := 300 }) ({ · with filterHighLimit := 300 })) latchView =
      some (false, 0, false) ∧
    shows .ckdph (checked ({ · with filterDp := 65535 }) ({ · with filterHighLimit := 65534 })) latchView =
      some (true, 11, true) := by decide

/-- Vectors Q10, Q10b, Q10c. -/
theorem test_ckfs_top :
    shows (.ckfs 0) { State.reset with out := { State.reset.out with fanPwmOut := 255 } } latchView =
      some (true, 12, true) ∧
    shows (.ckfs 0) State.reset latchView = some (false, 0, false) ∧
    shows (.ckfs 0)
      (withFilter .fanTop [20000] 1 1 20000 { State.reset with out := { State.reset.out with fanPwmOut := 255 } })
      latchView = some (false, 0, false) := by decide

/-- Vectors Q11 and Q11b. -/
theorem test_ckfs_bottom :
    shows (.ckfs 1) { State.reset with out := { State.reset.out with fanPwmOut := 255 } } latchView =
      some (true, 13, true) ∧
    shows (.ckfs 1)
      (withFilter .fanBot [20000] 1 1 20000 { State.reset with out := { State.reset.out with fanPwmOut := 255 } })
      latchView = some (false, 0, false) := by decide

/-- Vectors Q12a to Q12d. -/
theorem test_ckpmp :
    [(true, false), (true, true), (false, false), (false, true)].map (fun p =>
      shows .ckpmp (checked ({ · with pumpRunning := p.1, flowOk := p.2 }) id) latchView) =
      [some (true, 14, true), some (false, 0, false), some (false, 0, false), some (false, 0, false)] := by decide

/-- Vectors Q13 and Q13b: the upper half is ignored, and code 0 is no clear. -/
theorem test_latch :
    shows .latch (withDin 0xABCD0101) latchView = some (true, 0x0101, true) ∧
      shows .latch ((withDin 0).raiseLatch 0x0101) latchView = some (true, 0, true) := by decide

/-- The set-up of vectors S1 to S5: setpoint 20.0, hysteresis 2.0, lockouts 30000 and 60000. -/
def thermalAt (now temp : Word) (o : Outputs) (valveAt compressorAt : Word) : State :=
  { State.reset with
    rd := { State.reset.rd with setpoint := 0x41A00000, resTemp := temp }
    out := o
    lock := { lastCompressorToggle := compressorAt, lastValveToggle := valveAt }
    inp := { State.reset.inp with nowMs := now }
    settings :=
      { State.reset.settings with hysteresis := 0x40000000, valveLockout := 30000, compressorLockout := 60000 } }

/-- Vector S1, engaging: lines 1, 2 and 3. -/
theorem test_tstep_engages :
    shows .tstep (thermalAt 100000 0x41C80000 State.reset.out 0 0) thermalView = some (openOutputs, stamps 100000 0) ∧
    shows .tstep (thermalAt 129999 0x41C80000 openOutputs 100000 0) thermalView = some (openOutputs, stamps 100000 0) ∧
    shows .tstep (thermalAt 130000 0x41C80000 openOutputs 100000 0) thermalView =
      some (coolingOutputs, stamps 100000 130000) := by decide

/-- Vector S1, disengaging: lines 5 and 6; and vector S7 (a), both paths in one step. -/
theorem test_tstep_disengages :
    shows .tstep (thermalAt 189999 0x41880000 coolingOutputs 100000 130000) thermalView =
      some (coolingOutputs, stamps 100000 130000) ∧
    shows .tstep (thermalAt 190000 0x41880000 coolingOutputs 100000 130000) thermalView =
      some (State.reset.out, stamps 190000 190000) ∧
    shows .tstep
      { thermalAt 5 0x41A00000 State.reset.out 0 0 with
        settings := { State.reset.settings with hysteresis := 0xC0000000 } } thermalView =
      some (State.reset.out, stamps 5 5) := by decide

/-- The Readings of vector E2. -/
def readingsE2 : Readings :=
  { resTemp := 0x41BC0000, setpoint := 0x41A00000, levelSense := 0x44000000, levelRef := 0x42CA0000,
    insideTemp := 0x41F00000, outsideTemp := 0x41CC0000, humidity := 0x42340000, filterDp := 300,
    topTach := 0x44BB8000, bottomTach := 0x44E10093, fanPwm := 255, compRunning := true, valve := true,
    compressorTime := 30000, valveTime := 60000, pumpRunning := true, flowOk := false, alert := true,
    code := 14 }

/-- Vector E2: the frame's bytes. -/
theorem test_enc_frame :
    shows .enc (State.reset.setRd readingsE2) (fun s => (frameBytes s.fb, s.frames.length, s.frameStrobe)) =
      some ([0x00, 0x00, 0xBC, 0x41, 0x00, 0x00, 0xA0, 0x41, 0x00, 0x00, 0x00, 0x44, 0x00, 0x00, 0xCA, 0x42,
        0x00, 0x00, 0xF0, 0x41, 0x00, 0x00, 0xCC, 0x41, 0x00, 0x00, 0x34, 0x42, 0x2C, 0x01] ++
        [0x00, 0x80, 0xBB, 0x44, 0x93, 0x00, 0xE1, 0x44, 0xFF, 0x01, 0x01, 0x30, 0x75, 0x00, 0x00, 0x60,
        0xEA, 0x00, 0x00, 0x01, 0x00, 0x01, 0x0E, 0x00], 1, true) := by decide

/-- Vector E2 (W6): decoding gives the 19 values back. -/
theorem test_enc_roundtrip :
    shows .enc (State.reset.setRd readingsE2) (fun s => decodeFrame s.fb) = some (some readingsE2) := by decide

/-- 46_cycle.md R280: the first step is entry 0, and `phase` moves to 1. -/
theorem test_cycle :
    shows (.cycle 1) (withInputs ({ · with setpoint := 0x41A00000 })) (fun s => (s.rd.setpoint, s.seq)) =
      some (0x41A00000, { phase := 1, busy := true, rpt := true }) := by decide

/-- Vectors F8, T10, M11 and X1: an illegal byte sets `cmd_err` and nothing else. -/
theorem test_illegal_bytes :
    [0x00, 0x07, 0x0D, 0x0F, 0x2A, 0x39, 0xD2, 0xE1, 0xFA, 0xFF].all (fun b : Byte =>
      decide (nextOf (runByte b (withDin 123)) = some { withDin 123 with cmdErr := true })) = true := by decide

/-! ## The events and the environment -/

/-- Vector T1, its second edge. -/
theorem test_tedge :
    (nextOf (step
      { State.reset.setPulse .top
          { ready := true, lastPulseTimestamp := 1000000, currentPulseTimestamp := 1000000, pulseLength := 1000000 } with
        env := [.edge .top 1020000] })).map (·.pulses.top) =
      some { ready := true, lastPulseTimestamp := 1020000, currentPulseTimestamp := 1020000, pulseLength := 20000 } := by
  decide

/-- Vector T4: the counter wrapped once. -/
theorem test_tedge_wrap :
    (nextOf (step
      { State.reset.setPulse .top { PulseCapture.reset with lastPulseTimestamp := 0xFFFFFF00 } with
        env := [.edge .top 0x00000100] })).map (·.pulses.top.pulseLength) = some 0x200 := by decide

/-- A rising edge captures nothing (41_tach.md R140). -/
theorem test_rising_edge :
    (nextOf (step { State.reset with env := [.tach .bottom true 77] })).map
      (fun s => (s.pulses, s.tach.bottom, s.inp.nowUs)) = some (State.reset.pulses, true, 77) := by decide

/-- What the host asks of `withFetchWord`: the next step runs the presented command, as vector Q13 with `din = 0`
shows it. -/
theorem test_withFetchWord :
    (nextOf (step (State.reset.withFetchWord 8 0xE0))).map latchView = some (true, 0, true) := by decide

/-! ## Witnesses: for each statement with hypotheses, a state and operands that meet them -/

/-- The reset state with an environment's list. -/
def withEnv (e : List EnvAction) : State := { State.reset with env := e }

/-- Inside a CYCLE with this report flag, before this phase. -/
def running (phase : BitVec 5) (rpt : Bool) (e : List EnvAction) : State :=
  { withEnv e with seq := { phase := phase, busy := true, rpt := rpt } }

/-- A window of zeros meets its invariants, whatever the slots hold. -/
theorem emptyWindow_inv (cap : Nat) (f : FilterWindow) (hp : 0 < cap) (hl : f.buf.length = cap)
    (hh : f.head = 0) (hc : f.count = 0) (hs : f.sum = 0) : FilterInv cap f where
  length := hl
  count_le := by omega
  head_lt := by omega
  head_eq := by omega
  sum_eq := by simp [heldSamples, hc, hs, hp]

/-- Any state whose block is as after reset but for an idle or running sequencer meets the invariant. -/
theorem resetLike_inv (s : State) (hf : s.filters = State.reset.filters) (ho : s.out = State.reset.out)
    (hr : s.rd.alert = false) (hm : s.fb = []) (hs : s.frameStrobe = false) (hq : SequencerInv s.seq) :
    Inv s where
  memory := by rw [hm]; rfl
  filter := by
    intro i
    rw [hf]
    cases i <;> exact emptyWindow_inv _ _ (by decide) (by decide) rfl rfl rfl
  thermal := by rw [ho]; exact ⟨by decide, by decide, by decide⟩
  sequencer := hq
  latch := by
    unfold LatchInv
    rw [hr, ho]
    rfl
  strobe := by
    intro h
    rw [hs] at h
    cases h

/-- The reset state with a list meets the invariant. -/
theorem withEnv_inv (e : List EnvAction) : Inv (withEnv e) :=
  resetLike_inv _ rfl rfl rfl rfl rfl ⟨fun _ => rfl, fun h => (Bool.false_ne_true h).elim⟩

/-- So does a running one, at every phase from 1 to 29. -/
theorem running_inv (p : BitVec 5) (r : Bool) (e : List EnvAction) (h1 : 1 ≤ p.toNat) (h2 : p.toNat ≤ 29) :
    Inv (running p r e) :=
  resetLike_inv _ rfl rfl rfl rfl rfl ⟨fun h => (Bool.false_ne_true h.symm).elim, fun _ => ⟨h1, h2⟩⟩

theorem witness_DecodeInvertsEncode : Instr.wf (.fadd 4) = true ∧ Instr.wf (.cycle 1) = true := by decide

theorem witness_EncodeInvertsDecode : decode [0x0C, 0x77] = .ok (.fadd 4, [0x77]) := by decide

theorem witness_StepRunsTheDecodedCommand :
    Presents (withEnv [.command 0xE0 5, .main]) 0xE0 5 [.main] ∧ decode [0xE0] = .ok (.latch, []) :=
  ⟨⟨rfl, rfl⟩, by decide⟩

/-- The three ways of the list: nothing in it, a command that waits, the main agent's turn before an edge. -/
theorem witness_MainAgentSteps (p : BitVec 5) (r : Bool) :
    MainAgentSteps (running p r []) [] ∧
      MainAgentSteps (running p r [.command 0x38 0]) [.command 0x38 0] ∧
      MainAgentSteps (running p r [.main, .edge .top 7]) [.edge .top 7] :=
  ⟨.inl ⟨rfl, rfl⟩, .inr (.inl ⟨_, _, _, rfl, rfl⟩), .inr (.inr rfl)⟩

/-- Both clauses: a guarded entry without and with the report flag, at the ends of the schedule; each in
the three ways of `witness_MainAgentSteps`. -/
theorem witness_StepRunsTheScheduleEntry :
    (scheduleTable[(running 11 false []).seq.phase.toNat]? = some (true, .trpt 0) ∧
      (running 11 false []).seq.busy = true ∧ (running 11 false []).seq.rpt = false) ∧
    (scheduleTable[(running 11 true []).seq.phase.toNat]? = some (true, .trpt 0) ∧
      (running 11 true []).seq.rpt = true) ∧
    scheduleTable[(running 1 false []).seq.phase.toNat]? = some (false, .mls) ∧
    scheduleTable[(running 29 false [.command 0x38 0]).seq.phase.toNat]? = some (false, .enc) := by decide

/-- An edge may fall between entry 9, TPOLL 0, and entry 10: the pulse is captured after TPOLL 0 has
looked, and stays for the next cycle (20_memory.md R72, R76; by hand from 41_tach.md R140, R141). -/
theorem test_edge_between_entries :
    (nextOf (core.run 3 (running 9 false [.main, .edge .top 7, .main]))).map
      (fun s => (s.pulses.top.ready, s.seq.phase)) = some (true, 11) := by decide

theorem witness_CommandIsHeldOffWhileBusy :
    (running 1 false [.command 0x38 9]).seq.busy = true ∧
      (running 1 false [.command 0x38 9]).env = .command 0x38 9 :: [] ∧
      (nextOf (step (running 1 false [.command 0x38 9]))).isSome = true := by decide

theorem witness_IllegalCommandSetsCmdErrOnly :
    Presents (withEnv [.command 0x0D 1]) 0x0D 1 [] ∧ (∃ e, decode [0x0D] = .error e) ∧ Instr.wf (.fadd 5) = false :=
  ⟨⟨rfl, rfl⟩, ⟨_, rfl⟩, by decide⟩

/-- Each way an input changes. -/
theorem witness_OnlyTheEnvironmentChangesInputs :
    [withEnv [.settings { Settings.zero with version := 7 }], withEnv [.inputs { Inputs.quiet with nowMs := 5 }],
      withEnv [.edge .top 9], withEnv [.tach .bottom true 9], withEnv [.command 0xE0 5], withEnv []].all
      (fun s => (nextOf (step s)).isSome) = true := by decide

/-- The selectors beyond the legal ones, from the least to the greatest. -/
theorem witness_illegal_selectors :
    4 < (5 : Sel).toNat ∧ 4 < (7 : Sel).toNat ∧ 1 < (2 : Sel).toNat ∧ 1 < (7 : Sel).toNat ∧ (1 : Sel) ≠ 0 := by decide

theorem witness_FcntReadsTheCount : Inv State.reset := withEnv_inv []

theorem witness_WindowHoldsExactlyTheLastSamples :
    0 < 10 ∧ (10 : Nat) ≤ 100 ∧ (FilterWindow.empty 10).buf.length = 10 ∧ (FilterWindow.empty 10).head = 0 ∧
      (FilterWindow.empty 10).count = 0 ∧ (FilterWindow.empty 10).sum = 0 ∧ ([3] : List Word) ≠ [] := by decide

/-- Two states that differ in a dead slot, and a step from the first. -/
theorem witness_DeadSlotsAreNeverObserved :
    Inv (withEnv [.command 0x0B 1]) ∧ Inv (withFilter .fanBot [7, 7] 0 0 0 (withEnv [.command 0x0B 1])) ∧
      SameButDeadSlots (withEnv [.command 0x0B 1]) (withFilter .fanBot [7, 7] 0 0 0 (withEnv [.command 0x0B 1])) ∧
      withEnv [.command 0x0B 1] ≠ withFilter .fanBot [7, 7] 0 0 0 (withEnv [.command 0x0B 1]) ∧
      (nextOf (step (withEnv [.command 0x0B 1]))).isSome = true := by
  refine ⟨withEnv_inv _, ⟨rfl, ?_, ⟨by decide, by decide, by decide⟩, ⟨fun _ => rfl, fun h => (Bool.false_ne_true h).elim⟩, rfl,
    fun h => (Bool.false_ne_true h).elim⟩, ⟨rfl, ?_⟩, by decide, by decide⟩
  · intro i
    cases i <;> exact emptyWindow_inv _ _ (by decide) (by decide) rfl rfl rfl
  · intro i
    cases i <;> exact ⟨rfl, rfl, rfl, rfl⟩

theorem witness_FallingEdgeCapturesAPulse :
    (withEnv [.edge .top 9]).env = .edge .top 9 :: [] ∧
      ({ withEnv [.tach .top false 9] with tach := { top := true, bottom := false } } : State).env =
        .tach .top false 9 :: [] := ⟨rfl, rfl⟩

theorem witness_TpollConsumesACapturedPulse :
    ((State.reset.setPulse .bottom pulse500).pulses.get .bottom).ready = true ∧
      (State.reset.pulses.get .top).ready = false := by decide

/-- All clauses: no sample, and one sample with legal parameters, the product and the quotient. -/
theorem witness_TrptReportsTheFanSpeed :
    State.reset.filters.fanTop.count = 0 ∧
    ((withFilter .fanTop [20000] 1 1 20000 State.reset).filters.fanTop.count ≠ 0 ∧
      (withFilter .fanTop [20000] 1 1 20000 State.reset).cfg.wf = true ∧
      fmul32 (withFilter .fanTop [20000] 1 1 20000 State.reset).cfg.tachK 0x49742400 = some 0x4BE4E1C0 ∧
      fdiv32 0x4BE4E1C0 (rne32 20000 1) = some 0x44BB8000) := by decide

theorem witness_MtrSubstitutesZeroAndLatches :
    State.reset.inp.resTempOk = true ∧ (withInputs ({ · with resTempOk := false })).inp.resTempOk = false := by decide

theorem witness_MtoSubstitutesZeroAndLatches :
    State.reset.inp.outTempOk = true ∧ (withInputs ({ · with outTempOk := false })).inp.outTempOk = false ∧
      State.reset.cfg.wf = true := by decide

/-- The last clause's list as in `witness_MainAgentSteps`. -/
theorem witness_LatchWritesCodeAlertAndAlarmOnly :
    ((nextOf (exec .latch State.reset)).isSome = true ∧ latchedCode .latch State.reset ≠ none) ∧
    ((running 24 false []).seq.busy = true ∧
      scheduleTable[(running 24 false []).seq.phase.toNat]? = some (false, .ckpmp) ∧
      latchedCode .ckpmp ((running 24 false []).setRd { State.reset.rd with pumpRunning := true }) ≠ none ∧
      (nextOf (step ((running 24 false []).setRd { State.reset.rd with pumpRunning := true }))).isSome = true) := by
  decide

/-- A command that latches, a command whose condition does not hold, and one that never latches. -/
theorem witness_LatestLatchOverwrites :
    latchedCode .latch (withDin 0x1234) = some 0x1234 ∧ (nextOf (exec .latch (withDin 0x1234))).isSome = true ∧
      latchedCode .ckpmp State.reset = none ∧ (nextOf (exec .ckpmp State.reset)).isSome = true ∧
      latchedCode .msp State.reset = none := by decide

theorem witness_NothingButResetClearsTheLatch :
    ((State.reset.raiseLatch 5).env.head? ≠ some .powerCycle ∧ (State.reset.raiseLatch 5).rd.alert = true ∧
      (State.reset.raiseLatch 5).out.alarmOut = true ∧ (nextOf (step (State.reset.raiseLatch 5))).isSome = true) ∧
    (withDin 0).din = 0 ∧ (withEnv [.powerCycle]).env = .powerCycle :: [] := by decide

theorem witness_CmdErrIsStickyAndSetByIllegalBytesOnly :
    Inv (withEnv [.command 0x0D 1]) ∧ NoPowerCycle (withEnv [.command 0x0D 1]) ∧
      (nextOf (step (withEnv [.command 0x0D 1]))).isSome = true :=
  ⟨withEnv_inv _, by simp [NoPowerCycle, withEnv], by decide⟩

theorem witness_TstepFollowsTheTransitionRules :
    State.reset.inp.runningState = true ∧ (withInputs ({ · with runningState := false })).inp.runningState = false := by
  decide

/-- Bounds 22.0 and 18.0, a temperature inside, and one on each edge (22.0 inside, 18.0 not). -/
theorem witness_DeadBandWritesNothing :
    fadd32 0x41A00000 0x40000000 = some 0x41B00000 ∧ fsub32 0x41A00000 0x40000000 = some 0x41900000 ∧
      (flt32 0x41900000 0x41B00000 = true ∧ fle32 0x41B00000 0x41B00000 = true) ∧
      flt32 0x41900000 0x41900000 = false ∧ fle32 0x41900000 0x41B00000 = true ∧ f32IsNan 0x41B00000 = false := by
  decide

theorem witness_NanOperandsWriteNothing :
    f32IsNan (checked ({ · with resTemp := 0x7FC00000 }) id).rd.resTemp = true ∧
      f32IsNan (checked ({ · with setpoint := 0x7F800001 }) id).rd.setpoint = true ∧
      f32IsNan (checked id ({ · with hysteresis := 0xFFFFFFFF })).settings.hysteresis = true := by decide

theorem witness_ManualOverrideFreezesTheOutputs :
    (withInputs ({ · with runningState := false })).inp.runningState = false ∧ Instr.mir ≠ Instr.tstep ∧
      (nextOf (exec .mir State.reset)).isSome = true := by decide

/-- The bounds of the table's states: 22.0 and 18.0. -/
def InBand (s : State) : Prop :=
  fadd32 s.rd.setpoint s.settings.hysteresis = some 0x41B00000 ∧
    fsub32 s.rd.setpoint s.settings.hysteresis = some 0x41900000 ∧ fle32 0x41900000 0x41B00000 = true ∧
    s.inp.runningState = true ∧ (nextOf (exec .tstep s)).isSome = true

/-- Above the band by one unit in the last place, on its upper edge, and on its lower bound. -/
theorem witness_TransitionTable_conditions :
    fgt32 0x41B00001 0x41B00000 = true ∧ (flt32 0x41900000 0x41B00000 = true ∧ fle32 0x41B00000 0x41B00000 = true) ∧
      fle32 0x41900000 0x41900000 = true := by decide

/-- The state of row 2, with a valve lockout of 0. -/
def noValveLockout : State :=
  { thermalAt 60000 0x41B00001 State.reset.out 0 0 with
    settings := { (thermalAt 0 0 State.reset.out 0 0).settings with valveLockout := 0 } }

/-- IDLE: rows 1 to 5. Row 1 by each of its two reasons, the lockouts at their limits. -/
theorem witness_TransitionTable_idle :
    (InBand (thermalAt 60000 0x41B00001 State.reset.out 0 0) ∧ (0 : Word) < 30000 ∧ (60000 : Word) ≤ 60000 - 0) ∧
    (InBand (thermalAt 59999 0x41B00001 State.reset.out 0 0) ∧ (59999 : Word) - 0 < 60000) ∧
    (InBand noValveLockout ∧ noValveLockout.settings.valveLockout = 0) ∧
    InBand (thermalAt 60000 0x41B00000 State.reset.out 0 0) ∧
    InBand (thermalAt 60000 0x41900000 State.reset.out 0 0) ∧
    InBand (thermalAt 59999 0x41900000 State.reset.out 0 0) ∧ Idle State.reset.out := by
  unfold InBand Idle
  decide

/-- VALVE_OPEN: rows 6 to 10. -/
theorem witness_TransitionTable_open :
    (InBand (thermalAt 130000 0x41B00001 openOutputs 100000 70000) ∧ (30000 : Word) ≤ 130000 - 100000 ∧
      (60000 : Word) ≤ 130000 - 70000) ∧
    (InBand (thermalAt 129999 0x41B00001 openOutputs 100000 0) ∧ (129999 : Word) - 100000 < 30000) ∧
    (InBand (thermalAt 130000 0x41B00001 openOutputs 0 70001) ∧ (130000 : Word) - 70001 < 60000) ∧
    InBand (thermalAt 130000 0x41B00000 openOutputs 0 0) ∧
    InBand (thermalAt 130000 0x41900000 openOutputs 0 70000) ∧
    InBand (thermalAt 130000 0x41900000 openOutputs 0 70001) ∧ ValveOpen openOutputs := by
  unfold InBand ValveOpen
  decide

/-- COOLING: rows 11 to 15. -/
theorem witness_TransitionTable_cooling :
    InBand (thermalAt 130000 0x41B00001 coolingOutputs 100000 70000) ∧
    InBand (thermalAt 129999 0x41B00001 coolingOutputs 100000 0) ∧
    InBand (thermalAt 130000 0x41B00001 coolingOutputs 0 70001) ∧
    InBand (thermalAt 130000 0x41B00000 coolingOutputs 0 0) ∧
    InBand (thermalAt 130000 0x41900000 coolingOutputs 0 70000) ∧
    InBand (thermalAt 130000 0x41900000 coolingOutputs 0 70001) ∧ Cooling coolingOutputs := by
  unfold InBand Cooling
  decide

theorem witness_EncWritesTheWholeFrame :
    Memory.wf (State.reset.setRd readingsE2).fb = true ∧
      (nextOf (exec .enc (State.reset.setRd readingsE2))).isSome = true := by decide

theorem witness_CycleEqualsItsEntries :
    Presents (withEnv [.command 0xF9 0]) 0xF9 0 [] ∧
      Presents (withEnv [.command 0xF8 0, .command 0x38 0]) 0xF8 0 [.command 0x38 0] := ⟨⟨rfl, rfl⟩, ⟨rfl, rfl⟩⟩

/-- The first and the last phase of a running cycle, with an empty list, with edges and a waiting command,
and with a power cycle. -/
theorem witness_CycleAlwaysEnds :
    (Inv (running 1 true []) ∧ (running 1 true []).seq.busy = true ∧ (running 1 true []).env = []) ∧
      (Inv (running 29 false [.edge .top 7, .command 0x38 0]) ∧
        EnvAction.powerCycle ∉ (running 29 false [.edge .top 7, .command 0x38 0]).env) ∧
      Inv (running 1 false [.powerCycle]) :=
  ⟨⟨running_inv _ _ _ (by decide) (by decide), rfl, rfl⟩,
    ⟨running_inv _ _ _ (by decide) (by decide), by decide⟩, running_inv _ _ _ (by decide) (by decide)⟩

/-- The frames of commands: a command that completes and is none of the excepted ones. -/
theorem witness_frames :
    (nextOf (exec .mpf State.reset)).isSome = true ∧ latchedCode .mpf State.reset = none ∧
      Instr.wf .mpf = true ∧ Instr.mpf ≠ .mir ∧ Instr.mpf ≠ .tstep ∧ Instr.mpf ≠ .enc ∧
      Instr.mpf ≠ .fadd (filterNumber .fanTop) ∧ Instr.mpf ≠ .tpoll (fanNumber .top) := by decide

theorem witness_RneIsNearestEven : 0 < 3 := by decide

/-- `RoundsTo` at a tie, 2^24 + 1, and on both sides of the overflow threshold. -/
theorem witness_RneIsNearestEven_corners :
    rne32 16777217 1 = 0x4B800000 ∧ rne32 16777219 1 = 0x4B800002 ∧
      rne32 (2 ^ 128 - 2 ^ 103) 1 = 0x7F800000 ∧ rne32 (2 ^ 128 - 2 ^ 103 - 1) 1 = 0x7F7FFFFF ∧
      rne32 1 (2 ^ 150) = 0x00000000 ∧ rne32 3 (2 ^ 150) = 0x00000002 := by decide

/-- Finite operands: ordinary ones, and an exact zero sum with each sign. -/
theorem witness_ArithmeticRoundsTheExactResult :
    F32Finite 0x41A0CCCD ∧ F32Finite 0x7F7FFFFF ∧ F32Finite 0x00000001 ∧ f32Value 0x3F800000 ≠ 0 ∧
      f32Value 0x80000000 + f32Value 0x80000000 = 0 ∧ f32Value 0x3F800000 + f32Value 0xBF800000 = 0 := by
  have h1 : f32Scaled 0x3F800000 = 2 ^ 149 := by decide
  have h2 : f32Scaled 0xBF800000 = -2 ^ 149 := by decide
  have h3 : f32Scaled 0x80000000 = 0 := by decide
  unfold F32Finite
  simp only [f32Value_eq_div, h1, h2, h3]
  refine ⟨by decide, by decide, by decide, ?_, ?_, ?_⟩ <;> norm_num

theorem witness_ComparisonsAndSpecialCases :
    f32IsNan 0x7F800001 = true ∧ f32IsNan 0xFFC00000 = true ∧ F32Finite 0x80000000 ∧ 0 < f32Value 0x00000001 ∧
      f32Value 0xFF7FFFFF < 0 ∧ f32Value 0x80000000 = 0 := by
  have h1 : f32Scaled 0x00000001 = 1 := by decide
  have h2 : f32Scaled 0xFF7FFFFF < 0 := by decide
  have h3 : f32Scaled 0x80000000 = 0 := by decide
  have h4 : (f32Scaled 0xFF7FFFFF : ℚ) < 0 := by exact_mod_cast h2
  unfold F32Finite
  simp only [f32Value_eq_div, h1, h3]
  refine ⟨by decide, by decide, by decide, by norm_num, div_neg_of_neg_of_pos h4 (by norm_num), by norm_num⟩

theorem witness_PowerCycleRestoresTheResetState : (withEnv [.powerCycle, .main]).env = .powerCycle :: [.main] := rfl

theorem witness_StepKeepsTheInvariant :
    Inv (running 27 true [.main]) ∧ (nextOf (step (running 27 true [.main]))).isSome = true :=
  ⟨running_inv _ _ _ (by decide) (by decide), by decide⟩

theorem witness_NothingStopsTheBlock : Inv (running 13 false [.edge .bottom 4]) :=
  running_inv _ _ _ (by decide) (by decide)

/-- Both kinds of change, each before a command on an idle port. -/
theorem witness_InputChangesAreSeenByTheNextCommand :
    (withEnv [.inputs { Inputs.quiet with setpoint := 5 }, .command 0x38 0]).env =
        .inputs { Inputs.quiet with setpoint := 5 } :: [.command 0x38 0] ∧
      (withEnv [.settings { Settings.zero with version := 7 }, .command 0x88 0]).env =
        .settings { Settings.zero with version := 7 } :: [.command 0x88 0] ∧
      (withEnv []).seq.busy = false ∧ decode [0x38] = .ok (.msp, []) ∧ decode [0x88] = .ok (.cklvl, []) := by decide

theorem witness_NothingHappensWithoutACommand :
    (withEnv [.main]).seq.busy = false ∧ (withEnv [.main]).env = .main :: [] ∧ State.reset.env = [] :=
  ⟨rfl, rfl, rfl⟩

end Sys2Proof.Tests
end

section
/-!
SUPPORT. The bytes of the selector formats, read through the two fields of a command byte, and the
operand of a format F command: the filter it names, or `IllegalCommand` (spec/40_filter.md, R91, R101).
-/
namespace Sys2Proof.Machine

open Sys2Proof.Safety

/-! ### Command bytes -/

/-- The byte `base | sel` of an encoding entry is `{op5, sel}` (30_encoding.md R90). -/
theorem formByte_eq_append : ∀ (op : BitVec 5) (sel : Sel), formByte (op ++ (0 : Sel)) sel = op ++ sel := by
  decide

theorem decodeByte_formByte (op : BitVec 5) (sel : Sel) :
    decodeByte (formByte (op ++ (0 : Sel)) sel) = decodeFields op sel := by
  obtain ⟨hop, hsel⟩ := Laws.EncodedFields.fields_of_append op sel
  rw [formByte_eq_append, decodeByte, hop, hsel]

theorem encodes_of_decodeByte {b : Byte} {i : Instr} (h : decodeByte b = .ok i) : Encodes b i := by
  simp only [Encodes, decode, h]

theorem rejected_of_decodeByte {b : Byte} {e : DecodeError} (h : decodeByte b = .error e) : Rejected b :=
  ⟨⟨e, by simp only [decode, h]⟩, fun s => runByte_of_error s h⟩

/-! ### Format F -/

theorem formatF_filterNumber (op : BitVec 5) (k : FilterId) (mk : Sel → Instr) :
    formatF op (filterNumber k) mk = .ok (mk (filterNumber k)) := by
  cases k <;> rfl

theorem formatF_illegal (op : BitVec 5) {sel : Sel} (h : 4 < sel.toNat) (mk : Sel → Instr) :
    formatF op sel mk = .error (.illegalSelector op sel) :=
  if_neg (by simpa [legalFilterSel] using h)

@[simp] theorem filterOfSel_filterNumber (k : FilterId) : filterOfSel (filterNumber k) = some k := by
  cases k <;> rfl

theorem filterOfSel_illegal : ∀ sel : Sel, 4 < sel.toNat → filterOfSel sel = none := by decide

/-- A filter command with a legal selector does its operation on that filter. -/
theorem onFilter_filterNumber (k : FilterId) (f : FilterId → State → State) (s : State) :
    onFilter (filterNumber k) f s = .next (f k s) := by
  simp only [onFilter, filterOfSel_filterNumber]

/-- A filter command with a greater selector is an illegal command (40_filter.md R122 to R125). -/
theorem onFilter_illegal {sel : Sel} (h : 4 < sel.toNat) (f : FilterId → State → State) (s : State) :
    onFilter sel f s = .next { s with cmdErr := true } := by
  simp only [onFilter, filterOfSel_illegal sel h]
  rfl

/-! ### FCNT -/

theorem decodeByte_fcnt (sel : Sel) : decodeByte (formByte 0x18 sel) = formatF 3 sel .fcnt :=
  decodeByte_formByte 3 sel

theorem exec_fcnt (k : FilterId) (s : State) :
    exec (.fcnt (filterNumber k)) s = .next { s with dout := BitVec.ofNat 32 (s.filters.get k).count } :=
  onFilter_filterNumber k (fun k s => s.setDout (BitVec.ofNat 32 (s.filters.get k).count)) s

/-- The count of a window fits in a word, so that no bit of it is lost on `dout`. -/
theorem toNat_ofNat_count {cap : Nat} {f : FilterWindow} (h : FilterInv cap f) (hc : cap ≤ 100) :
    (BitVec.ofNat 32 f.count).toNat = f.count := by
  have hcount := h.count_le
  rw [BitVec.toNat_ofNat]
  exact Nat.mod_eq_of_lt (by omega)

/-- Settles O12: the selector's cases give the encoding and the command, and the window's invariant bounds
its count by the capacity, far below 2^32. -/
theorem fcntReadsTheCount : Obligations.FcntReadsTheCount := by
  refine ⟨fun k s => ⟨?_, exec_fcnt k s, fun hinv => ?_⟩, fun sel s hsel => ⟨?_, ?_⟩⟩
  · exact encodes_of_decodeByte ((decodeByte_fcnt _).trans (formatF_filterNumber 3 k .fcnt))
  · have hcount := toNat_ofNat_count (hinv.filter k) (cap_le k)
    exact ⟨_, exec_fcnt k s, hcount, hcount.trans_le (hinv.filter k).count_le⟩
  · exact rejected_of_decodeByte ((decodeByte_fcnt sel).trans (formatF_illegal 3 hsel .fcnt))
  · exact onFilter_illegal hsel _ s

end Sys2Proof.Machine
end

section
/-!
SUPPORT. The operand of a format T command: the fan it names, or `IllegalCommand` (spec/41_tach.md,
R91, R101); and what TPOLL does with a fan's pulse record (R141).
-/
namespace Sys2Proof.Machine

open Sys2Proof.Safety

/-! ### Format T -/

theorem formatT_fanNumber (op : BitVec 5) (f : Fan) (mk : Sel → Instr) :
    formatT op (fanNumber f) mk = .ok (mk (fanNumber f)) := by
  cases f <;> rfl

theorem formatT_illegal (op : BitVec 5) {sel : Sel} (h : 1 < sel.toNat) (mk : Sel → Instr) :
    formatT op sel mk = .error (.illegalSelector op sel) :=
  if_neg (by simpa [legalFanSel] using h)

@[simp] theorem fanOfSel_fanNumber (f : Fan) : fanOfSel (fanNumber f) = some f := by
  cases f <;> rfl

theorem fanOfSel_illegal : ∀ sel : Sel, 1 < sel.toNat → fanOfSel sel = none := by decide

/-- A fan command with a legal selector does its operation on that fan. -/
theorem onFan_fanNumber (f : Fan) (op : Fan → State → State) (s : State) :
    onFan (fanNumber f) op s = .next (op f s) := by
  simp only [onFan, fanOfSel_fanNumber]

/-- A fan command with a greater selector is an illegal command (41_tach.md R141, R142). -/
theorem onFan_illegal {sel : Sel} (h : 1 < sel.toNat) (op : Fan → State → State) (s : State) :
    onFan sel op s = .next { s with cmdErr := true } := by
  simp only [onFan, fanOfSel_illegal sel h]
  rfl

/-! ### TPOLL -/

theorem State.pollPulse_of_ready {s : State} {f : Fan} (h : (s.pulses.get f).ready = true) :
    s.pollPulse f = (s.addSample (fanFilter f) (s.pulses.get f).pulseLength).setPulse f
      { s.pulses.get f with ready := false } :=
  if_pos h

theorem State.pollPulse_of_not_ready {s : State} {f : Fan} (h : (s.pulses.get f).ready = false) :
    s.pollPulse f = s :=
  if_neg (by simp [h])

theorem decodeByte_tpoll (sel : Sel) : decodeByte (formByte 0x28 sel) = formatT 5 sel .tpoll :=
  decodeByte_formByte 5 sel

theorem exec_tpoll (f : Fan) (s : State) : exec (.tpoll (fanNumber f)) s = .next (s.pollPulse f) :=
  onFan_fanNumber f State.pollPulse s

/-- Settles O18: a legal selector names its fan, whose record `ready` says whether to consume; each fan
has its own filter, so the filter named in the statement is found by cases on the fan. -/
theorem tpollConsumesACapturedPulse : Obligations.TpollConsumesACapturedPulse := by
  refine ⟨fun f s => ⟨?_, fun hready => ?_, fun hready => ?_⟩, fun sel s hsel => ⟨?_, ?_⟩⟩
  · exact encodes_of_decodeByte ((decodeByte_tpoll _).trans (formatT_fanNumber 5 f .tpoll))
  · rw [exec_tpoll, State.pollPulse_of_ready hready]
    cases f <;> rfl
  · rw [exec_tpoll, State.pollPulse_of_not_ready hready]
  · exact rejected_of_decodeByte ((decodeByte_tpoll sel).trans (formatT_illegal 5 hsel .tpoll))
  · exact onFan_illegal hsel _ s

end Sys2Proof.Machine
end

section
/-!
SUPPORT. The commands without an operand (format N): one opcode has one legal byte, the one of selector 0
(spec/30_encoding.md R91, R101); and MTO and MPF, which copy their inputs into Readings
(spec/42_measure.md R165, R168).
-/
namespace Sys2Proof.Machine

open Sys2Proof.Safety

/-! ### Format N -/

theorem formatN_zero (op : BitVec 5) (i : Instr) : formatN op 0 i = .ok i := if_pos rfl

theorem formatN_illegal (op : BitVec 5) {sel : Sel} (h : sel ≠ 0) (i : Instr) :
    formatN op sel i = .error (.illegalSelector op sel) :=
  if_neg h

theorem formByte_zero (base : Byte) : formByte base 0 = base := BitVec.or_zero

/-- The encoding entry of a command without operand: its base byte is the command, and the opcode's other
seven bytes are illegal (30_encoding.md R91, R101). -/
theorem encoding_of_formatN {base : Byte} {op : BitVec 5} {i : Instr}
    (h : ∀ sel : Sel, decodeByte (formByte base sel) = formatN op sel i) :
    Encodes base i ∧ ∀ sel : Sel, sel ≠ 0 → Rejected (formByte base sel) := by
  constructor
  · have hbase := h 0
    rw [formByte_zero, formatN_zero] at hbase
    exact encodes_of_decodeByte hbase
  · intro sel hsel
    exact rejected_of_decodeByte ((h sel).trans (formatN_illegal op hsel i))

/-! ### MTO -/

theorem decodeByte_mto (sel : Sel) : decodeByte (formByte 0x60 sel) = formatN 12 sel .mto :=
  decodeByte_formByte 12 sel

theorem exec_mto_of_ok {s : State} (h : s.inp.outTempOk = true) :
    exec .mto s = .next (s.setRd { s.rd with outsideTemp := s.inp.outTemp }) :=
  if_pos h

theorem exec_mto_of_not_ok {s : State} (h : s.inp.outTempOk = false) :
    exec .mto s =
      .next ((s.setRd { s.rd with outsideTemp := f32Zero }).raiseLatch s.cfg.codes.outProbe) :=
  if_neg (by simp [h])

/-- Legal parameters have pairwise distinct fault codes (60_exceptions.md R301). -/
theorem codes_nodup_of_wf {c : Config} (h : c.wf = true) : c.codes.toList.Nodup := by
  simp only [Config.wf, Bool.and_eq_true, decide_eq_true_eq] at h
  obtain ⟨-, hnodup⟩ := h
  exact hnodup

/-- The codes of the two probes stand first in the table of R301. -/
theorem resProbe_ne_outProbe {c : FaultCodes} (h : c.toList.Nodup) : c.resProbe ≠ c.outProbe :=
  List.ne_of_not_mem_cons h.notMem

/-- Settles O23: the `ok` bit selects one of MTO's two writes, and legal parameters keep the probes' codes
apart. -/
theorem mtoSubstitutesZeroAndLatches : Obligations.MtoSubstitutesZeroAndLatches := by
  obtain ⟨hencodes, hrejected⟩ := encoding_of_formatN decodeByte_mto
  exact ⟨fun s => ⟨hencodes, exec_mto_of_ok, exec_mto_of_not_ok,
    fun hwf => (resProbe_ne_outProbe (codes_nodup_of_wf hwf)).symm⟩, hrejected⟩

/-! ### MPF -/

theorem decodeByte_mpf (sel : Sel) : decodeByte (formByte 0x78 sel) = formatN 15 sel .mpf :=
  decodeByte_formByte 15 sel

theorem exec_mpf (s : State) :
    exec .mpf s =
      .next (s.setRd { s.rd with pumpRunning := s.inp.pumpRelay, flowOk := s.inp.flowSwitch }) :=
  rfl

/-- Settles O24: MPF is one write of Readings, on every state. -/
theorem mpfCopiesPumpAndFlow : Obligations.MpfCopiesPumpAndFlow := by
  obtain ⟨hencodes, hrejected⟩ := encoding_of_formatN decodeByte_mpf
  exact ⟨fun s => ⟨hencodes, exec_mpf s⟩, hrejected⟩

end Sys2Proof.Machine
end

section
/-!
SUPPORT. The sign of an integer that rounding to binary32 keeps: what a converted limit compares to `0.0`
(spec/00_scope.md R9); and the seven checks of a binary32 reading against a `u8` limit
(spec/43_fault_monitor.md R192 to R198).
-/
namespace Sys2Proof.Machine

open Sys2Proof.Safety

/-! ### An integer against zero -/

/-- No pattern up to infinity's is a NaN. -/
theorem f32IsNan_withSign (neg : Bool) {p : Nat} (hp : p ≤ f32InfMagnitude) :
    f32IsNan (withSign neg p) = false := by
  unfold f32InfMagnitude at hp
  rw [f32IsNan, f32Exponent_eq, f32Fraction_eq, withSign_toNat neg (by omega)]
  cases neg <;> simp <;> omega

theorem patternMagnitude_pos {p : Nat} : 0 < patternMagnitude p ↔ p ≠ 0 := by
  constructor
  · rintro h rfl
    exact absurd h (by decide)
  · intro h
    exact (Nat.zero_le _).trans_lt (patternMagnitude_lt (Nat.pos_of_ne_zero h))

/-- Only zero rounds to zero: half of the least subnormal is far below 1. -/
theorem roundMagnitude_one_eq_zero {n : Nat} : roundMagnitude n 1 = 0 ↔ n = 0 := by
  constructor
  · intro hp
    have hnear := roundMagnitude_nearest n one_pos
    rw [hp] at hnear
    obtain ⟨hle, -⟩ := hnear.below (by decide)
    rw [patternMagnitude_subnormal (by norm_num), patternMagnitude_subnormal (by norm_num)] at hle
    by_contra hn
    have hone : (1 : ℚ) ≤ n := by exact_mod_cast Nat.pos_of_ne_zero hn
    norm_num at hle
    linarith
  · rintro rfl
    rfl

/-- `0.0` is below exactly the positive patterns other than its own, infinity's among them. -/
theorem flt32_zero_withSign {p : Nat} (hp : p ≤ f32InfMagnitude) :
    flt32 0x00000000 (withSign false p) = true ↔ p ≠ 0 := by
  have hnan : f32IsNan 0x00000000 = false := rfl
  have hzero : f32Scaled 0x00000000 = 0 := rfl
  have hp31 : p < 2 ^ 31 := hp.trans_lt (by decide)
  have hscaled : f32Scaled (withSign false p) = patternMagnitude p := f32Scaled_withSign false hp31
  rw [flt32, hnan, f32IsNan_withSign false hp, hzero, hscaled, ← patternMagnitude_pos]
  simp

/-- `0.0` is below exactly the rounded integers other than 0. -/
theorem flt32_zero_rne32 (n : Nat) : flt32 0x00000000 (rne32 n 1) = true ↔ n ≠ 0 :=
  (flt32_zero_withSign (roundMagnitude_nearest n one_pos).le_inf).trans
    roundMagnitude_one_eq_zero.not

theorem flt32_zero_f32OfU8 (limit : Byte) : flt32 0x00000000 (f32OfU8 limit) = true ↔ limit ≠ 0 :=
  (flt32_zero_rne32 limit.toNat).trans (BitVec.toNat_ne_iff_ne (y := 0#8))

/-! ### Checks against a limit -/

/-- A check takes `raise Latch(code)` when its condition holds (43_fault_monitor.md R190). -/
theorem State.latchIf_eq (s : State) (c : Bool) (code : Half) :
    s.latchIf c code = if c then latched code s else s :=
  rfl

/-- Settles O26: each check is `latchIf` on its own reading, limit and code, under an opcode without
operand. -/
theorem highChecksLatchAboveTheLimit : Obligations.HighChecksLatchAboveTheLimit := by
  obtain ⟨hckcth, rckcth⟩ :=
    encoding_of_formatN (base := 0x90) (i := .ckcth) (decodeByte_formByte 18)
  obtain ⟨hckchh, rckchh⟩ :=
    encoding_of_formatN (base := 0xA0) (i := .ckchh) (decodeByte_formByte 20)
  obtain ⟨hckrth, rckrth⟩ :=
    encoding_of_formatN (base := 0xA8) (i := .ckrth) (decodeByte_formByte 21)
  obtain ⟨hckoth, rckoth⟩ :=
    encoding_of_formatN (base := 0xB8) (i := .ckoth) (decodeByte_formByte 23)
  refine ⟨fun s => ⟨⟨hckcth, ?_⟩, ⟨hckchh, ?_⟩, ⟨hckrth, ?_⟩, ⟨hckoth, ?_⟩⟩, fun sel hsel =>
    ⟨rckcth sel hsel, rckchh sel hsel, rckrth sel hsel, rckoth sel hsel⟩⟩
  all_goals exact congrArg Host.Outcome.next (State.latchIf_eq s _ _)

/-- Settles O27: as for the high checks; a limit other than 0 rounds to a number above `0.0`. -/
theorem lowChecksLatchBelowTheLimit : Obligations.LowChecksLatchBelowTheLimit := by
  obtain ⟨hckctl, rckctl⟩ :=
    encoding_of_formatN (base := 0x98) (i := .ckctl) (decodeByte_formByte 19)
  obtain ⟨hckrtl, rckrtl⟩ :=
    encoding_of_formatN (base := 0xB0) (i := .ckrtl) (decodeByte_formByte 22)
  obtain ⟨hckotl, rckotl⟩ :=
    encoding_of_formatN (base := 0xC0) (i := .ckotl) (decodeByte_formByte 24)
  refine ⟨fun s => ⟨⟨hckctl, ?_⟩, ⟨hckrtl, ?_⟩, ⟨hckotl, ?_⟩⟩, flt32_zero_f32OfU8, fun sel hsel =>
    ⟨rckctl sel hsel, rckrtl sel hsel, rckotl sel hsel⟩⟩
  all_goals exact congrArg Host.Outcome.next (State.latchIf_eq s _ _)

end Sys2Proof.Machine
end

section
/-!
SUPPORT. TSTEP as two gated rules (spec/44_thermal_sm.md R232), its dead band (R235), and the one command
that reads `IN.running_state` (R236).
-/
namespace Sys2Proof.Machine

open Sys2Proof.Safety

/-! ### The two rules, each behind its comparison -/

/-- The engage rule, run when its comparison says so (R232). -/
def State.engageIf (above : Bool) (now : Word) (s : State) : State :=
  if above then (s.openValve now).startCompressor now else s

/-- The disengage rule, run when its comparison says so (R232). -/
def State.disengageIf (below : Bool) (now : Word) (s : State) : State :=
  if below then s.shutDown now else s

/-- `T > hi` in TSTEP, false when an operand is a NaN (R232, R239). -/
def aboveBand (s : State) : Bool :=
  fgtResult s.rd.resTemp (fadd32 s.rd.setpoint s.settings.hysteresis)

/-- `T <= lo` in TSTEP, false when an operand is a NaN (R232, R239). -/
def belowBand (s : State) : Bool :=
  fleResult s.rd.resTemp (fsub32 s.rd.setpoint s.settings.hysteresis)

/-- Both comparisons are taken on the state TSTEP began with, both rules with the same `now`. -/
theorem thermalStep_eq (s : State) :
    s.thermalStep = (s.engageIf (aboveBand s) s.inp.nowMs).disengageIf (belowBand s) s.inp.nowMs :=
  rfl

/-- The valve's timestamp as the compressor rule reads it: the valve rule has run (R232, R233). -/
def engageValveStamp (above : Bool) (now : Word) (s : State) : Word :=
  if above && !s.out.valveOut then now else s.lock.lastValveToggle

/-- Whether the engage rule starts the compressor. -/
def engageStarts (above : Bool) (now : Word) (s : State) : Bool :=
  above && lockoutElapsed now (engageValveStamp above now s) s.settings.valveLockout &&
    lockoutElapsed now s.lock.lastCompressorToggle s.settings.compressorLockout

theorem engageIf_eq (above : Bool) (now : Word) (s : State) :
    s.engageIf above now = { s with
      out := { s.out with
        valveOut := s.out.valveOut || (above && !s.out.valveOut)
        compressorOut := s.out.compressorOut || engageStarts above now s
        fanPwmOut := if engageStarts above now s then Config.fanDutyOn else s.out.fanPwmOut }
      lock :=
        { lastCompressorToggle :=
            if engageStarts above now s then now else s.lock.lastCompressorToggle
          lastValveToggle := engageValveStamp above now s } } := by
  cases above with
  | false => simp [State.engageIf, engageStarts, engageValveStamp]
  | true =>
    rw [State.engageIf, if_pos rfl, startCompressor_eq, openValve_eq]
    cases hv : s.out.valveOut <;> simp [compressorGate, engageStarts, engageValveStamp, hv]

theorem disengageIf_eq (below : Bool) (now : Word) (s : State) :
    s.disengageIf below now = { s with
      out := { s.out with
        valveOut := s.out.valveOut && !(below && shutDownGate now s)
        compressorOut := s.out.compressorOut && !(below && shutDownGate now s)
        fanPwmOut := if below && shutDownGate now s then Config.fanDutyOff else s.out.fanPwmOut }
      lock :=
        { lastCompressorToggle :=
            if below && shutDownGate now s then now else s.lock.lastCompressorToggle
          lastValveToggle := if below && shutDownGate now s then now else s.lock.lastValveToggle } } := by
  cases below with
  | false => simp [State.disengageIf]
  | true => simp [State.disengageIf, shutDown_eq]

theorem decodeByte_tstep (sel : Sel) : decodeByte (formByte 0xE8 sel) = formatN 29 sel .tstep :=
  decodeByte_formByte 29 sel

theorem exec_tstep_of_running {s : State} (h : s.inp.runningState = true) :
    exec .tstep s = .next s.thermalStep :=
  if_pos h

/-- R236: the manual override skips the whole evaluation. -/
theorem exec_tstep_of_not_running {s : State} (h : s.inp.runningState = false) :
    exec .tstep s = .next s :=
  if_neg (by simp [h])

/-- Settles O36: the engage rule's closed form put into the disengage rule's. -/
theorem tstepFollowsTheTransitionRules : Obligations.TstepFollowsTheTransitionRules := by
  obtain ⟨hencodes, hrejected⟩ := encoding_of_formatN decodeByte_tstep
  refine ⟨fun s => ⟨hencodes, fun hrun => ?_, exec_tstep_of_not_running⟩, hrejected⟩
  rw [exec_tstep_of_running hrun, thermalStep_eq, engageIf_eq, disengageIf_eq]
  rfl

/-! ### The dead band -/

/-- On numbers the two comparisons are each other's negation. -/
theorem flt32_eq_not_fle32 {a b : Word} (ha : f32IsNan a = false) (hb : f32IsNan b = false) :
    flt32 b a = !fle32 a b := by
  simp [flt32, fle32, ha, hb, ← decide_not]

theorem not_nan_of_fle32 {a b : Word} (h : fle32 a b = true) :
    f32IsNan a = false ∧ f32IsNan b = false := by
  simp only [fle32, Bool.and_eq_true, Bool.not_eq_true'] at h
  obtain ⟨hnan, -⟩ := h
  exact hnan

theorem flt32_eq_false_of_fle32 {a b : Word} (h : fle32 a b = true) : flt32 b a = false := by
  obtain ⟨ha, hb⟩ := not_nan_of_fle32 h
  rw [flt32_eq_not_fle32 ha hb, h, Bool.not_true]

theorem fle32_eq_false_of_flt32 {a b : Word} (h : flt32 b a = true) : fle32 a b = false :=
  Bool.eq_false_iff.mpr fun hle => by simp [flt32_eq_false_of_fle32 hle] at h

/-- With neither comparison true TSTEP writes nothing, running or not (R235, R236, R239). -/
theorem exec_tstep_of_neither {s : State} (ha : aboveBand s = false) (hb : belowBand s = false) :
    exec .tstep s = .next s := by
  have hstep : s.thermalStep = s := by
    rw [thermalStep_eq, ha, hb]
    rfl
  cases hrun : s.inp.runningState with
  | false => exact exec_tstep_of_not_running hrun
  | true => rw [exec_tstep_of_running hrun, hstep]

/-- Settles O37: inside the band both comparisons are false; and a number is on one side of each bound. -/
theorem deadBandWritesNothing : Obligations.DeadBandWritesNothing := by
  intro s hi lo hhi hlo
  constructor
  · intro hgt hle
    have habove : aboveBand s = false := by
      rw [aboveBand, hhi]
      exact flt32_eq_false_of_fle32 hle
    have hbelow : belowBand s = false := by
      rw [belowBand, hlo]
      exact fle32_eq_false_of_flt32 hgt
    exact exec_tstep_of_neither habove hbelow
  · intro hband hT
    obtain ⟨hnlo, hnhi⟩ := not_nan_of_fle32 hband
    rw [fgt32, flt32_eq_not_fle32 hT hnhi, flt32_eq_not_fle32 hT hnlo]
    cases fle32 s.rd.resTemp hi <;> cases fle32 s.rd.resTemp lo <;> simp

/-! ### The manual override -/

/-- The state with `IN.running_state` at `b`. -/
def State.withRunning (b : Bool) (s : State) : State :=
  { s with inp := { s.inp with runningState := b } }

/-- The operation does with the flag at `b` what it does with the flag as it stands. -/
def IgnoresRunning (b : Bool) (f : State → State) : Prop :=
  ∀ s, f (s.withRunning b) = (f s).withRunning b

theorem onFilter_withRunning {b : Bool} {f : FilterId → State → State}
    (hf : ∀ k, IgnoresRunning b (f k)) (i : Sel) (s : State) :
    onFilter i f (s.withRunning b) = andThen (onFilter i f s) (State.withRunning b) := by
  unfold onFilter
  cases filterOfSel i with
  | none => rfl
  | some k => exact congrArg Host.Outcome.next (hf k s)

theorem onFan_withRunning {b : Bool} {f : Fan → State → State}
    (hf : ∀ k, IgnoresRunning b (f k)) (i : Sel) (s : State) :
    onFan i f (s.withRunning b) = andThen (onFan i f s) (State.withRunning b) := by
  unfold onFan
  cases fanOfSel i with
  | none => rfl
  | some k => exact congrArg Host.Outcome.next (hf k s)

theorem pollPulse_ignoresRunning (b : Bool) (t : Fan) : IgnoresRunning b (State.pollPulse t) := by
  intro s
  cases hready : (s.pulses.get t).ready with
  | false => rw [State.pollPulse_of_not_ready hready]; exact State.pollPulse_of_not_ready hready
  | true => rw [State.pollPulse_of_ready hready]; exact State.pollPulse_of_ready hready

theorem latchIf_ignoresRunning (b c : Bool) (code : Half) :
    IgnoresRunning b (State.latchIf c code) := by
  intro s
  cases c <;> rfl

theorem advancePhase_ignoresRunning (b : Bool) : IgnoresRunning b State.advancePhase := by
  intro s
  have hphase : (s.withRunning b).seq.phase = s.seq.phase := rfl
  unfold State.advancePhase
  rw [hphase]
  split <;> rfl

/-- A check latches on Readings, Settings and the parameters, never on the flag. -/
theorem next_latchIf_withRunning (b c : Bool) (code : Half) (s : State) :
    (.next ((s.withRunning b).latchIf c code) : Host.Outcome State Fault Refusal) =
      andThen (.next (s.latchIf c code)) (State.withRunning b) :=
  congrArg Host.Outcome.next (latchIf_ignoresRunning b c code s)

theorem exec_mtr_of_ok {s : State} (h : s.inp.resTempOk = true) :
    exec .mtr s = .next (s.setRd { s.rd with resTemp := s.inp.resTemp }) :=
  if_pos h

theorem exec_mtr_of_not_ok {s : State} (h : s.inp.resTempOk = false) :
    exec .mtr s = .next ((s.setRd { s.rd with resTemp := f32Zero }).raiseLatch s.cfg.codes.resProbe) :=
  if_neg (by simp [h])

theorem exec_mtr_withRunning (b : Bool) (s : State) :
    exec .mtr (s.withRunning b) = andThen (exec .mtr s) (State.withRunning b) := by
  cases hok : s.inp.resTempOk with
  | false => rw [exec_mtr_of_not_ok hok]; exact exec_mtr_of_not_ok hok
  | true => rw [exec_mtr_of_ok hok]; exact exec_mtr_of_ok hok

theorem exec_mto_withRunning (b : Bool) (s : State) :
    exec .mto (s.withRunning b) = andThen (exec .mto s) (State.withRunning b) := by
  cases hok : s.inp.outTempOk with
  | false => rw [exec_mto_of_not_ok hok]; exact exec_mto_of_not_ok hok
  | true => rw [exec_mto_of_ok hok]; exact exec_mto_of_ok hok

theorem execEnc_withRunning (b : Bool) (s : State) :
    execEnc (s.withRunning b) = andThen (execEnc s) (State.withRunning b) := by
  obtain ⟨m, hexec, hwrite, -⟩ := execEnc_eq s
  rw [hexec]
  simp only [execEnc, State.withRunning, hwrite]
  rfl

theorem execCycle_withRunning (b : Bool) (r : Sel) (s : State) :
    execCycle r (s.withRunning b) = andThen (execCycle r s) (State.withRunning b) := by
  unfold execCycle
  cases reportOfSel r with
  | none => rfl
  | some rpt =>
    exact congrArg Host.Outcome.next
      (advancePhase_ignoresRunning b ((s.startCycle rpt).setRd { s.rd with setpoint := s.inp.setpoint }))

/-- R236: TSTEP alone reads `IN.running_state`. -/
theorem exec_withRunning (b : Bool) {i : Instr} (hi : i ≠ .tstep) (s : State) :
    exec i (s.withRunning b) = andThen (exec i s) (State.withRunning b) := by
  cases i with
  | tstep => exact absurd rfl hi
  | fadd sel | favg sel | fcnt sel | fclr sel =>
    simp only [exec, execFadd, execFavg, execFcnt, execFclr]
    exact onFilter_withRunning (fun _ _ => by rfl) sel s
  | tpoll sel => exact onFan_withRunning (pollPulse_ignoresRunning b) sel s
  | trpt sel => exact onFan_withRunning (fun _ _ => by rfl) sel s
  | ckfs sel => exact onFan_withRunning (fun _ _ => latchIf_ignoresRunning b _ _ _) sel s
  | msp | mls | mlr | mdp | mti | mhu | mpf | mir | latch => rfl
  | mtr => exact exec_mtr_withRunning b s
  | mto => exact exec_mto_withRunning b s
  | cklvl | ckcth | ckctl | ckchh | ckrth | ckrtl | ckoth | ckotl | ckdph | ckpmp =>
    exact next_latchIf_withRunning b _ _ s
  | enc => exact execEnc_withRunning b s
  | cycle r => exact execCycle_withRunning b r s

/-- Settles O39: TSTEP is skipped with the flag at 0, and every other command commutes with setting the
flag. -/
theorem manualOverrideFreezesTheOutputs : Obligations.ManualOverrideFreezesTheOutputs := by
  refine ⟨fun s => exec_tstep_of_not_running, fun i s t b hi h => ?_⟩
  have hcommutes := exec_withRunning b hi s
  rw [h] at hcommutes
  exact hcommutes

end Sys2Proof.Machine
end

section
/-!
SUPPORT. The latch (spec/60_exceptions.md): its three registers after any command, by the table of causes
(R300, R301, R311); and that a latch neither moves the sequencer nor is cleared by a step (R310).
-/
namespace Sys2Proof.Machine

open Sys2Proof.Safety

/-! ### The three registers -/

/-- The registers `raise Latch(code)` writes: `RD.code`, `RD.alert`, `alarm_out` (R300). -/
def State.latchRegs (s : State) : Half × Bool × Bool := (s.rd.code, s.rd.alert, s.out.alarmOut)

/-- The latch registers after an operation on `s` that latches `cause`, if it has one (R311). -/
def latchRegsAfter (cause : Option Half) (s : State) : Half × Bool × Bool :=
  match cause with
  | some c => (c, true, true)
  | none => s.latchRegs

theorem latchIf_latchRegs (s : State) (b : Bool) (k : Half) :
    (s.latchIf b k).latchRegs = latchRegsAfter (if b then some k else none) s := by
  cases b <;> rfl

theorem pollPulse_latchRegs (s : State) (f : Fan) : (s.pollPulse f).latchRegs = s.latchRegs := by
  simp [State.latchRegs]

theorem reportFan_latchRegs (s : State) (f : Fan) : (s.reportFan f).latchRegs = s.latchRegs := by
  cases f <;> rfl

theorem thermalStep_latchRegs (s : State) : s.thermalStep.latchRegs = s.latchRegs := by
  simp [State.latchRegs]

theorem advancePhase_latchRegs (s : State) : s.advancePhase.latchRegs = s.latchRegs := by
  simp [State.latchRegs]

/-- A filter command latches nothing if its operation latches nothing. -/
theorem onFilter_latchRegs {i : Sel} {f : FilterId → State → State} {s t : State}
    (h : onFilter i f s = .next t) (hf : ∀ k, (f k s).latchRegs = s.latchRegs) :
    t.latchRegs = s.latchRegs := by
  unfold onFilter at h
  split at h <;> cases h
  · exact hf _
  · rfl

/-- A fan command latches nothing if its operation latches nothing. -/
theorem onFan_latchRegs {i : Sel} {f : Fan → State → State} {s t : State}
    (h : onFan i f s = .next t) (hf : ∀ k, (f k s).latchRegs = s.latchRegs) :
    t.latchRegs = s.latchRegs := by
  unfold onFan at h
  split at h <;> cases h
  · exact hf _
  · rfl

/-! ### The causes -/

/-- A probe that reads latches nothing; one that does not latches its code, beside the value it writes
(42_measure.md R164, R165). -/
theorem probe_latchRegs {ok : Bool} {k : Half} {r r' : Readings} {s t : State}
    (h : (if ok then .next (s.setRd r) else .next ((s.setRd r').raiseLatch k) :
      Host.Outcome State Fault Refusal) = .next t)
    (hcode : r.code = s.rd.code) (halert : r.alert = s.rd.alert) :
    t.latchRegs = latchRegsAfter (if !ok then some k else none) s := by
  cases ok <;> cases h
  · rfl
  · simp [latchRegsAfter, State.latchRegs, hcode, halert]

/-- Each fan's own stall is the cause; a selector of no fan has none (R301). -/
theorem exec_ckfs_latchRegs {sel : Sel} {s t : State} (h : exec (.ckfs sel) s = .next t) :
    t.latchRegs = latchRegsAfter (latchedCode (.ckfs sel) s) s := by
  have hsel : sel = 0 ∨ sel = 1 ∨ 1 < sel.toNat := by bv_omega
  obtain rfl | rfl | hsel := hsel
  · cases h
    exact latchIf_latchRegs s _ _
  · cases h
    exact latchIf_latchRegs s _ _
  · have h0 : sel ≠ 0 := by rintro rfl; simp at hsel
    have h1 : sel ≠ 1 := by rintro rfl; simp at hsel
    have hnone : latchedCode (.ckfs sel) s = none := (if_neg h0).trans (if_neg h1)
    cases (onFan_illegal hsel State.checkFan s).symm.trans h
    rw [hnone]
    rfl

theorem exec_cycle_latchRegs {r : Sel} {s t : State} (h : exec (.cycle r) s = .next t) :
    t.latchRegs = s.latchRegs := by
  simp only [exec, execCycle] at h
  split at h <;> cases h
  · exact advancePhase_latchRegs _
  · rfl

/-- The latch registers after any command are those of its cause in the table of R301: the code of that
cause, whatever was latched before, and without a cause the registers as they stood (R311). -/
theorem exec_latchRegs {i : Instr} {s t : State} (h : exec i s = .next t) :
    t.latchRegs = latchRegsAfter (latchedCode i s) s := by
  cases i with
  | fadd | favg | fcnt | fclr =>
    simp only [exec, execFadd, execFavg, execFcnt, execFclr] at h
    exact onFilter_latchRegs h (fun _ => rfl)
  | tpoll => exact onFan_latchRegs h (pollPulse_latchRegs s)
  | trpt => exact onFan_latchRegs h (reportFan_latchRegs s)
  | msp | mls | mlr | mdp | mti | mhu | mpf | mir | latch => cases h; rfl
  | mtr | mto =>
    simp only [exec, execMtr, execMto] at h
    exact probe_latchRegs h rfl rfl
  | cklvl | ckcth | ckctl | ckchh | ckrth | ckrtl | ckoth | ckotl | ckdph | ckpmp =>
    cases h
    exact latchIf_latchRegs s _ _
  | ckfs => exact exec_ckfs_latchRegs h
  | tstep =>
    simp only [exec, execTstep] at h
    split at h <;> cases h
    · exact thermalStep_latchRegs s
    · rfl
  | enc =>
    obtain ⟨m, hm, -⟩ := execEnc_eq s
    cases hm.symm.trans h
    rfl
  | cycle => exact exec_cycle_latchRegs h

/-- Settles O33: the three registers after a command are those of its cause in the table. -/
theorem latestLatchOverwrites : Obligations.LatestLatchOverwrites := by
  intro i s t h
  have hregs := exec_latchRegs h
  constructor
  · intro c hc
    simpa [hc, latchRegsAfter, State.latchRegs] using hregs
  · intro hc
    simpa [hc, latchRegsAfter, State.latchRegs] using hregs

/-! ### No transfer of control -/

/-- CYCLE, the one command that moves the sequencer, has no cause in the table. -/
theorem startsCycle_of_latchedCode {i : Instr} {s : State} (h : latchedCode i s ≠ none) :
    startsCycle i = false := by
  cases i with
  | cycle => exact absurd rfl h
  | _ => rfl

/-- An entry of the ROM that answers a next state did a command's effect, or none, and then moved `phase`
on; a phase beyond the ROM answers a fault. -/
theorem effect_of_runEntry {s t : State} (h : runEntry s = .next t) :
    ∃ u, t = u.advancePhase ∧ Effect s false u := by
  cases hw : scheduleRom[s.seq.phase.toNat]? with
  | none => simp [runEntry, hw] at h
  | some w =>
    obtain ⟨u, hu, heffect⟩ := runWord_effect (List.mem_of_getElem? hw) s
    simp only [runEntry, hw, hu] at h
    cases h
    exact ⟨u, rfl, heffect⟩

theorem State.advancePhase_seq (s : State) : s.advancePhase.seq = nextSequencer s.seq := by
  unfold State.advancePhase nextSequencer
  split <;> rfl

/-- Settles O32: the operation is the three writes; no command with a cause is CYCLE; and an entry leaves
the sequencer to `advancePhase`, whatever it does. -/
theorem latchWritesCodeAlertAndAlarmOnly : Obligations.LatchWritesCodeAlertAndAlarmOnly := by
  refine ⟨fun _ _ => rfl, fun i s t h hlatch => ?_, fun s t rest g i hbusy hmain _ _ h => ?_⟩
  · have heffect := exec_effect h
    rw [startsCycle_of_latchedCode hlatch] at heffect
    exact heffect.seq
  · rw [step_inCycle hbusy hmain] at h
    obtain ⟨u, rfl, heffect⟩ := effect_of_runEntry h
    rw [State.advancePhase_seq, heffect.seq]

/-! ### No return -/

/-- No turn but the power cycle clears the latch. -/
theorem Turn.keeps_latch {s t : State} (h : Turn s t) (hp : NoPowerCycle s) :
    (s.rd.alert = true → t.rd.alert = true) ∧ (s.out.alarmOut = true → t.out.alarmOut = true) := by
  cases h with
  | entry e t hb he ht =>
    obtain ⟨u, rfl, heffect⟩ := effect_of_runEntry ht
    simpa using heffect.keeps_latch
  | command b d e t hb he ht =>
    obtain ⟨c, u, hu, heffect⟩ := runByte_effect b { s with env := e, din := d }
    cases hu.symm.trans ht
    exact heffect.keeps_latch
  | edge f us e he => simp [pulseTach_eq]
  | tach f level us e he => simp [driveTach_eq]
  | idle | inputs | settings => exact ⟨id, id⟩
  | powerCycle e he => exact absurd (congrArg List.head? he) hp

/-- The step with a power cycle at the head of the list is the power-on reset (R310). -/
theorem step_powerCycle {s : State} {rest : List EnvAction} (he : s.env = .powerCycle :: rest) :
    step s = .next (State.powerOn { s.lowerStrobe with env := rest }) := by
  simp [step, turn, he]

/-- Settles O34: a turn other than the power cycle keeps the latch; LATCH writes what is on `din`; the
power-on reset writes the reset values. -/
theorem nothingButResetClearsTheLatch : Obligations.NothingButResetClearsTheLatch := by
  refine ⟨fun s t h hp => ?_, fun s hdin => ?_, fun s rest he => ?_⟩
  · exact (step_cases h).keeps_latch hp
  · have hcode : codeOfDin s.din = 0 := by rw [hdin]; rfl
    exact ⟨s.raiseLatch (codeOfDin s.din), rfl, hcode, rfl, rfl⟩
  · exact ⟨_, step_powerCycle he, rfl, rfl, rfl⟩

end Sys2Proof.Machine
end

section
/-!
SUPPORT. The opcode map read in both directions (spec/30_encoding.md R90 to R93): decoding after encoding,
encoding after decoding, and the bytes that decode to nothing (R100).
-/
namespace Sys2Proof.Machine

open Sys2Proof.Safety

/-! ### From the command to the byte and back -/

/-- The two fields of a command's byte are its opcode and its selector (R90). -/
theorem decodeByte_encodeByte (i : Instr) :
    decodeByte (encodeByte i) = decodeFields i.opcode i.selector := by
  obtain ⟨hop, hsel⟩ := Laws.EncodedFields.fields_of_append i.opcode i.selector
  rw [decodeByte, encodeByte, hop, hsel]

/-- The opcode map has a command's own row under its opcode, and takes a well-formed selector (R91, R93). -/
theorem decodeFields_of_wf {i : Instr} (h : i.wf = true) :
    decodeFields i.opcode i.selector = .ok i := by
  cases i with
  | fadd | favg | fcnt | fclr | tpoll | trpt | ckfs | cycle => exact if_pos h
  | msp | mls | mlr | mdp | mtr | mto | mti | mhu | mpf | mir => rfl
  | cklvl | ckcth | ckctl | ckchh | ckrth | ckrtl | ckoth | ckotl | ckdph | ckpmp => rfl
  | latch | tstep | enc => rfl

theorem decode_cons_of_ok {b : Byte} {i : Instr} (h : decodeByte b = .ok i) (rest : List Byte) :
    decode (b :: rest) = .ok (i, rest) := by
  simp only [decode, h]

/-- Settles O1: the byte's fields are the command's, under which the opcode map has the command. -/
theorem decodeInvertsEncode : Obligations.DecodeInvertsEncode := by
  intro i rest h
  exact decode_cons_of_ok ((decodeByte_encodeByte i).trans (decodeFields_of_wf h)) rest

/-! ### From the byte to the command and back -/

theorem decode_cons_ok {b : Byte} {rest rest' : List Byte} {i : Instr}
    (h : decode (b :: rest) = .ok (i, rest')) : decodeByte b = .ok i ∧ rest' = rest := by
  cases hd : decodeByte b with
  | error e => simp [decode, hd] at h
  | ok j =>
    rw [decode_cons_of_ok hd] at h
    cases h
    exact ⟨rfl, rfl⟩

theorem formatF_ok {op : BitVec 5} {sel : Sel} {mk : Sel → Instr} {i : Instr}
    (h : formatF op sel mk = .ok i) : legalFilterSel sel = true ∧ i = mk sel := by
  unfold formatF at h
  split at h <;> cases h
  exact ⟨‹_›, rfl⟩

theorem formatT_ok {op : BitVec 5} {sel : Sel} {mk : Sel → Instr} {i : Instr}
    (h : formatT op sel mk = .ok i) : legalFanSel sel = true ∧ i = mk sel := by
  unfold formatT at h
  split at h <;> cases h
  exact ⟨‹_›, rfl⟩

theorem formatC_ok {op : BitVec 5} {sel : Sel} {mk : Sel → Instr} {i : Instr}
    (h : formatC op sel mk = .ok i) : legalReportSel sel = true ∧ i = mk sel := by
  unfold formatC at h
  split at h <;> cases h
  exact ⟨‹_›, rfl⟩

theorem formatN_ok {op : BitVec 5} {sel : Sel} {i j : Instr}
    (h : formatN op sel j = .ok i) : sel = 0 ∧ i = j := by
  unfold formatN at h
  split at h <;> cases h
  exact ⟨‹_›, rfl⟩

/-- What the opcode map answers is well-formed and has the two fields it was looked up under (R93). -/
theorem decodeFields_ok {op : BitVec 5} {sel : Sel} {i : Instr} (h : decodeFields op sel = .ok i) :
    i.wf = true ∧ i.opcode = op ∧ i.selector = sel := by
  unfold decodeFields at h
  split at h
  case h_1 hop | h_2 hop | h_3 hop | h_4 hop =>
    obtain ⟨hlegal, rfl⟩ := formatF_ok h
    exact ⟨hlegal, BitVec.eq_of_toNat_eq hop.symm, rfl⟩
  case h_5 hop | h_6 hop | h_26 hop =>
    obtain ⟨hlegal, rfl⟩ := formatT_ok h
    exact ⟨hlegal, BitVec.eq_of_toNat_eq hop.symm, rfl⟩
  case h_31 hop =>
    obtain ⟨hlegal, rfl⟩ := formatC_ok h
    exact ⟨hlegal, BitVec.eq_of_toNat_eq hop.symm, rfl⟩
  case h_32 => cases h
  all_goals
    next hop =>
      obtain ⟨rfl, rfl⟩ := formatN_ok h
      exact ⟨rfl, BitVec.eq_of_toNat_eq hop.symm, rfl⟩

/-- A byte is its two fields (R90). -/
theorem fields_append_eq : ∀ b : Byte, opcodeField b ++ selectorField b = b := by decide

/-- Settles O2: the opcode map answers a command with the byte's own fields. -/
theorem encodeInvertsDecode : Obligations.EncodeInvertsDecode := by
  intro b rest rest' i h
  obtain ⟨hbyte, hrest⟩ := decode_cons_ok h
  obtain ⟨hwf, hop, hsel⟩ := decodeFields_ok hbyte
  refine ⟨hrest, hwf, ?_⟩
  rw [encode, encodeByte, hop, hsel, fields_append_eq]

/-! ### The illegal bytes -/

/-- Each format answers an error exactly when it refuses the selector. -/
theorem format_error_iff {c : Prop} [Decidable c] {i : Instr} {e' : DecodeError} :
    (∃ e, (if c then .ok i else .error e' : Except DecodeError Instr) = .error e) ↔ ¬c := by
  by_cases h : c <;> simp [h]

theorem formatF_error_iff {op : BitVec 5} {sel : Sel} {mk : Sel → Instr} :
    (∃ e, formatF op sel mk = .error e) ↔ 5 ≤ sel.toNat :=
  format_error_iff.trans (by simp [legalFilterSel, Nat.succ_le_iff])

theorem formatT_error_iff {op : BitVec 5} {sel : Sel} {mk : Sel → Instr} :
    (∃ e, formatT op sel mk = .error e) ↔ 2 ≤ sel.toNat :=
  format_error_iff.trans (by simp [legalFanSel, Nat.succ_le_iff])

theorem formatC_error_iff {op : BitVec 5} {sel : Sel} {mk : Sel → Instr} :
    (∃ e, formatC op sel mk = .error e) ↔ 2 ≤ sel.toNat :=
  format_error_iff.trans (by simp [legalReportSel, Nat.succ_le_iff])

theorem formatN_error_iff {op : BitVec 5} {sel : Sel} {i : Instr} :
    (∃ e, formatN op sel i = .error e) ↔ 1 ≤ sel.toNat :=
  format_error_iff.trans (by rw [← BitVec.toNat_inj]; exact Nat.pos_iff_ne_zero.symm)

/-- The list of R100, in the two fields. -/
theorem decodeFields_error_iff (op : BitVec 5) (sel : Sel) :
    (∃ e, decodeFields op sel = .error e) ↔
      op.toNat = 0 ∨ (1 ≤ op.toNat ∧ op.toNat ≤ 4 ∧ 5 ≤ sel.toNat) ∨
      ((op.toNat = 5 ∨ op.toNat = 6 ∨ op.toNat = 26) ∧ 2 ≤ sel.toNat) ∨
      (op.toNat = 31 ∧ 2 ≤ sel.toNat) ∨
      (((7 ≤ op.toNat ∧ op.toNat ≤ 25) ∨ (27 ≤ op.toNat ∧ op.toNat ≤ 30)) ∧ 1 ≤ sel.toNat) := by
  have hlt := op.isLt
  unfold decodeFields
  split
  case h_32 =>
    have hzero : op.toNat = 0 := by
      simp only [imp_false] at *
      omega
    simp [hzero]
  all_goals
    simp only [formatF_error_iff, formatT_error_iff, formatC_error_iff, formatN_error_iff]
    omega

theorem opcodeField_toNat : ∀ b : Byte, (opcodeField b).toNat = (b >>> 3).toNat := by decide

theorem selectorField_toNat : ∀ b : Byte, (selectorField b).toNat = (b &&& 7).toNat := by decide

theorem decode_singleton_error_iff (b : Byte) :
    (∃ e, decode [b] = .error e) ↔ ∃ e, decodeByte b = .error e := by
  cases h : decodeByte b <;> simp [decode, h]

theorem legalBytes_length :
    ((List.range 256).filter (fun n => (decode [BitVec.ofNat 8 n]).toOption.isSome)).length = 51 := by
  rfl

/-- Settles O3: a byte is illegal as its two fields are; the legal ones are counted. -/
theorem illegalEncodingsAreExactlyTheListedOnes :
    Obligations.IllegalEncodingsAreExactlyTheListedOnes := by
  refine ⟨fun b => ?_, legalBytes_length⟩
  have hfields := decodeFields_error_iff (opcodeField b) (selectorField b)
  rw [opcodeField_toNat, selectorField_toNat] at hfields
  exact (decode_singleton_error_iff b).trans hfields

/-- Settles O4: each byte is looked up in the opcode map. -/
theorem writtenOutBytesDecode : Obligations.WrittenOutBytesDecode := by
  refine ⟨?_, ?_, ?_, ?_, ?_, ?_, ?_, ?_, ?_, ?_⟩ <;> exact encodes_of_decodeByte rfl

/-! ### Ill-formed terms -/

theorem lt_of_not_legalFilterSel {i : Sel} (h : legalFilterSel i = false) : 4 < i.toNat := by
  simpa [legalFilterSel] using h

theorem lt_of_not_legalFanSel {t : Sel} (h : legalFanSel t = false) : 1 < t.toNat := by
  simpa [legalFanSel] using h

theorem lt_of_not_legalReportSel {r : Sel} (h : legalReportSel r = false) : 1 < r.toNat := by
  simpa [legalReportSel] using h

theorem reportOfSel_illegal : ∀ r : Sel, 1 < r.toNat → reportOfSel r = none := by decide

/-- CYCLE with a greater selector is an illegal command (46_cycle.md R280). -/
theorem exec_cycle_illegal {r : Sel} (h : 1 < r.toNat) (s : State) :
    exec (.cycle r) s = .next { s with cmdErr := true } := by
  simp only [exec, execCycle, reportOfSel_illegal r h]
  rfl

/-- A term with a selector that its format refuses is an illegal command (R101; log 16). -/
theorem exec_of_not_wf {i : Instr} (h : i.wf = false) (s : State) :
    exec i s = .next { s with cmdErr := true } := by
  cases i with
  | fadd | favg | fcnt | fclr =>
    simp only [exec, execFadd, execFavg, execFcnt, execFclr]
    exact onFilter_illegal (lt_of_not_legalFilterSel h) _ s
  | tpoll | trpt | ckfs =>
    simp only [exec, execTpoll, execTrpt, execCkfs]
    exact onFan_illegal (lt_of_not_legalFanSel h) _ s
  | cycle => exact exec_cycle_illegal (lt_of_not_legalReportSel h) s
  | _ => cases h

end Sys2Proof.Machine
end

section
/-!
SUPPORT. What each command can do, with the command named: `exec_cases` is the inversion of `exec` behind
the statements about the one writer of each register (spec/10_state.md R21 to R35).
-/
namespace Sys2Proof.Machine

open Sys2Proof.Safety

/-! ### The shapes of a command's effect, by command -/

/-- Readings `r` and the Readings after the one register write that a command makes (10_state.md R21). -/
inductive RegisterWrite (r : Readings) : Instr → Readings → Prop where
  | resTemp (v : Word) : RegisterWrite r .mtr { r with resTemp := v }
  | setpoint (v : Word) : RegisterWrite r .msp { r with setpoint := v }
  | setpointOfCycle (sel : Sel) (v : Word) : RegisterWrite r (.cycle sel) { r with setpoint := v }
  | levelSense (v : Word) : RegisterWrite r .mls { r with levelSense := v }
  | levelRef (v : Word) : RegisterWrite r .mlr { r with levelRef := v }
  | insideTemp (v : Word) : RegisterWrite r .mti { r with insideTemp := v }
  | outsideTemp (v : Word) : RegisterWrite r .mto { r with outsideTemp := v }
  | humidity (v : Word) : RegisterWrite r .mhu { r with humidity := v }
  | filterDp (v : Half) : RegisterWrite r .mdp { r with filterDp := v }
  | topTach (v : Word) : RegisterWrite r (.trpt 0) { r with topTach := v }
  | bottomTach (v : Word) : RegisterWrite r (.trpt 1) { r with bottomTach := v }
  | mirrors (c v : Bool) (p : Byte) (ct vt : Word) : RegisterWrite r .mir
      { r with compRunning := c, valve := v, fanPwm := p, compressorTime := ct, valveTime := vt }
  | observations (p f : Bool) : RegisterWrite r .mpf { r with pumpRunning := p, flowOk := f }

/-- The commands that feed a filter from an input port (42_measure.md R161 to R163). -/
inductive Feeds : Instr → FilterId → Prop where
  | mls : Feeds .mls .levelSense
  | mlr : Feeds .mlr .levelRef
  | mdp : Feeds .mdp .filterDp

/-- The commands that latch or do nothing (43_fault_monitor.md R190). -/
inductive Checks : Instr → Prop where
  | cklvl : Checks .cklvl
  | ckcth : Checks .ckcth
  | ckctl : Checks .ckctl
  | ckchh : Checks .ckchh
  | ckrth : Checks .ckrth
  | ckrtl : Checks .ckrtl
  | ckoth : Checks .ckoth
  | ckotl : Checks .ckotl
  | ckdph : Checks .ckdph
  | ckfs (f : Fan) : Checks (.ckfs (fanNumber f))
  | ckpmp : Checks .ckpmp

/-- What a command does to a state. -/
inductive CommandEffect (s : State) : Instr → State → Prop where
  | illegal {i : Instr} (h : i.wf = false) : CommandEffect s i s.raiseIllegal
  | fadd (k : FilterId) : CommandEffect s (.fadd (filterNumber k)) (s.addSample k s.din)
  | favg (k : FilterId) : CommandEffect s (.favg (filterNumber k))
      (s.setDout (filterMean (s.filters.get k)))
  | fcnt (k : FilterId) : CommandEffect s (.fcnt (filterNumber k))
      (s.setDout (BitVec.ofNat 32 (s.filters.get k).count))
  | fclr (k : FilterId) : CommandEffect s (.fclr (filterNumber k))
      (s.setFilter k (filterCleared (s.filters.get k)))
  | tpoll (f : Fan) : CommandEffect s (.tpoll (fanNumber f)) (s.pollPulse f)
  | write {i : Instr} {r : Readings} (h : RegisterWrite s.rd i r) : CommandEffect s i (s.setRd r)
  | smooth {i : Instr} {k : FilterId} {r : Readings} (hk : Feeds i k) (x : Word)
      (h : RegisterWrite s.rd i r) : CommandEffect s i ((s.addSample k x).setRd r)
  | substitute {i : Instr} {r : Readings} (h : RegisterWrite s.rd i r) (c : Half) :
      CommandEffect s i ((s.setRd r).raiseLatch c)
  | check {i : Instr} (h : Checks i) (b : Bool) (c : Half) : CommandEffect s i (s.latchIf b c)
  | latch : CommandEffect s .latch (s.raiseLatch (codeOfDin s.din))
  | tstep : CommandEffect s .tstep s.thermalStep
  | tstepSkipped : CommandEffect s .tstep s
  | enc (m : Memory) : CommandEffect s .enc { s with fb := m }.emitFrame
  | cycle (sel : Sel) (b : Bool) :
      CommandEffect s (.cycle sel)
        ((s.startCycle b).setRd { s.rd with setpoint := s.inp.setpoint }).advancePhase

/-! ### The inversion of `exec` -/

theorem filterOfSel_some :
    ∀ (sel : Sel) (k : FilterId), filterOfSel sel = some k → sel = filterNumber k := by
  intro sel k
  cases k <;> revert sel <;> decide

theorem fanOfSel_some : ∀ (sel : Sel) (f : Fan), fanOfSel sel = some f → sel = fanNumber f := by
  intro sel f
  cases f <;> revert sel <;> decide

/-- A filter command's effect, from its operation's on each filter. -/
theorem onFilter_cases {i : Sel} {mk : Sel → Instr} {op : FilterId → State → State} {s t : State}
    (h : onFilter i op s = .next t) (hwf : (mk i).wf = legalFilterSel i)
    (hop : ∀ k, CommandEffect s (mk (filterNumber k)) (op k s)) : CommandEffect s (mk i) t := by
  unfold onFilter at h
  split at h <;> cases h
  case h_1 k hk =>
    rw [filterOfSel_some i k hk]
    exact hop k
  case h_2 hnone =>
    have hillegal : ∀ sel : Sel, filterOfSel sel = none → legalFilterSel sel = false := by decide
    exact .illegal (hwf.trans (hillegal i hnone))

/-- A fan command's effect, from its operation's on each fan. -/
theorem onFan_cases {i : Sel} {mk : Sel → Instr} {op : Fan → State → State} {s t : State}
    (h : onFan i op s = .next t) (hwf : (mk i).wf = legalFanSel i)
    (hop : ∀ f, CommandEffect s (mk (fanNumber f)) (op f s)) : CommandEffect s (mk i) t := by
  unfold onFan at h
  split at h <;> cases h
  case h_1 f hf =>
    rw [fanOfSel_some i f hf]
    exact hop f
  case h_2 hnone =>
    have hillegal : ∀ sel : Sel, fanOfSel sel = none → legalFanSel sel = false := by decide
    exact .illegal (hwf.trans (hillegal i hnone))

theorem reportFan_cases (s : State) (f : Fan) :
    CommandEffect s (.trpt (fanNumber f)) (s.reportFan f) := by
  cases f with
  | top => exact .write (.topTach _)
  | bottom => exact .write (.bottomTach _)

theorem execCycle_cases {sel : Sel} {s t : State} (h : execCycle sel s = .next t) :
    CommandEffect s (.cycle sel) t := by
  unfold execCycle at h
  split at h <;> cases h
  · exact .cycle sel _
  · next hnone =>
    have hillegal : ∀ r : Sel, reportOfSel r = none → legalReportSel r = false := by decide
    exact .illegal (hillegal sel hnone)

/-- Every command that gives a next state has one of the effects. -/
theorem exec_cases {i : Instr} {s t : State} (h : exec i s = .next t) : CommandEffect s i t := by
  cases i with
  | fadd sel =>
    simp only [exec, execFadd] at h
    exact onFilter_cases (mk := .fadd) h rfl .fadd
  | favg sel =>
    simp only [exec, execFavg] at h
    exact onFilter_cases (mk := .favg) h rfl .favg
  | fcnt sel =>
    simp only [exec, execFcnt] at h
    exact onFilter_cases (mk := .fcnt) h rfl .fcnt
  | fclr sel =>
    simp only [exec, execFclr] at h
    exact onFilter_cases (mk := .fclr) h rfl .fclr
  | tpoll sel => exact onFan_cases (mk := .tpoll) h rfl .tpoll
  | trpt sel => exact onFan_cases (mk := .trpt) h rfl (reportFan_cases s)
  | msp => cases h; exact .write (.setpoint _)
  | mti => cases h; exact .write (.insideTemp _)
  | mhu => cases h; exact .write (.humidity _)
  | mpf => cases h; exact .write (.observations _ _)
  | mir => cases h; exact .write (.mirrors _ _ _ _ _)
  | mls => cases h; exact .smooth .mls _ (.levelSense _)
  | mlr => cases h; exact .smooth .mlr _ (.levelRef _)
  | mdp => cases h; exact .smooth .mdp _ (.filterDp _)
  | mtr =>
    simp only [exec, execMtr] at h
    split at h <;> cases h
    · exact .write (.resTemp _)
    · exact .substitute (.resTemp _) _
  | mto =>
    simp only [exec, execMto] at h
    split at h <;> cases h
    · exact .write (.outsideTemp _)
    · exact .substitute (.outsideTemp _) _
  | cklvl => cases h; exact .check .cklvl _ _
  | ckcth => cases h; exact .check .ckcth _ _
  | ckctl => cases h; exact .check .ckctl _ _
  | ckchh => cases h; exact .check .ckchh _ _
  | ckrth => cases h; exact .check .ckrth _ _
  | ckrtl => cases h; exact .check .ckrtl _ _
  | ckoth => cases h; exact .check .ckoth _ _
  | ckotl => cases h; exact .check .ckotl _ _
  | ckdph => cases h; exact .check .ckdph _ _
  | ckpmp => cases h; exact .check .ckpmp _ _
  | ckfs sel => exact onFan_cases (mk := .ckfs) h rfl (fun f => .check (.ckfs f) _ _)
  | latch => cases h; exact .latch
  | tstep =>
    simp only [exec, execTstep] at h
    split at h <;> cases h
    · exact .tstep
    · exact .tstepSkipped
  | enc =>
    obtain ⟨m, hm, -⟩ := execEnc_eq s
    cases hm.symm.trans h
    exact .enc m
  | cycle sel => exact execCycle_cases h

end Sys2Proof.Machine
end

section
/-!
SUPPORT. The one writer of each register of the block (spec/10_state.md R21, R26 to R35), read off the
effects of the commands.
-/
namespace Sys2Proof.Machine

open Sys2Proof.Safety

/-! ### Readings -/

/-- Readings after a command: its own register write or none, and whatever the latch registers hold. -/
theorem CommandEffect.readings {i : Instr} {s t : State} (h : CommandEffect s i t) :
    ∃ r a c, (r = s.rd ∨ RegisterWrite s.rd i r) ∧ t.rd = { r with alert := a, code := c } := by
  cases h with
  | write hr => exact ⟨_, _, _, .inr hr, rfl⟩
  | smooth hk x hr => exact ⟨_, _, _, .inr hr, rfl⟩
  | substitute hr c => exact ⟨_, _, _, .inr hr, rfl⟩
  | cycle sel b => exact ⟨_, s.rd.alert, s.rd.code, .inr (.setpointOfCycle sel s.inp.setpoint), by simp⟩
  | check hc b c => cases b <;> exact ⟨_, _, _, .inl rfl, rfl⟩
  | latch => exact ⟨_, _, _, .inl rfl, rfl⟩
  | illegal | fadd | favg | fcnt | fclr | tpoll | tstep | tstepSkipped | enc =>
    exact ⟨s.rd, s.rd.alert, s.rd.code, .inl rfl, by simp⟩

/-- Settles O47: the register write that a command makes names the command; the latch registers are those
of its cause. -/
theorem readingsAreWrittenOnlyByTheirOperation :
    Obligations.ReadingsAreWrittenOnlyByTheirOperation := by
  intro i s t h
  have hlatch : latchedCode i s = none → t.rd.alert = s.rd.alert ∧ t.rd.code = s.rd.code := by
    intro hnone
    obtain ⟨-, hunlatched⟩ := latestLatchOverwrites i s t h
    obtain ⟨hcode, halert, -⟩ := hunlatched hnone
    exact ⟨halert, hcode⟩
  obtain ⟨r, a, c, hr, ht⟩ := (exec_cases h).readings
  obtain rfl | hr := hr
  · simpa [ht] using hlatch
  · cases hr <;> simpa [ht] using hlatch

/-! ### Outputs -/

/-- TSTEP alone writes the relays, the duty and the timestamps (10_state.md R26, R27). -/
theorem CommandEffect.outputs {i : Instr} {s t : State} (h : CommandEffect s i t) (hi : i ≠ .tstep) :
    t.lock = s.lock ∧ ∃ a, t.out = { s.out with alarmOut := a } := by
  cases h with
  | tstep | tstepSkipped => exact absurd rfl hi
  | latch => exact ⟨rfl, true, rfl⟩
  | substitute => exact ⟨rfl, true, rfl⟩
  | check hc b c => cases b <;> exact ⟨rfl, _, rfl⟩
  | illegal | fadd | favg | fcnt | fclr | tpoll | write | smooth | enc | cycle =>
    exact ⟨by simp, s.out.alarmOut, by simp⟩

/-- Settles O48: the outputs from the effects, the alarm from the latch's table of causes. -/
theorem outputsAreWrittenOnlyByTstep : Obligations.OutputsAreWrittenOnlyByTstep := by
  intro i s t h
  refine ⟨fun hi => ?_, fun hnone => ?_⟩
  · obtain ⟨hlock, a, hout⟩ := (exec_cases h).outputs hi
    simp [hlock, hout]
  · obtain ⟨-, hunlatched⟩ := latestLatchOverwrites i s t h
    obtain ⟨-, -, halarm⟩ := hunlatched hnone
    exact halarm

/-! ### Filters and pulse records -/

/-- The commands that write a filter: FADD and FCLR of its number, and the one that feeds it (R28). -/
inductive Owns : Instr → FilterId → Prop where
  | fadd (k : FilterId) : Owns (.fadd (filterNumber k)) k
  | fclr (k : FilterId) : Owns (.fclr (filterNumber k)) k
  | feeds {i : Instr} {k : FilterId} (h : Feeds i k) : Owns i k
  | tpoll (f : Fan) : Owns (.tpoll (fanNumber f)) (fanFilter f)

theorem FilterBank.get_set_of_not_owns {i : Instr} {j k : FilterId} (hj : Owns i j) (hk : ¬Owns i k)
    (b : FilterBank) (f : FilterWindow) : (b.set j f).get k = b.get k := by
  rw [FilterBank.get_set, if_neg]
  rintro rfl
  exact hk hj

theorem State.pollPulse_filters_of_ne {s : State} {f : Fan} {k : FilterId} (h : k ≠ fanFilter f) :
    (s.pollPulse f).filters.get k = s.filters.get k := by
  cases hready : (s.pulses.get f).ready with
  | false => rw [State.pollPulse_of_not_ready hready]
  | true => simp [State.pollPulse_of_ready hready, h]

/-- A filter that a command does not own is as before. -/
theorem CommandEffect.filters {i : Instr} {s t : State} {k : FilterId} (h : CommandEffect s i t)
    (hk : ¬Owns i k) : t.filters.get k = s.filters.get k := by
  cases h with
  | fadd j => exact FilterBank.get_set_of_not_owns (.fadd j) hk _ _
  | fclr j => exact FilterBank.get_set_of_not_owns (.fclr j) hk _ _
  | smooth hj x hr => exact FilterBank.get_set_of_not_owns (.feeds hj) hk _ _
  | tpoll f => exact State.pollPulse_filters_of_ne (by rintro rfl; exact hk (.tpoll f))
  | illegal | favg | fcnt | write | substitute | check | latch | tstep | tstepSkipped | enc | cycle =>
    simp

/-- A pulse record is as before, but that TPOLL of its fan may clear `ready` (R31). -/
theorem CommandEffect.pulses {i : Instr} {s t : State} (h : CommandEffect s i t) (f : Fan) :
    t.pulses.get f = s.pulses.get f ∨
      i = .tpoll (fanNumber f) ∧ t.pulses.get f = { s.pulses.get f with ready := false } := by
  cases h with
  | tpoll g =>
    cases hready : (s.pulses.get g).ready with
    | false => exact .inl (by rw [State.pollPulse_of_not_ready hready])
    | true =>
      rw [State.pollPulse_of_ready hready]
      by_cases hfg : f = g
      · subst hfg
        exact .inr ⟨rfl, by simp⟩
      · exact .inl (by simp [hfg])
  | illegal | fadd | favg | fcnt | fclr | write | smooth | substitute | check | latch | tstep |
    tstepSkipped | enc | cycle => exact .inl (by simp)

/-- Settles O49: the excepted commands are the filter's owners; of a pulse record only `ready` changes, and
only to 0. -/
theorem filtersAndPulsesAreWrittenOnlyByTheirOwners :
    Obligations.FiltersAndPulsesAreWrittenOnlyByTheirOwners := by
  intro i s t h
  have heffect := exec_cases h
  refine ⟨fun k hfadd hfclr hmls hmlr hmdp htop hbot => heffect.filters ?_, fun f hf => ?_, fun f => ?_⟩
  · intro howns
    cases howns with
    | fadd => exact hfadd rfl
    | fclr => exact hfclr rfl
    | feeds hfeeds =>
      cases hfeeds with
      | mls => exact hmls ⟨rfl, rfl⟩
      | mlr => exact hmlr ⟨rfl, rfl⟩
      | mdp => exact hmdp ⟨rfl, rfl⟩
    | tpoll f =>
      cases f with
      | top => exact htop ⟨rfl, rfl⟩
      | bottom => exact hbot ⟨rfl, rfl⟩
  · exact (heffect.pulses f).resolve_right fun ⟨hpoll, _⟩ => hf hpoll
  · obtain hsame | ⟨-, hcleared⟩ := heffect.pulses f
    · rw [hsame]
      exact ⟨rfl, id⟩
    · rw [hcleared]
      exact ⟨rfl, fun hready => (Bool.false_ne_true hready).elim⟩

/-! ### Frame buffer, host registers, sequencer -/

theorem CommandEffect.frame {i : Instr} {s t : State} (h : CommandEffect s i t) (hi : i ≠ .enc) :
    t.fb = s.fb ∧ t.frames = s.frames ∧ t.frameStrobe = s.frameStrobe := by
  cases h with
  | enc => exact absurd rfl hi
  | illegal | fadd | favg | fcnt | fclr | tpoll | write | smooth | substitute | check | latch | tstep |
    tstepSkipped | cycle => simp

theorem CommandEffect.dout {i : Instr} {s t : State} (h : CommandEffect s i t)
    (havg : ∀ k, i ≠ .favg k) (hcnt : ∀ k, i ≠ .fcnt k) : t.dout = s.dout := by
  cases h with
  | favg k => exact absurd rfl (havg _)
  | fcnt k => exact absurd rfl (hcnt _)
  | illegal | fadd | fclr | tpoll | write | smooth | substitute | check | latch | tstep |
    tstepSkipped | enc | cycle => simp

/-- A command with a legal selector leaves `cmd_err` (30_encoding.md R101). -/
theorem CommandEffect.cmdErr {i : Instr} {s t : State} (h : CommandEffect s i t) (hwf : i.wf = true) :
    t.cmdErr = s.cmdErr := by
  cases h with
  | illegal hillegal => simp [hwf] at hillegal
  | fadd | favg | fcnt | fclr | tpoll | write | smooth | substitute | check | latch | tstep |
    tstepSkipped | enc | cycle => simp

theorem CommandEffect.seq {i : Instr} {s t : State} (h : CommandEffect s i t)
    (hi : ∀ r, i ≠ .cycle r) : t.seq = s.seq := by
  cases h with
  | cycle sel b => exact absurd rfl (hi sel)
  | illegal | fadd | favg | fcnt | fclr | tpoll | write | smooth | substitute | check | latch | tstep |
    tstepSkipped | enc => simp

/-- Settles O50: each register's writer is read off the effects; no effect touches an input. -/
theorem frameBufferAndHostRegistersHaveOneWriter :
    Obligations.FrameBufferAndHostRegistersHaveOneWriter := by
  intro i s t h
  have heffect := exec_cases h
  refine ⟨fun hi => ?_, heffect.dout, heffect.cmdErr, heffect.seq, (exec_effect h).inputs⟩
  obtain ⟨hfb, hframes, hstrobe⟩ := heffect.frame hi
  exact ⟨hfb, fun a => by rw [hfb], hframes, hstrobe⟩

end Sys2Proof.Machine
end

section
/-!
SUPPORT. One step by the head of the environment's list, one equation each (spec/20_memory.md R70 to R77;
logs 1, 2, 10, 13, 14), and what every step leaves to the environment (spec/10_state.md R25, R38, R40).
-/
namespace Sys2Proof.Machine

open Sys2Proof.Safety

/-! ### A step by the head of the list -/

/-- A command presented on an idle port is taken. -/
theorem step_presents {s : State} {b : Byte} {d : Word} {rest : List EnvAction}
    (h : Presents s b d rest) :
    step s = runByte b { s with env := rest, din := d, frameStrobe := false } := by
  obtain ⟨hbusy, henv⟩ := h
  simp [step, turn, commandTurn, State.lowerStrobe, henv, hbusy]

theorem step_edge {s : State} {f : Fan} {us : Word} {rest : List EnvAction}
    (h : s.env = .edge f us :: rest) :
    step s = .next { s with
      env := rest, frameStrobe := false, inp := { s.inp with nowUs := us }, tach := s.tach.set f false
      pulses := s.pulses.set f (capturePulse us (s.pulses.get f)) } := by
  simp [step, turn, h, pulseTach_eq, State.lowerStrobe]

theorem step_tach {s : State} {f : Fan} {level : Bool} {us : Word} {rest : List EnvAction}
    (h : s.env = .tach f level us :: rest) :
    step s = .next { s with
      env := rest, frameStrobe := false, inp := { s.inp with nowUs := us }, tach := s.tach.set f level
      pulses := if s.tach.get f && !level then s.pulses.set f (capturePulse us (s.pulses.get f))
        else s.pulses } := by
  simp only [step, turn, State.lowerStrobe, h, driveTach_eq]

theorem step_inputs {s : State} {p : Inputs} {rest : List EnvAction} (h : s.env = .inputs p :: rest) :
    step s = .next { s with env := rest, frameStrobe := false, inp := p } := by
  simp [step, turn, h, State.lowerStrobe]

theorem step_settings {s : State} {r : Settings} {rest : List EnvAction}
    (h : s.env = .settings r :: rest) :
    step s = .next { s with env := rest, frameStrobe := false, settings := r } := by
  simp [step, turn, h, State.lowerStrobe]

/-- The main agent's own turn outside a CYCLE, on its list entry or on an empty list (R341; log 3). -/
theorem step_idle {s : State} {rest : List EnvAction} (hbusy : s.seq.busy = false)
    (h : s.env = [] ∧ rest = [] ∨ s.env = .main :: rest) :
    step s = .next { s with env := rest, frameStrobe := false } := by
  obtain ⟨henv, rfl⟩ | henv := h <;> simp [step, turn, mainTurn, State.lowerStrobe, henv, hbusy]

theorem run_one (s : State) : core.run 1 s = step s := by
  have hstep : core.step s = step s := rfl
  simp only [Host.Core.run, hstep]
  cases step s <;> rfl

/-! ### Commands on the port -/

theorem runByte_of_decode_singleton {b : Byte} {i : Instr} (s : State) (h : decode [b] = .ok (i, [])) :
    runByte b s = exec i s :=
  runByte_of_decode s (decode_cons_ok h).1

/-- Settles O5: the byte taken from the port runs its command. -/
theorem stepRunsTheDecodedCommand : Obligations.StepRunsTheDecodedCommand := by
  intro s b d rest i hpresents hdecode
  rw [step_presents hpresents, runByte_of_decode_singleton _ hdecode]

/-- Settles O8: the byte taken from the port raises IllegalCommand, and so does an ill-formed term. -/
theorem illegalCommandSetsCmdErrOnly : Obligations.IllegalCommandSetsCmdErrOnly := by
  refine ⟨fun s b d rest e hpresents hdecode => ?_, fun s i hwf => exec_of_not_wf hwf s⟩
  obtain ⟨e', hbyte⟩ := (decode_singleton_error_iff b).1 ⟨e, hdecode⟩
  rw [step_presents hpresents, runByte_of_error _ hbyte]
  rfl

/-- Settles O7: inside a CYCLE a command at the head of the list leaves the turn to the sequencer, whose
entry touches neither the list nor `din`. -/
theorem commandIsHeldOffWhileBusy : Obligations.CommandIsHeldOffWhileBusy := by
  intro s t b d rest hbusy henv h
  rw [step_inCycle hbusy (.inr (.inl ⟨b, d, rest, henv, rfl⟩))] at h
  obtain ⟨u, rfl, heffect⟩ := effect_of_runEntry h
  obtain ⟨-, -, -, -, henv', hdin⟩ := heffect.inputs
  simp [henv', hdin, henv]

/-! ### The tach agents -/

/-- Settles O16: the two equations of a step on a tach line. -/
theorem fallingEdgeCapturesAPulse : Obligations.FallingEdgeCapturesAPulse := by
  intro s f us rest pulse
  have hpulse : capturePulse us (s.pulses.get f) = pulse := rfl
  refine ⟨fun henv => ?_, fun level henv => ?_⟩
  · rw [step_edge henv, hpulse]
  · rw [step_tach henv, hpulse]
    simp

/-- Two edges, one after the other. -/
theorem run_two_edges (s : State) (f g : Fan) (a b : Word) (rest : List EnvAction) :
    core.run 2 { s with env := .edge f a :: .edge g b :: rest } =
      let pulses := s.pulses.set f (capturePulse a (s.pulses.get f))
      .next { s with
        env := rest, frameStrobe := false, inp := { s.inp with nowUs := b }
        tach := (s.tach.set f false).set g false
        pulses := pulses.set g (capturePulse b (pulses.get g)) } := by
  rw [run_of_step 1 (step_edge rfl), run_one, step_edge rfl]
  rfl

/-- Settles O17: the two edges write different records and lines; the time port shows the later one's. -/
theorem edgesOfDifferentFansCommute : Obligations.EdgesOfDifferentFansCommute := by
  intro s a b rest
  exact ⟨_, run_two_edges s .top .bottom a b rest, run_two_edges s .bottom .top b a rest, rfl⟩

/-! ### Inputs -/

/-- Settles O9: the shapes of a turn, each with the action that gives it; a command's effect touches no
input. -/
theorem onlyTheEnvironmentChangesInputs : Obligations.OnlyTheEnvironmentChangesInputs := by
  intro s t h
  cases step_cases h with
  | idle e hb he => exact ⟨rfl, .inl rfl, .inl rfl, .inl rfl, .inl rfl⟩
  | entry e t hb he ht =>
    obtain ⟨u, rfl, heffect⟩ := effect_of_runEntry ht
    obtain ⟨hinp, htach, hsettings, hcfg, -, hdin⟩ := heffect.inputs
    simp [hinp, htach, hsettings, hcfg, hdin]
  | command b d e t hb he ht =>
    obtain ⟨c, u, hu, heffect⟩ := runByte_effect b { s.lowerStrobe with env := e, din := d }
    cases hu.symm.trans ht
    obtain ⟨hinp, htach, hsettings, hcfg, -, hdin⟩ := heffect.inputs
    exact ⟨hcfg, .inl hsettings, .inl hinp, .inl htach, .inr ⟨b, d, e, ⟨hb, he⟩, hdin⟩⟩
  | edge f us e he =>
    rw [pulseTach_eq]
    exact ⟨rfl, .inl rfl, .inr (.inr ⟨us, rfl, .inl ⟨f, e, he⟩⟩), .inr (.inl ⟨f, us, e, he, rfl⟩), .inl rfl⟩
  | tach f level us e he =>
    rw [driveTach_eq]
    exact ⟨rfl, .inl rfl, .inr (.inr ⟨us, rfl, .inr ⟨f, level, e, he⟩⟩),
      .inr (.inr ⟨f, level, us, e, he, rfl⟩), .inl rfl⟩
  | inputs p e he => exact ⟨rfl, .inl rfl, .inr (.inl ⟨p, e, he, rfl⟩), .inl rfl, .inl rfl⟩
  | settings r e he => exact ⟨rfl, .inr ⟨r, e, he, rfl⟩, .inl rfl, .inl rfl, .inl rfl⟩
  | powerCycle e he => exact ⟨rfl, .inl rfl, .inl rfl, .inl rfl, .inl rfl⟩

/-- Settles O59: the change is a step of its own, after which the port is still idle. -/
theorem inputChangesAreSeenByTheNextCommand : Obligations.InputChangesAreSeenByTheNextCommand := by
  intro s p r rest
  refine ⟨step_inputs, step_settings, ?_⟩
  rintro b d later i hbusy rfl hdecode
  constructor <;> intro henv
  · rw [run_of_step 1 (step_inputs henv), run_one]
    exact stepRunsTheDecodedCommand _ b d later i ⟨hbusy, rfl⟩ hdecode
  · rw [run_of_step 1 (step_settings henv), run_one]
    exact stepRunsTheDecodedCommand _ b d later i ⟨hbusy, rfl⟩ hdecode

/-! ### Nothing to do -/

theorem step_idle_nil {s : State} (hbusy : s.seq.busy = false) (henv : s.env = []) :
    step s = .next { s with frameStrobe := false } := by
  rw [step_idle hbusy (.inl ⟨henv, rfl⟩), ← henv]

/-- The first step lets the strobe down, and every one after it finds nothing to do. -/
theorem run_idle (n : Nat) :
    ∀ {s : State}, s.seq.busy = false → s.env = [] →
      core.run (n + 1) s = .next { s with frameStrobe := false } := by
  induction n with
  | zero =>
    intro s hbusy henv
    exact (run_one s).trans (step_idle_nil hbusy henv)
  | succ n ih =>
    intro s hbusy henv
    rw [run_of_step (n + 1) (step_idle_nil hbusy henv)]
    exact ih hbusy henv

/-- Settles O60. -/
theorem nothingHappensWithoutACommand : Obligations.NothingHappensWithoutACommand := by
  intro s hbusy
  exact ⟨fun rest henv => step_idle hbusy (.inr henv), fun henv n => run_idle n hbusy henv⟩

end Sys2Proof.Machine
end

section
/-!
SUPPORT. The invariant of the whole machine: it holds after reset, every step keeps it, and under it every
step goes on (spec/10_state.md R29 to R33, R42; 60_exceptions.md R302; 70_reset_and_hazards.md R340).
-/
namespace Sys2Proof.Machine

open Sys2Proof.Safety

/-! ### The reset state -/

theorem reset_filters_inv : FiltersInv State.reset.filters := by
  intro k
  cases k <;> exact filterInv_empty (cap_pos _) List.length_replicate rfl rfl rfl

theorem reset_inv : Inv State.reset where
  memory := rfl
  filter := reset_filters_inv
  thermal := ⟨fun h => h, fun h => (Bool.false_ne_true h).elim, fun _ => rfl⟩
  sequencer := ⟨fun _ => rfl, fun h => (Bool.false_ne_true h).elim⟩
  latch := rfl
  strobe := fun h => (Bool.false_ne_true h).elim

/-- Settles O55: the invariant by its parts, each value by evaluation. -/
theorem resetStateMeetsTheInvariant : Obligations.ResetStateMeetsTheInvariant := by
  refine ⟨reset_inv, ⟨rfl, rfl, rfl⟩, rfl, rfl, rfl, by decide, rfl, fun k => ?_, fun f => ?_, rfl, rfl,
    rfl, by decide⟩
  · cases k <;> exact ⟨rfl, rfl, rfl⟩
  · cases f <;> rfl

/-- Settles O56: the step is the power-on reset with the action taken from the list. -/
theorem powerCycleRestoresTheResetState : Obligations.PowerCycleRestoresTheResetState := by
  intro s rest henv
  exact step_powerCycle henv

/-! ### Keeping the invariant -/

/-- With the strobe down the invariant speaks of five parts of the state only. -/
theorem inv_congr {s t : State} (h : Inv s) (hfb : t.fb = s.fb) (hfilters : t.filters = s.filters)
    (hout : t.out = s.out) (hseq : t.seq = s.seq) (hrd : t.rd = s.rd) (hstrobe : t.frameStrobe = false) :
    Inv t where
  memory := hfb ▸ h.memory
  filter := hfilters ▸ h.filter
  thermal := hout ▸ h.thermal
  sequencer := hseq ▸ h.sequencer
  latch := by
    have hlatch := h.latch
    unfold LatchInv at hlatch ⊢
    rw [hrd, hout, hlatch]
  strobe := fun hup => by simp [hstrobe] at hup

theorem lowerStrobe_inv {s : State} (h : Inv s) : Inv s.lowerStrobe := inv_congr h rfl rfl rfl rfl rfl rfl

/-- An entry leaves the sequencer at a later entry, or idle after entry 29 (46_cycle.md R283). -/
theorem nextSequencer_inv {q : Sequencer} (h : SequencerInv q) (hbusy : q.busy = true) :
    SequencerInv (nextSequencer q) := by
  obtain ⟨-, hrange⟩ := h
  obtain ⟨hlow, hhigh⟩ := hrange hbusy
  unfold nextSequencer
  split
  · exact ⟨fun _ => rfl, fun hc => (Bool.false_ne_true hc).elim⟩
  · next hne =>
    have hlast : q.phase.toNat ≠ 29 := fun hc => hne (BitVec.eq_of_toNat_eq hc)
    have hnext : (q.phase + 1).toNat = q.phase.toNat + 1 := by
      rw [BitVec.toNat_add]
      exact Nat.mod_eq_of_lt (by simp; omega)
    refine ⟨fun hc => ?_, fun _ => ?_⟩
    · simp [hbusy] at hc
    · rw [hnext]
      omega

/-- A command on an idle port leaves the sequencer idle, or at entry 1 of a CYCLE (46_cycle.md R280). -/
theorem Effect.sequencerInv {c : Bool} {s t : State} (h : Effect s c t) (hi : SequencerInv s.seq) :
    SequencerInv t.seq := by
  cases h with
  | cycle r rd ha =>
    rw [State.advancePhase_seq]
    simp [nextSequencer, SequencerInv]
  | same | illegal | sample | dout | clear | poll | readings | smooth | latch | substitute | thermal |
    frame => simpa using hi

/-- The part of the invariant that a command keeps, put together with the sequencer's. -/
theorem Effect.inv {c : Bool} {s t : State} (h : Effect s c t) (hs : s.frameStrobe = false) (hi : Inv s) :
    Inv t := by
  obtain ⟨hmemory, hfilter, hthermal, hlatch, hstrobe⟩ := h.block hs hi
  exact ⟨hmemory, hfilter, hthermal, h.sequencerInv hi.sequencer, hlatch, hstrobe⟩

theorem advancePhase_inv {s : State} (h : Inv s) (hbusy : s.seq.busy = true) : Inv s.advancePhase where
  memory := by simpa using h.memory
  filter := by simpa using h.filter
  thermal := by simpa using h.thermal
  sequencer := by
    rw [State.advancePhase_seq]
    exact nextSequencer_inv h.sequencer hbusy
  latch := by simpa [LatchInv] using h.latch
  strobe := by simpa [StrobeInv] using h.strobe

/-- Every turn keeps the invariant, from a state whose strobe is down. -/
theorem Turn.inv {s t : State} (h : Turn s t) (hs : s.frameStrobe = false) (hi : Inv s) : Inv t := by
  cases h with
  | idle | inputs | settings => exact inv_congr hi rfl rfl rfl rfl rfl hs
  | edge f us e he =>
    rw [pulseTach_eq]
    exact inv_congr hi rfl rfl rfl rfl rfl hs
  | tach f level us e he =>
    rw [driveTach_eq]
    exact inv_congr hi rfl rfl rfl rfl rfl hs
  | powerCycle e he => exact inv_congr reset_inv rfl rfl rfl rfl rfl rfl
  | entry e t hb he ht =>
    have hi' : Inv { s with env := e } := inv_congr hi rfl rfl rfl rfl rfl hs
    obtain ⟨u, rfl, heffect⟩ := effect_of_runEntry ht
    exact advancePhase_inv (heffect.inv hs hi') (heffect.seq ▸ hb)
  | command b d e t hb he ht =>
    have hi' : Inv { s with env := e, din := d } := inv_congr hi rfl rfl rfl rfl rfl hs
    obtain ⟨c, u, hu, heffect⟩ := runByte_effect b { s with env := e, din := d }
    cases hu.symm.trans ht
    exact heffect.inv hs hi'

/-- Settles O57: the turn is taken with the strobe let down, and keeps the invariant. -/
theorem stepKeepsTheInvariant : Obligations.StepKeepsTheInvariant := by
  intro s t hi h
  exact (step_cases h).inv rfl (lowerStrobe_inv hi)

/-! ### Going on -/

theorem phase_le_of_inv {s : State} (h : Inv s) : s.seq.phase.toNat ≤ 29 := by
  obtain ⟨hidle, hrange⟩ := h.sequencer
  cases hbusy : s.seq.busy with
  | false => simp [hidle hbusy]
  | true => exact (hrange hbusy).2

/-- Inside a CYCLE the sequencer's entry exists and completes. -/
theorem step_completes_inCycle {s : State} {rest : List EnvAction} (hi : Inv s)
    (hbusy : s.seq.busy = true) (h : MainAgentSteps s rest) : ∃ t, step s = .next t := by
  have hphase := phase_le_of_inv hi
  obtain ⟨u, hu, -⟩ := runEntry_effect (s := { s with env := rest, frameStrobe := false }) hphase
  exact ⟨_, (step_inCycle hbusy h).trans hu⟩

/-- Settles O58: every head of the list has its step. -/
theorem nothingStopsTheBlock : Obligations.NothingStopsTheBlock := by
  intro s hi
  cases henv : s.env with
  | nil =>
    cases hbusy : s.seq.busy with
    | true => exact step_completes_inCycle hi hbusy (.inl ⟨henv, rfl⟩)
    | false => exact ⟨_, step_idle_nil hbusy henv⟩
  | cons action rest =>
    cases action with
    | command b d =>
      cases hbusy : s.seq.busy with
      | true => exact step_completes_inCycle hi hbusy (.inr (.inl ⟨b, d, rest, henv, rfl⟩))
      | false =>
        obtain ⟨c, t, ht, -⟩ := runByte_effect b { s with env := rest, din := d, frameStrobe := false }
        exact ⟨t, (step_presents ⟨hbusy, henv⟩).trans ht⟩
    | main =>
      cases hbusy : s.seq.busy with
      | true => exact step_completes_inCycle hi hbusy (.inr (.inr henv))
      | false => exact ⟨_, step_idle hbusy (.inr henv)⟩
    | edge f us => exact ⟨_, step_edge henv⟩
    | tach f level us => exact ⟨_, step_tach henv⟩
    | inputs p => exact ⟨_, step_inputs henv⟩
    | settings r => exact ⟨_, step_settings henv⟩
    | powerCycle => exact ⟨_, step_powerCycle henv⟩

end Sys2Proof.Machine
end

section
/-!
SUPPORT. The frame (spec/45_telemetry.md R260 to R263): ENC's fields tile the frame buffer, so it holds
their bytes one after another; and the round trip through the layout (spec/20_memory.md R61).
-/
namespace Sys2Proof.Machine

open Sys2Proof.Safety

/-! ### Bytes from an address on -/

/-- The memory holds the bytes from address `a` on. -/
def Holds (m : Memory) (a : Nat) (bs : List Byte) : Prop :=
  (List.range' a bs.length).map (fun c => Memory.read c m) = bs

theorem holds_append {m : Memory} {a : Nat} {xs ys : List Byte} :
    Holds m a (xs ++ ys) ↔ Holds m a xs ∧ Holds m (a + xs.length) ys := by
  unfold Holds
  rw [List.length_append, ← List.range'_append_1, List.map_append]
  exact ⟨fun h => List.append_inj h (by simp), fun ⟨hx, hy⟩ => by rw [hx, hy]⟩

theorem holds_writeBytes {a : Nat} {bs : List Byte} {m : Memory} (ha : a + bs.length ≤ Config.frameLen)
    (hm : Memory.wf m = true) : Holds (Memory.writeBytes a bs m) a bs := by
  apply List.ext_getElem (by simp)
  intro j _ hj
  simp [Memory.read_writeBytes ha hm, hj]

/-- Memories that read alike below an address hold the same bytes there. -/
theorem Holds.congr_below {m m' : Memory} {a : Nat} {bs : List Byte} (h : Holds m a bs)
    (hread : ∀ c < a + bs.length, Memory.read c m' = Memory.read c m) : Holds m' a bs := by
  unfold Holds at h ⊢
  rw [← h]
  simp only [List.length_map, List.length_range']
  refine List.map_congr_left fun c hc => hread c ?_
  simp at hc
  omega

/-! ### Fields that tile the frame buffer -/

/-- The fields lie one after another from address `a` on. -/
def Tiles : Nat → List (Nat × Nat × Word) → Prop
  | _, [] => True
  | a, (b, n, _) :: fs => b = a ∧ Tiles (a + n) fs

/-- The bytes of the fields, one after another. -/
def fieldBytes (fs : List (Nat × Nat × Word)) : List Byte :=
  fs.flatMap fun f => littleEndian f.2.1 f.2.2

/-- After the writes of tiling fields the memory holds their bytes from `a` on, and reads as before below. -/
theorem holds_writeFields :
    ∀ {fs : List (Nat × Nat × Word)} {a : Nat} {m m' : Memory}, Tiles a fs →
      writeFields fs m = some m' → Memory.wf m = true →
      Holds m' a (fieldBytes fs) ∧ ∀ c < a, Memory.read c m' = Memory.read c m
  | [], _, m, m', _, h, _ => by
    simp only [writeFields, Option.some.injEq] at h
    subst h
    exact ⟨rfl, fun _ _ => rfl⟩
  | (b, n, v) :: fs, a, m, m', ht, h, hm => by
    obtain ⟨rfl, ht⟩ := ht
    have hcons : fieldBytes ((b, n, v) :: fs) = littleEndian n v ++ fieldBytes fs := rfl
    rw [hcons, holds_append, littleEndian_length]
    simp only [writeFields] at h
    split at h
    case h_2 => cases h
    case h_1 m1 h1 =>
      obtain ⟨htail, hbelow⟩ := holds_writeFields ht h (memWrite_wf hm h1)
      unfold memWrite at h1
      split at h1 <;> cases h1
      next hb =>
        have hlen : b + (littleEndian n v).length ≤ Config.frameLen := by simpa using hb
        have hhead : Holds m' b (littleEndian n v) :=
          (holds_writeBytes hlen hm).congr_below (by simpa using hbelow)
        refine ⟨⟨hhead, htail⟩, fun c hc => ?_⟩
        have hout : ¬(b ≤ c ∧ c < b + (littleEndian n v).length) := by omega
        rw [hbelow c (by omega), Memory.read_writeBytes hlen hm, if_neg hout]

/-! ### The frame of a Readings value -/

theorem littleEndian_four (v : Word) : littleEndian 4 v = bytes32 v := rfl

theorem littleEndian_two (v : Half) : littleEndian 2 (v.setWidth 32) = bytes16 v := by
  have hrange : List.range 2 = [0, 1] := rfl
  simp only [littleEndian, hrange, List.map_cons, List.map_nil, bytes16, List.cons.injEq, and_true]
  constructor <;> ext i hi <;> simp <;> omega

theorem littleEndian_one (b : Byte) : littleEndian 1 (b.setWidth 32) = [b] := by
  have hrange : List.range 1 = [0] := rfl
  simp only [littleEndian, hrange, List.map_cons, List.map_nil, List.cons.injEq, and_true]
  ext i hi
  simp [BitVec.getLsbD_eq_getElem hi, show i < 32 by omega]

theorem littleEndian_bool (b : Bool) : littleEndian 1 (boolWord b) = bytesBool b := by
  cases b <;> rfl

/-- The layout of 20_memory.md R61 leaves no gap. -/
theorem frameFields_tile (r : Readings) : Tiles 0 (frameFields r) := by
  simp [Tiles, frameFields]

theorem fieldBytes_frameFields (r : Readings) : fieldBytes (frameFields r) = framePayload r := by
  simp only [fieldBytes, frameFields, List.flatMap_cons, List.flatMap_nil, littleEndian_four,
    littleEndian_two, littleEndian_one, littleEndian_bool, framePayload, List.append_assoc,
    List.append_nil]

theorem framePayload_length (r : Readings) : (framePayload r).length = Config.frameLen := by
  simp [framePayload, bytes32, bytes16, bytesBool, Config.frameLen]

/-- ENC completes, and the frame buffer then holds the payload from its first address on. -/
theorem exec_enc {s : State} (hm : Memory.wf s.fb = true) :
    ∃ m, exec .enc s = .next { s with fb := m }.emitFrame ∧ Memory.wf m = true ∧
      Holds m 0 (framePayload s.rd) := by
  obtain ⟨m, hexec, hwrite, hwf⟩ := execEnc_eq s
  obtain ⟨hholds, -⟩ := holds_writeFields (frameFields_tile s.rd) hwrite hm
  rw [fieldBytes_frameFields] at hholds
  exact ⟨m, hexec, hwf hm, hholds⟩

/-- The payload fills the frame buffer (20_memory.md R62). -/
theorem frameBytes_of_holds {m : Memory} {r : Readings} (h : Holds m 0 (framePayload r)) :
    frameBytes m = framePayload r := by
  rwa [Holds, framePayload_length, ← List.range_eq_range'] at h

theorem decodeByte_enc (sel : Sel) : decodeByte (formByte 0xF0 sel) = formatN 30 sel .enc :=
  decodeByte_formByte 30 sel

/-- Settles O41: the fields tile the frame buffer, so its bytes are the payload. -/
theorem encWritesTheWholeFrame : Obligations.EncWritesTheWholeFrame := by
  obtain ⟨hencodes, hrejected⟩ := encoding_of_formatN decodeByte_enc
  refine ⟨fun s hm => ⟨hencodes, ?_⟩, hrejected⟩
  obtain ⟨m, hexec, hwf, hholds⟩ := exec_enc hm
  have hbytes := frameBytes_of_holds hholds
  refine ⟨m, hwf, hbytes, ?_⟩
  rw [hexec, State.emitFrame, hbytes]

/-! ### The round trip -/

theorem memRead_of_holds_bytes32 {m : Memory} {a : Nat} {v : Word} (ha : a + 4 ≤ Config.frameLen)
    (h : Holds m a (bytes32 v)) : memRead a 4 m = some v := by
  simp only [Holds, bytes32, List.length_cons, List.length_nil, List.range'_succ, List.map_cons,
    List.cons.injEq] at h
  obtain ⟨h0, h1, h2, h3, -⟩ := h
  exact memRead_four ha h0 h1 h2 h3

theorem memRead_of_holds_bytes16 {m : Memory} {a : Nat} {v : Half} (ha : a + 2 ≤ Config.frameLen)
    (h : Holds m a (bytes16 v)) : memRead a 2 m = some (v.setWidth 32) := by
  simp only [Holds, bytes16, List.length_cons, List.length_nil, List.range'_succ, List.map_cons,
    List.cons.injEq] at h
  obtain ⟨h0, h1, -⟩ := h
  exact memRead_two ha h0 h1

theorem memRead_of_holds_byte {m : Memory} {a : Nat} {b : Byte} (ha : a + 1 ≤ Config.frameLen)
    (h : Holds m a [b]) : memRead a 1 m = some (b.setWidth 32) := by
  simp only [Holds, List.length_cons, List.length_nil, List.range'_succ, List.map_cons,
    List.cons.injEq] at h
  obtain ⟨h0, -⟩ := h
  exact memRead_one ha h0

theorem memRead_of_holds_bytesBool {m : Memory} {a : Nat} {b : Bool} (ha : a + 1 ≤ Config.frameLen)
    (h : Holds m a (bytesBool b)) : memRead a 1 m = some (boolWord b) := by
  rw [memRead_of_holds_byte ha h]
  cases b <;> rfl

theorem boolOfWord_boolWord (b : Bool) : boolOfWord (boolWord b) = b := by
  cases b <;> rfl

/-- A frame buffer that holds the payload decodes to the Readings it was taken from (R263): each field of
the decoder's is one of the payload's. -/
theorem decodeFrame_of_holds {m : Memory} {r : Readings} (h : Holds m 0 (framePayload r)) :
    decodeFrame m = some r := by
  have len32 : ∀ v, (bytes32 v).length = 4 := fun _ => rfl
  have len16 : ∀ v, (bytes16 v).length = 2 := fun _ => rfl
  have lenBool : ∀ b, (bytesBool b).length = 1 := fun _ => rfl
  have len1 : ∀ b : Byte, [b].length = 1 := fun _ => rfl
  simp only [framePayload, holds_append, List.length_append, len32, len16, lenBool, len1, and_assoc,
    Nat.reduceAdd] at h
  obtain ⟨h0, h4, h8, h12, h16, h20, h24, h28, h30, h34, h38, h39, h40, h41, h45, h49, h50, h51, h52⟩ := h
  simp only [decodeFrame, Option.bind_eq_bind, Option.bind_some, Option.pure_def,
    memRead_of_holds_bytes32 (by decide) h0, memRead_of_holds_bytes32 (by decide) h4,
    memRead_of_holds_bytes32 (by decide) h8, memRead_of_holds_bytes32 (by decide) h12,
    memRead_of_holds_bytes32 (by decide) h16, memRead_of_holds_bytes32 (by decide) h20,
    memRead_of_holds_bytes32 (by decide) h24, memRead_of_holds_bytes16 (by decide) h28,
    memRead_of_holds_bytes32 (by decide) h30, memRead_of_holds_bytes32 (by decide) h34,
    memRead_of_holds_byte (by decide) h38, memRead_of_holds_bytesBool (by decide) h39,
    memRead_of_holds_bytesBool (by decide) h40, memRead_of_holds_bytes32 (by decide) h41,
    memRead_of_holds_bytes32 (by decide) h45, memRead_of_holds_bytesBool (by decide) h49,
    memRead_of_holds_bytesBool (by decide) h50, memRead_of_holds_bytesBool (by decide) h51,
    memRead_of_holds_bytes16 (by decide) h52, boolOfWord_boolWord]
  simp

/-- Settles O42: after ENC the frame buffer holds the payload, which decodes field by field. -/
theorem frameDecodesToTheReadings : Obligations.FrameDecodesToTheReadings := by
  intro s t hm h
  obtain ⟨m, hexec, -, hholds⟩ := exec_enc hm
  cases hexec.symm.trans h
  exact decodeFrame_of_holds hholds

end Sys2Proof.Machine
end

section
/-!
SUPPORT. What a window holds after any insertions (spec/40_filter.md R126): the sample store as a ring.
-/
namespace Sys2Proof.Machine

open Sys2Proof.Safety

/-- A window of capacity `cap` after the samples `xs` went into it, empty before: sample number `i`, if it
is among the last `cap`, stands in slot `i mod cap`. -/
structure WindowAfter (cap : Nat) (xs : List Word) (f : FilterWindow) : Prop where
  inv : FilterInv cap f
  count : f.count = min xs.length cap
  head : f.head = xs.length % cap
  slots : ∀ i < xs.length, xs.length ≤ i + cap → f.buf.getD (i % cap) 0 = xs.getD i 0
  sum : f.sum.toNat = sampleSum (lastN cap xs)

theorem windowAfter_nil {cap : Nat} {f : FilterWindow} (hp : 0 < cap) (hl : f.buf.length = cap)
    (hh : f.head = 0) (hc : f.count = 0) (hs : f.sum = 0) : WindowAfter cap [] f where
  inv := filterInv_empty hp hl hh hc hs
  count := by simp [hc]
  head := by simp [hh]
  slots := by simp
  sum := by simp [hs, lastN]

/-- While the window fills, the last samples grow by the new one. -/
theorem lastN_append_of_lt {cap : Nat} {xs : List Word} (x : Word) (h : xs.length < cap) :
    lastN cap (xs ++ [x]) = lastN cap xs ++ [x] := by
  have h1 : xs.length + 1 - cap = 0 := by omega
  have h2 : xs.length - cap = 0 := by omega
  simp [lastN, h1, h2]

/-- In a full window the last samples are the evicted one and those that stay. -/
theorem lastN_of_le {cap : Nat} {xs : List Word} (hp : 0 < cap) (h : cap ≤ xs.length) :
    lastN cap xs = xs.getD (xs.length - cap) 0 :: xs.drop (xs.length - cap + 1) := by
  have hlt : xs.length - cap < xs.length := by omega
  rw [lastN, List.drop_eq_getElem_cons hlt, List.getD_eq_getElem _ _ hlt]

/-- After an insertion into a full window they are those that stay and the new one. -/
theorem lastN_append_of_le {cap : Nat} {xs : List Word} (x : Word) (hp : 0 < cap) (h : cap ≤ xs.length) :
    lastN cap (xs ++ [x]) = xs.drop (xs.length - cap + 1) ++ [x] := by
  have hstart : (xs ++ [x]).length - cap = xs.length - cap + 1 := by simp; omega
  rw [lastN, hstart, List.drop_append_of_le_length (by omega)]

/-- Two of `cap` consecutive sample numbers are in different slots. -/
theorem mod_ne_of_lt {cap i n : Nat} (hlt : i < n) (h : n < i + cap) : i % cap ≠ n % cap := by
  intro heq
  have hzero : (n - i) % cap = 0 := Nat.sub_mod_eq_zero_of_mod_eq heq.symm
  rw [Nat.mod_eq_of_lt (by omega)] at hzero
  omega

/-- The slot at `head` of a full window holds the sample that the next insertion evicts. -/
theorem WindowAfter.evicted {cap : Nat} {xs : List Word} {f : FilterWindow} (h : WindowAfter cap xs f)
    (hp : 0 < cap) (hfull : cap ≤ xs.length) : f.buf.getD f.head 0 = xs.getD (xs.length - cap) 0 := by
  have hslot := h.slots (xs.length - cap) (by omega) (by omega)
  rwa [← Nat.mod_eq_sub_mod hfull, ← h.head] at hslot

theorem filterInsert_sum_of_lt {cap : Nat} {f : FilterWindow} (x : Word) (h : FilterInv cap f)
    (hc : cap ≤ 100) (hlt : f.count < cap) :
    (filterInsert cap x f).sum.toNat = f.sum.toNat + x.toNat := by
  have hbound := filterInv_sum_lt h hc
  have hx := x.isLt
  simp only [filterInsert, if_neg hlt.ne, BitVec.toNat_add, zext40_toNat]
  omega

theorem filterInsert_sum_of_full {cap : Nat} {f : FilterWindow} (x : Word) (h : FilterInv cap f)
    (hc : cap ≤ 100) (hfull : f.count = cap) :
    (f.buf.getD f.head 0).toNat + (filterInsert cap x f).sum.toNat = f.sum.toNat + x.toNat := by
  have hbound := filterInv_sum_lt h hc
  have hx := x.isLt
  have hold := (f.buf.getD f.head 0).isLt
  have hle : (f.buf.getD f.head 0).toNat ≤ f.sum.toNat := by
    have hheld : heldSamples cap f = f.buf := by simp [heldSamples, hfull]
    have hmem : (f.buf.getD f.head 0).toNat ∈ f.buf.map BitVec.toNat := by
      rw [List.getD_eq_getElem _ _ (h.length ▸ h.head_lt)]
      exact List.mem_map_of_mem (List.getElem_mem _)
    rw [h.sum_eq, hheld]
    exact List.single_le_sum (by simp) _ hmem
  simp only [filterInsert, if_pos hfull, BitVec.toNat_add, BitVec.toNat_sub, zext40_toNat]
  omega

/-- One insertion more. -/
theorem WindowAfter.insert {cap : Nat} {xs : List Word} {f : FilterWindow} (h : WindowAfter cap xs f)
    (x : Word) (hp : 0 < cap) (hc : cap ≤ 100) : WindowAfter cap (xs ++ [x]) (filterInsert cap x f) where
  inv := filterInsert_inv x hp hc h.inv
  count := by
    have hcount := h.count
    simp only [filterInsert, List.length_append, List.length_singleton]
    split <;> omega
  head := by
    simp only [filterInsert, h.head, List.length_append, List.length_singleton, Nat.mod_add_mod]
  slots := by
    intro i hi hlast
    have hlen : (xs ++ [x]).length = xs.length + 1 := by simp
    rw [hlen] at hi hlast
    have hbuf : (filterInsert cap x f).buf = f.buf.set (xs.length % cap) x := by
      rw [filterInsert, h.head]
    have hroom : xs.length % cap < f.buf.length := by
      rw [h.inv.length]
      exact Nat.mod_lt _ hp
    obtain rfl | hlt := Nat.eq_or_lt_of_le (Nat.le_of_lt_succ hi)
    · simp [hbuf, hroom]
    · have hne := mod_ne_of_lt (cap := cap) hlt (by omega)
      have hslot := h.slots i hlt (by omega)
      rw [hbuf, List.getD_eq_getElem?_getD, List.getElem?_set_ne hne.symm, ← List.getD_eq_getElem?_getD,
        hslot, List.getD_append _ _ _ _ hlt]
  sum := by
    have hcount := h.count
    rcases Nat.lt_or_ge xs.length cap with hlt | hge
    · rw [filterInsert_sum_of_lt x h.inv hc (by omega), h.sum, lastN_append_of_lt x hlt]
      simp
    · have hsum := filterInsert_sum_of_full x h.inv hc (by omega)
      rw [h.evicted hp hge, h.sum, lastN_of_le hp hge, sampleSum_cons] at hsum
      rw [lastN_append_of_le x hp hge, sampleSum_append, sampleSum_cons, sampleSum_nil]
      omega

theorem windowAfter_foldl {cap : Nat} {f : FilterWindow} (hp : 0 < cap) (hc : cap ≤ 100)
    (h : WindowAfter cap [] f) (xs : List Word) :
    WindowAfter cap xs (xs.foldl (fun w x => filterInsert cap x w) f) := by
  induction xs using List.reverseRecOn with
  | nil => exact h
  | append_singleton xs x ih =>
    rw [List.foldl_append]
    exact ih.insert x hp hc

/-- Settles O14: by induction on the samples; the mean reads the count and the sum. -/
theorem windowHoldsExactlyTheLastSamples : Obligations.WindowHoldsExactlyTheLastSamples := by
  intro cap f xs hp hc hl hh hcount hs g total
  have hwindow : WindowAfter cap xs g := windowAfter_foldl hp hc (windowAfter_nil hp hl hh hcount hs) xs
  refine ⟨hwindow.count, hwindow.sum, fun hne => ?_⟩
  have hpos : 0 < xs.length := List.length_pos_iff.2 hne
  have hsome : g.count ≠ 0 := by
    rw [hwindow.count]
    omega
  rw [filterMean, if_neg hsome, hwindow.count, hwindow.sum]
  rfl

end Sys2Proof.Machine
end

section
/-!
SUPPORT. Commands on two states that differ in their filters and sequencer only: with filters that agree on
what a command can see of them, every command but CYCLE does the same on both. Taken with equality, a
command ignores the sequencer; taken with `SameLive`, it ignores dead slots (spec/40_filter.md R125).
-/
namespace Sys2Proof.Machine

open Sys2Proof.Safety

/-! ### Relations between filters -/

/-- A relation between windows that filter operations keep, and under which their results agree. -/
structure Respected (R : FilterId → FilterWindow → FilterWindow → Prop) : Prop where
  insert : ∀ {k f g}, R k f g → ∀ x, R k (filterInsert (Config.cap k) x f) (filterInsert (Config.cap k) x g)
  cleared : ∀ {k f g}, R k f g → R k (filterCleared f) (filterCleared g)
  count : ∀ {k f g}, R k f g → f.count = g.count
  sum : ∀ {k f g}, R k f g → f.sum = g.sum

/-- Two banks related window by window. -/
def RelatedBanks (R : FilterId → FilterWindow → FilterWindow → Prop) (b c : FilterBank) : Prop :=
  ∀ k, R k (b.get k) (c.get k)

variable {R : FilterId → FilterWindow → FilterWindow → Prop}

theorem RelatedBanks.set {b c : FilterBank} (h : RelatedBanks R b c) (k : FilterId) {f g : FilterWindow}
    (hfg : R k f g) : RelatedBanks R (b.set k f) (c.set k g) := by
  intro j
  rw [FilterBank.get_set, FilterBank.get_set]
  by_cases hj : j = k
  · subst hj
    simpa using hfg
  · simpa [hj] using h j

theorem Respected.mean (hR : Respected R) {k : FilterId} {f g : FilterWindow} (h : R k f g) :
    filterMean f = filterMean g := by
  rw [filterMean, filterMean, hR.count h, hR.sum h]

theorem Respected.integerMean (hR : Respected R) {k : FilterId} {f g : FilterWindow} (h : R k f g) :
    filterIntegerMean f = filterIntegerMean g := by
  rw [filterIntegerMean, filterIntegerMean, hR.count h, hR.sum h]

/-! ### Operations -/

/-- The state with other filters and another sequencer. -/
def State.swap (fs : FilterBank) (q : Sequencer) (s : State) : State := { s with filters := fs, seq := q }

/-- The operation does the same on two states that differ in related filters and in the sequencer. -/
def Simulates (R : FilterId → FilterWindow → FilterWindow → Prop) (op : State → State) : Prop :=
  ∀ (s : State) (fs : FilterBank) (q : Sequencer), RelatedBanks R s.filters fs →
    ∃ fs', op (s.swap fs q) = (op s).swap fs' q ∧ RelatedBanks R (op s).filters fs'

theorem addSample_simulates (hR : Respected R) (k : FilterId) (x : Word) :
    Simulates R (State.addSample k x) := by
  intro s fs q hfs
  exact ⟨fs.set k (filterInsert (Config.cap k) x (fs.get k)), rfl, hfs.set k (hR.insert (hfs k) x)⟩

theorem clear_simulates (hR : Respected R) (k : FilterId) :
    Simulates R (fun s => s.setFilter k (filterCleared (s.filters.get k))) := by
  intro s fs q hfs
  exact ⟨fs.set k (filterCleared (fs.get k)), rfl, hfs.set k (hR.cleared (hfs k))⟩

theorem pollPulse_simulates (hR : Respected R) (f : Fan) : Simulates R (State.pollPulse f) := by
  intro s fs q hfs
  have hpulses : (s.swap fs q).pulses = s.pulses := rfl
  cases hready : (s.pulses.get f).ready with
  | false =>
    rw [State.pollPulse_of_not_ready hready, State.pollPulse_of_not_ready (hpulses ▸ hready)]
    exact ⟨fs, rfl, hfs⟩
  | true =>
    rw [State.pollPulse_of_ready hready, State.pollPulse_of_ready (hpulses ▸ hready)]
    obtain ⟨fs', hsample, hfs'⟩ := addSample_simulates hR (fanFilter f) (s.pulses.get f).pulseLength s fs q hfs
    rw [hpulses, hsample]
    exact ⟨fs', rfl, hfs'⟩

/-- An operation that keeps the filters, and reads of them only what agrees. -/
theorem simulates_of_swap {op : State → State}
    (hswap : ∀ s fs q, RelatedBanks R s.filters fs → op (s.swap fs q) = (op s).swap fs q)
    (hkeep : ∀ s, (op s).filters = s.filters) : Simulates R op := by
  intro s fs q hfs
  exact ⟨fs, hswap s fs q hfs, (hkeep s).symm ▸ hfs⟩

theorem setDout_mean_simulates (hR : Respected R) (k : FilterId) :
    Simulates R (fun s => s.setDout (filterMean (s.filters.get k))) := by
  refine simulates_of_swap (fun s fs q hfs => ?_) (fun _ => rfl)
  rw [hR.mean (hfs k)]
  rfl

theorem setDout_count_simulates (hR : Respected R) (k : FilterId) :
    Simulates R (fun s => s.setDout (BitVec.ofNat 32 (s.filters.get k).count)) := by
  refine simulates_of_swap (fun s fs q hfs => ?_) (fun _ => rfl)
  rw [hR.count (hfs k)]
  rfl

theorem reportFan_simulates (hR : Respected R) (f : Fan) : Simulates R (State.reportFan f) := by
  refine simulates_of_swap (fun s fs q hfs => ?_) (fun s => by simp)
  have hfilters : (s.swap fs q).filters = fs := rfl
  rw [State.reportFan, State.reportFan, hfilters, hR.count (hfs _), hR.mean (hfs _)]
  rfl

theorem latchIf_swap (s : State) (fs : FilterBank) (q : Sequencer) (c : Bool) (code : Half) :
    (s.swap fs q).latchIf c code = (s.latchIf c code).swap fs q := by
  cases c <;> rfl

theorem checkFan_simulates (hR : Respected R) (f : Fan) : Simulates R (State.checkFan f) := by
  refine simulates_of_swap (fun s fs q hfs => ?_) (fun s => by simp)
  have hfilters : (s.swap fs q).filters = fs := rfl
  rw [State.checkFan, State.checkFan, hfilters, hR.count (hfs _)]
  exact latchIf_swap s fs q _ _

theorem thermalStep_simulates : Simulates R State.thermalStep := by
  refine simulates_of_swap (fun s fs q _ => ?_) (fun s => by simp)
  rw [thermalStep_eq, thermalStep_eq, engageIf_eq, engageIf_eq, disengageIf_eq, disengageIf_eq]
  rfl

/-! ### Commands -/

/-- The command gives, on two states that differ in related filters and in the sequencer, states that differ
so again. -/
def SimulatesOutcome (R : FilterId → FilterWindow → FilterWindow → Prop)
    (F : State → Host.Outcome State Fault Refusal) : Prop :=
  ∀ (s t : State) (fs : FilterBank) (q : Sequencer), RelatedBanks R s.filters fs → F s = .next t →
    ∃ fs', F (s.swap fs q) = .next (t.swap fs' q) ∧ RelatedBanks R t.filters fs'

theorem Simulates.next {op : State → State} (hop : Simulates R op) :
    SimulatesOutcome R (fun s => .next (op s)) := by
  intro s t fs q hfs h
  cases h
  obtain ⟨fs', hswap, hfs'⟩ := hop s fs q hfs
  exact ⟨fs', congrArg Host.Outcome.next hswap, hfs'⟩

theorem onFilter_simulates {op : FilterId → State → State} (hop : ∀ k, Simulates R (op k)) (i : Sel) :
    SimulatesOutcome R (onFilter i op) := by
  intro s t fs q hfs h
  unfold onFilter at h ⊢
  split at h
  · exact (hop _).next s t fs q hfs h
  · cases h
    exact ⟨fs, rfl, hfs⟩

theorem onFan_simulates {op : Fan → State → State} (hop : ∀ f, Simulates R (op f)) (i : Sel) :
    SimulatesOutcome R (onFan i op) := by
  intro s t fs q hfs h
  unfold onFan at h ⊢
  split at h
  · exact (hop _).next s t fs q hfs h
  · cases h
    exact ⟨fs, rfl, hfs⟩

/-- A command that feeds a filter from a port and then goes on from the fed filter (42_measure.md R161 to
R163). -/
theorem smooth_simulates (hR : Respected R) (k : FilterId) (x : Inputs → Word) {op : State → State}
    (hop : Simulates R op) : SimulatesOutcome R (fun s => .next (op (s.addSample k (x s.inp)))) := by
  intro s t fs q hfs h
  cases h
  obtain ⟨fs₁, hfed, hfs₁⟩ := addSample_simulates hR k (x s.inp) s fs q hfs
  obtain ⟨fs₂, hrest, hfs₂⟩ := hop (s.addSample k (x s.inp)) fs₁ q hfs₁
  exact ⟨fs₂, congrArg Host.Outcome.next ((congrArg op hfed).trans hrest), hfs₂⟩

/-- A write of Readings from a window, by a function that sees no more of it than the relation. -/
theorem setRd_simulates (k : FilterId) {write : FilterWindow → Readings → Readings}
    (hwrite : ∀ {f g}, R k f g → write f = write g) :
    Simulates R (fun s => s.setRd (write (s.filters.get k) s.rd)) := by
  refine simulates_of_swap (fun s fs q hfs => ?_) (fun _ => rfl)
  rw [hwrite (hfs k)]
  rfl

theorem execMls_simulates (hR : Respected R) : SimulatesOutcome R execMls :=
  smooth_simulates hR .levelSense (fun p => zext32 p.levelSenseRaw)
    (setRd_simulates .levelSense (write := fun f r => { r with levelSense := filterMean f })
      fun h => by rw [hR.mean h])

theorem execMlr_simulates (hR : Respected R) : SimulatesOutcome R execMlr :=
  smooth_simulates hR .levelRef (fun p => zext32 p.levelRefRaw)
    (setRd_simulates .levelRef (write := fun f r => { r with levelRef := filterMean f })
      fun h => by rw [hR.mean h])

theorem execMdp_simulates (hR : Respected R) : SimulatesOutcome R execMdp :=
  smooth_simulates hR .filterDp (fun p => zext32 p.filterDpRaw)
    (setRd_simulates .filterDp (write := fun f r => { r with filterDp := filterIntegerMean f })
      fun h => by rw [hR.integerMean h])

theorem execEnc_swap (s : State) (fs : FilterBank) (q : Sequencer) :
    execEnc (s.swap fs q) = andThen (execEnc s) (State.swap fs q) := by
  obtain ⟨m, hexec, hwrite, -⟩ := execEnc_eq s
  rw [hexec]
  simp only [execEnc, State.swap, hwrite]
  rfl

theorem execEnc_simulates : SimulatesOutcome R execEnc := by
  intro s t fs q hfs h
  obtain ⟨m, hexec, -⟩ := execEnc_eq s
  cases hexec.symm.trans h
  rw [execEnc_swap, hexec]
  exact ⟨fs, rfl, hfs⟩

/-- A probe reads its port or latches, and sees no filter. -/
theorem execMtr_simulates : SimulatesOutcome R execMtr := by
  intro s t fs q hfs h
  cases hok : s.inp.resTempOk with
  | false => cases (exec_mtr_of_not_ok hok).symm.trans h; exact ⟨fs, exec_mtr_of_not_ok hok, hfs⟩
  | true => cases (exec_mtr_of_ok hok).symm.trans h; exact ⟨fs, exec_mtr_of_ok hok, hfs⟩

theorem execMto_simulates : SimulatesOutcome R execMto := by
  intro s t fs q hfs h
  cases hok : s.inp.outTempOk with
  | false => cases (exec_mto_of_not_ok hok).symm.trans h; exact ⟨fs, exec_mto_of_not_ok hok, hfs⟩
  | true => cases (exec_mto_of_ok hok).symm.trans h; exact ⟨fs, exec_mto_of_ok hok, hfs⟩

theorem execTstep_simulates : SimulatesOutcome R execTstep := by
  intro s t fs q hfs h
  cases hrun : s.inp.runningState with
  | false =>
    cases (exec_tstep_of_not_running hrun).symm.trans h
    exact ⟨fs, exec_tstep_of_not_running hrun, hfs⟩
  | true =>
    cases (exec_tstep_of_running hrun).symm.trans h
    obtain ⟨fs', hstep, hfs'⟩ := thermalStep_simulates s fs q hfs
    refine ⟨fs', ?_, hfs'⟩
    rw [← hstep]
    exact exec_tstep_of_running hrun

/-- Every command but CYCLE, which alone reads or writes the sequencer. -/
theorem exec_simulates (hR : Respected R) {i : Instr} (hi : startsCycle i = false) :
    SimulatesOutcome R (exec i) := by
  cases i with
  | cycle => cases hi
  | fadd sel =>
    intro s
    exact onFilter_simulates (op := fun k => State.addSample k s.din) (addSample_simulates hR · s.din) sel s
  | favg sel => exact onFilter_simulates (setDout_mean_simulates hR) sel
  | fcnt sel => exact onFilter_simulates (setDout_count_simulates hR) sel
  | fclr sel => exact onFilter_simulates (clear_simulates hR) sel
  | tpoll sel => exact onFan_simulates (pollPulse_simulates hR) sel
  | trpt sel => exact onFan_simulates (reportFan_simulates hR) sel
  | ckfs sel => exact onFan_simulates (checkFan_simulates hR) sel
  | mls => exact execMls_simulates hR
  | mlr => exact execMlr_simulates hR
  | mdp => exact execMdp_simulates hR
  | mtr => exact execMtr_simulates
  | mto => exact execMto_simulates
  | enc => exact execEnc_simulates
  | tstep => exact execTstep_simulates
  | msp | mti | mhu | mpf | mir | latch =>
    intro s t fs q hfs h
    cases h
    exact ⟨fs, rfl, hfs⟩
  | cklvl | ckcth | ckctl | ckchh | ckrth | ckrtl | ckoth | ckotl | ckdph | ckpmp =>
    intro s t fs q hfs h
    cases h
    exact ⟨fs, congrArg Host.Outcome.next (latchIf_swap s fs q _ _), by simpa using hfs⟩

end Sys2Proof.Machine
end

section
/-!
SUPPORT. Dead slots (spec/40_filter.md R125; 93_implementation_defined.md U4): windows that agree on all but
dead slots stay so under every command and every turn.
-/
namespace Sys2Proof.Machine

open Sys2Proof.Safety

/-! ### Windows that agree on what they hold -/

/-- Two windows that meet the invariants and agree on all but dead slots. -/
def LiveAlike (k : FilterId) (f g : FilterWindow) : Prop :=
  FilterInv (Config.cap k) f ∧ FilterInv (Config.cap k) g ∧ SameLive (Config.cap k) f g

theorem sameLive_refl (cap : Nat) (f : FilterWindow) : SameLive cap f f := ⟨rfl, rfl, rfl, rfl⟩

/-- A full window has no dead slot. -/
theorem eq_of_sameLive_of_full {cap : Nat} {f g : FilterWindow} (h : SameLive cap f g)
    (hfull : f.count = cap) : f = g := by
  obtain ⟨hhead, hcount, hsum, hheld⟩ := h
  have hbuf : f.buf = g.buf := by
    rw [heldSamples, heldSamples, if_neg (by omega), if_neg (by omega)] at hheld
    exact hheld
  cases f
  cases g
  simp_all

theorem LiveAlike.insert {k : FilterId} {f g : FilterWindow} (h : LiveAlike k f g) (x : Word) :
    LiveAlike k (filterInsert (Config.cap k) x f) (filterInsert (Config.cap k) x g) := by
  obtain ⟨hf, hg, hlive⟩ := h
  refine ⟨filterInsert_inv x (cap_pos k) (cap_le k) hf, filterInsert_inv x (cap_pos k) (cap_le k) hg, ?_⟩
  rcases Nat.lt_or_eq_of_le hf.count_le with hlt | hfull
  · obtain ⟨hhead, hcount, hsum, hheld⟩ := hlive
    have hlt' : g.count < Config.cap k := hcount ▸ hlt
    refine ⟨?_, ?_, ?_, ?_⟩
    · simp only [filterInsert, hhead]
    · simp only [filterInsert, hcount]
    · simp only [filterInsert, if_neg hlt.ne, if_neg hlt'.ne, hsum]
    · rw [heldSamples_insert_filling x hf hlt, heldSamples_insert_filling x hg hlt', hheld]
  · rw [eq_of_sameLive_of_full hlive hfull]
    exact sameLive_refl _ _

theorem heldSamples_cleared {cap : Nat} (hp : 0 < cap) (f : FilterWindow) :
    heldSamples cap (filterCleared f) = [] := by
  simp [heldSamples, filterCleared, hp]

theorem LiveAlike.cleared {k : FilterId} {f g : FilterWindow} (h : LiveAlike k f g) :
    LiveAlike k (filterCleared f) (filterCleared g) := by
  obtain ⟨hf, hg, -⟩ := h
  refine ⟨filterCleared_inv (cap_pos k) hf, filterCleared_inv (cap_pos k) hg, rfl, rfl, rfl, ?_⟩
  rw [heldSamples_cleared (cap_pos k), heldSamples_cleared (cap_pos k)]

theorem liveAlike_respected : Respected LiveAlike where
  insert h x := h.insert x
  cleared h := h.cleared
  count h := by
    obtain ⟨-, -, hlive⟩ := h
    exact hlive.count
  sum h := by
    obtain ⟨-, -, hlive⟩ := h
    exact hlive.sum

/-! ### Turns -/

/-- The operation does the same on two states that differ in dead slots only. -/
def IgnoresDeadSlots (F : State → Host.Outcome State Fault Refusal) : Prop :=
  ∀ (s t : State) (fs : FilterBank), RelatedBanks LiveAlike s.filters fs → F s = .next t →
    ∃ fs', F { s with filters := fs } = .next { t with filters := fs' } ∧
      RelatedBanks LiveAlike t.filters fs'

/-- Moving the phase on reads the sequencer alone. -/
theorem State.advancePhase_eq (s : State) : s.advancePhase = { s with seq := nextSequencer s.seq } := by
  unfold State.advancePhase nextSequencer
  split <;> rfl

theorem execCycle_ignoresDeadSlots (sel : Sel) : IgnoresDeadSlots (exec (.cycle sel)) := by
  intro s t fs hfs h
  simp only [exec, execCycle] at h ⊢
  split at h <;> cases h
  · refine ⟨fs, ?_, by simpa using hfs⟩
    rw [State.advancePhase_eq]
    rfl
  · exact ⟨fs, rfl, hfs⟩

theorem exec_ignoresDeadSlots (i : Instr) : IgnoresDeadSlots (exec i) := by
  cases hi : startsCycle i with
  | true =>
    cases i with
    | cycle sel => exact execCycle_ignoresDeadSlots sel
    | _ => cases hi
  | false =>
    intro s t fs hfs h
    obtain ⟨fs', hswap, hfs'⟩ := exec_simulates liveAlike_respected hi s t fs s.seq hfs h
    have heffect := exec_effect h
    rw [hi] at heffect
    have hseq : t.swap fs' s.seq = { t with filters := fs' } := by
      rw [← heffect.seq]
      rfl
    exact ⟨fs', hswap.trans (congrArg Host.Outcome.next hseq), hfs'⟩

theorem runByte_ignoresDeadSlots (b : Byte) : IgnoresDeadSlots (runByte b) := by
  intro s t fs hfs h
  cases hd : decodeByte b with
  | error e =>
    rw [runByte_of_error _ hd] at h ⊢
    cases h
    exact ⟨fs, rfl, hfs⟩
  | ok i =>
    rw [runByte_of_decode _ hd] at h ⊢
    exact exec_ignoresDeadSlots i s t fs hfs h

/-- A step that runs after another operation that ignores dead slots. -/
theorem andThen_advancePhase_ignoresDeadSlots {F : State → Host.Outcome State Fault Refusal}
    (hF : IgnoresDeadSlots F) : IgnoresDeadSlots (fun s => andThen (F s) State.advancePhase) := by
  intro s t fs hfs h
  cases hs : F s with
  | next u =>
    simp only [hs, andThen] at h
    cases h
    obtain ⟨fs', hu, hfs'⟩ := hF s u fs hfs hs
    refine ⟨fs', ?_, by simpa using hfs'⟩
    simp only [hu, andThen, State.advancePhase_eq]
  | fault r => simp [hs, andThen] at h
  | refused r => simp [hs, andThen] at h

theorem runWord_ignoresDeadSlots (w : RomWord) : IgnoresDeadSlots (runWord w) := by
  intro s t fs hfs h
  unfold runWord at h ⊢
  split at h
  · next hguard =>
    rw [if_pos hguard]
    exact andThen_advancePhase_ignoresDeadSlots (runByte_ignoresDeadSlots _) s t fs hfs h
  · next hguard =>
    cases h
    rw [if_neg hguard, State.advancePhase_eq, State.advancePhase_eq]
    exact ⟨fs, rfl, hfs⟩

theorem runEntry_ignoresDeadSlots : IgnoresDeadSlots runEntry := by
  intro s t fs hfs h
  cases hw : scheduleRom[s.seq.phase.toNat]? with
  | none => simp [runEntry, hw] at h
  | some w =>
    simp only [runEntry, hw] at h ⊢
    exact runWord_ignoresDeadSlots w s t fs hfs h

theorem reset_liveAlike : RelatedBanks LiveAlike State.reset.filters State.reset.filters :=
  fun k => ⟨reset_filters_inv k, reset_filters_inv k, sameLive_refl _ _⟩

/-- Every turn, by the head of the list. -/
theorem step_ignoresDeadSlots : IgnoresDeadSlots step := by
  intro s t fs hfs h
  cases step_cases h with
  | idle e hb he => exact ⟨fs, step_idle hb he, hfs⟩
  | entry e t hb he ht =>
    obtain ⟨fs', hrun, hfs'⟩ := runEntry_ignoresDeadSlots
      { s with env := e, frameStrobe := false } t fs hfs ht
    have hstep := step_inCycle (s := { s with filters := fs }) (rest := e) hb he
    exact ⟨fs', hstep.trans hrun, hfs'⟩
  | command b d e t hb he ht =>
    obtain ⟨fs', hrun, hfs'⟩ := runByte_ignoresDeadSlots b
      { s with env := e, din := d, frameStrobe := false } t fs hfs ht
    have hstep := step_presents (s := { s with filters := fs }) (b := b) (d := d) (rest := e) ⟨hb, he⟩
    exact ⟨fs', hstep.trans hrun, hfs'⟩
  | edge f us e he =>
    rw [pulseTach_eq]
    exact ⟨fs, step_edge he, hfs⟩
  | tach f level us e he =>
    rw [driveTach_eq]
    exact ⟨fs, step_tach he, hfs⟩
  | inputs p e he => exact ⟨fs, step_inputs he, hfs⟩
  | settings r e he => exact ⟨fs, step_settings he, hfs⟩
  | powerCycle e he => exact ⟨State.reset.filters, step_powerCycle he, reset_liveAlike⟩

/-- Settles O15: the invariants of the two states make their windows alike, and a step leaves them so. -/
theorem deadSlotsAreNeverObserved : Obligations.DeadSlotsAreNeverObserved := by
  intro s s' t hi hi' hsame h
  obtain ⟨hrest, hlive⟩ := hsame
  obtain ⟨fs', hstep, hfs'⟩ :=
    step_ignoresDeadSlots s t s'.filters (fun k => ⟨hi.filter k, hi'.filter k, hlive k⟩) h
  rw [← hrest] at hstep
  refine ⟨_, hstep, rfl, fun k => ?_⟩
  obtain ⟨-, -, hk⟩ := hfs' k
  exact hk

end Sys2Proof.Machine
end

section
/-!
SUPPORT. The control cycle (spec/46_cycle.md R280 to R284): CYCLE's own step, the sequencer's steps by the
schedule's table, and what `cmd_err` sees of them (spec/30_encoding.md R101).
-/
namespace Sys2Proof.Machine

open Sys2Proof.Safety

/-! ### CYCLE -/

/-- The selector of a report flag (30_encoding.md R91). -/
def reportNumber (r : Bool) : Sel := if r then 1 else 0

theorem decodeByte_cycle (sel : Sel) : decodeByte (formByte 0xF8 sel) = formatC 31 sel .cycle :=
  decodeByte_formByte 31 sel

theorem formatC_reportNumber (op : BitVec 5) (r : Bool) (mk : Sel → Instr) :
    formatC op (reportNumber r) mk = .ok (mk (reportNumber r)) := by
  cases r <;> rfl

theorem formatC_illegal (op : BitVec 5) {sel : Sel} (h : 1 < sel.toNat) (mk : Sel → Instr) :
    formatC op sel mk = .error (.illegalSelector op sel) :=
  if_neg (by simpa [legalReportSel] using h)

/-- The start of a cycle with its entry 0, MSP (46_cycle.md R280). -/
theorem exec_cycle (r : Bool) (s : State) :
    exec (.cycle (reportNumber r)) s = .next { s with
      rd := { s.rd with setpoint := s.inp.setpoint }
      seq := { phase := 1, busy := true, rpt := r } } := by
  cases r <;> rfl

/-- Settles O43: CYCLE by its selector. -/
theorem cycleStartsWithEntryZero : Obligations.CycleStartsWithEntryZero := by
  refine ⟨fun r s => ⟨?_, exec_cycle r s⟩, fun sel s hsel => ⟨?_, exec_cycle_illegal hsel s⟩⟩
  · exact encodes_of_decodeByte ((decodeByte_cycle _).trans (formatC_reportNumber 31 r .cycle))
  · exact rejected_of_decodeByte ((decodeByte_cycle sel).trans (formatC_illegal 31 hsel .cycle))

/-! ### The schedule -/

/-- Settles O44: word by word. -/
theorem romHoldsTheSchedule : Obligations.RomHoldsTheSchedule := by
  unfold Obligations.RomHoldsTheSchedule
  rfl

/-- The ROM word behind a row of the schedule. -/
theorem scheduleRom_of_table {n : Nat} {g : Bool} {i : Instr} (h : scheduleTable[n]? = some (g, i)) :
    ∃ w, scheduleRom[n]? = some w ∧ romGuard w = g ∧ decodeByte (romCommand w) = .ok i := by
  have hrow : (scheduleRom.map fun w => (romGuard w, decode [romCommand w]))[n]? =
      some (g, .ok (i, [])) := by
    rw [romHoldsTheSchedule]
    simp [h]
  rw [List.getElem?_map, Option.map_eq_some_iff] at hrow
  obtain ⟨w, hw, hrow⟩ := hrow
  obtain ⟨hguard, hdecode⟩ := Prod.mk.inj hrow
  exact ⟨w, hw, hguard, (decode_cons_ok hdecode).1⟩

/-- The schedule holds no CYCLE. -/
theorem scheduleTable_no_cycle : ∀ e ∈ scheduleTable, startsCycle e.2 = false := by decide

theorem startsCycle_of_row {n : Nat} {g : Bool} {i : Instr} (h : scheduleTable[n]? = some (g, i)) :
    startsCycle i = false :=
  scheduleTable_no_cycle (g, i) (List.mem_of_getElem? h)

/-- A command of the schedule leaves the sequencer to the sequencer (46_cycle.md R283). -/
theorem exec_row_seq {n : Nat} {g : Bool} {i : Instr} {s t : State}
    (hrow : scheduleTable[n]? = some (g, i)) (h : exec i s = .next t) : t.seq = s.seq := by
  have heffect := exec_effect h
  rw [startsCycle_of_row hrow] at heffect
  exact heffect.seq

theorem runEntry_of_row {s : State} {g : Bool} {i : Instr}
    (h : scheduleTable[s.seq.phase.toNat]? = some (g, i)) :
    runEntry s = if entryExecutes g s.seq.rpt then andThen (exec i s) State.advancePhase
      else .next s.advancePhase := by
  obtain ⟨w, hw, rfl, hdecode⟩ := scheduleRom_of_table h
  simp only [runEntry, hw, runWord, runByte_of_decode s hdecode]

/-- Settles O6: the sequencer's entry is the row of the table, executed or skipped by its guard. -/
theorem stepRunsTheScheduleEntry : Obligations.StepRunsTheScheduleEntry := by
  intro s rest g i hbusy hmain hrow
  have hentry := runEntry_of_row (s := { s with env := rest, frameStrobe := false }) hrow
  have hstep := (step_inCycle hbusy hmain).trans hentry
  refine ⟨fun hguard hrpt => ?_, fun hexecutes => ?_⟩
  · have hskip : entryExecutes g s.seq.rpt = false := by simp [entryExecutes, hguard, hrpt]
    rw [hstep, if_neg (by simpa using hskip), State.advancePhase_eq]
  · have hrun : entryExecutes g s.seq.rpt = true := by simpa [entryExecutes] using hexecutes
    obtain ⟨t, ht⟩ := exec_completes i { s with env := rest, frameStrobe := false }
    have hseq := exec_row_seq hrow ht
    refine ⟨t, ht, hseq, ?_⟩
    rw [hstep, if_pos (by exact hrun), ht]
    exact congrArg Host.Outcome.next t.advancePhase_eq

/-! ### The sticky error bit -/

/-- No schedule entry raises `cmd_err`: the ROM's bytes are legal (30_encoding.md R101). -/
theorem runWord_cmdErr {w : RomWord} (hw : w ∈ scheduleRom) {s t : State} (h : runWord w s = .next t) :
    t.cmdErr = s.cmdErr := by
  unfold runWord at h
  split at h
  · have hlegal := scheduleRom_legal w hw
    cases hd : decodeByte (romCommand w) with
    | error e => simp [romInstr, hd] at hlegal
    | ok i =>
      obtain ⟨u, hu⟩ := exec_completes i s
      rw [runByte_of_decode s hd, hu] at h
      cases h
      obtain ⟨hwf, -⟩ := decodeFields_ok hd
      simpa using (exec_cases hu).cmdErr hwf
  · cases h
    simp

theorem runEntry_cmdErr {s t : State} (h : runEntry s = .next t) : t.cmdErr = s.cmdErr := by
  cases hw : scheduleRom[s.seq.phase.toNat]? with
  | none => simp [runEntry, hw] at h
  | some w =>
    simp only [runEntry, hw] at h
    exact runWord_cmdErr (List.mem_of_getElem? hw) h

/-- A byte taken from the port sets `cmd_err` exactly when it is illegal. -/
theorem runByte_cmdErr {b : Byte} {s t : State} (h : runByte b s = .next t) :
    t.cmdErr = true ↔ s.cmdErr = true ∨ ∃ e, decode [b] = .error e := by
  rw [decode_singleton_error_iff]
  cases hd : decodeByte b with
  | error e =>
    rw [runByte_of_error s hd] at h
    cases h
    simp
  | ok i =>
    rw [runByte_of_decode s hd] at h
    obtain ⟨hwf, -⟩ := decodeFields_ok hd
    simp [(exec_cases h).cmdErr hwf]

/-- An illegal byte is at the head of the list, before an idle port. -/
def TakesIllegalByte (s : State) : Prop :=
  s.seq.busy = false ∧ ∃ b d rest e, s.env = .command b d :: rest ∧ decode [b] = .error e

/-- Only the turn that takes a byte from the port can set the bit. -/
theorem Turn.cmdErr_iff {s t : State} (h : Turn s t) (hp : NoPowerCycle s) :
    t.cmdErr = true ↔ s.cmdErr = true ∨ TakesIllegalByte s := by
  cases h with
  | command b d e t hb he ht =>
    rw [runByte_cmdErr ht]
    simp [TakesIllegalByte, hb, he]
  | entry e t hb he ht =>
    rw [runEntry_cmdErr ht]
    simp [TakesIllegalByte, hb]
  | idle e hb he =>
    obtain ⟨hnil, -⟩ | hmain := he
    · simp [TakesIllegalByte, hnil]
    · simp [TakesIllegalByte, hmain]
  | edge f us e he => simp [TakesIllegalByte, he, pulseTach_eq]
  | tach f level us e he => simp [TakesIllegalByte, he, driveTach_eq]
  | inputs p e he => simp [TakesIllegalByte, he]
  | settings r e he => simp [TakesIllegalByte, he]
  | powerCycle e he => exact absurd (congrArg List.head? he) hp

/-- Settles O35: the turn's equivalence; letting the strobe down touches none of it. -/
theorem cmdErrIsStickyAndSetByIllegalBytesOnly :
    Obligations.CmdErrIsStickyAndSetByIllegalBytesOnly := by
  intro s t _ hp h
  exact (step_cases h).cmdErr_iff hp

end Sys2Proof.Machine
end

section
/-!
SUPPORT. Whole cycles (spec/46_cycle.md R280 to R284): a CYCLE that nothing disturbs is its commands one
after another, and a CYCLE ends whatever the environment does.
-/
namespace Sys2Proof.Machine

open Sys2Proof.Safety

/-! ### Commands and the sequencer -/

/-- Equal filters are a case of filters that agree. -/
theorem eq_respected : Respected (fun _ => Eq) where
  insert h _ := by rw [h]
  cleared h := by rw [h]
  count h := by rw [h]
  sum h := by rw [h]

/-- The state with another sequencer. -/
def State.withSeq (q : Sequencer) (s : State) : State := { s with seq := q }

/-- A command but CYCLE does the same whatever the sequencer holds. -/
theorem exec_withSeq {i : Instr} (hi : startsCycle i = false) {s t : State} (q : Sequencer)
    (h : exec i s = .next t) : exec i (s.withSeq q) = .next (t.withSeq q) := by
  obtain ⟨fs, hswap, hfs⟩ := exec_simulates eq_respected hi s t s.filters q (fun _ => rfl) h
  have hsame : t.filters = fs := FilterBank.ext_get hfs
  rw [← hsame] at hswap
  exact hswap

theorem runCommands_append {xs ys : List Instr} :
    ∀ {s t : State}, runCommands xs s = .next t → runCommands (xs ++ ys) s = runCommands ys t := by
  induction xs with
  | nil =>
    intro s t h
    cases h
    rfl
  | cons i xs ih =>
    intro s t h
    obtain ⟨u, hu⟩ := exec_completes i s
    simp only [runCommands, hu, List.cons_append] at h ⊢
    exact ih h

/-! ### A cycle that nothing disturbs -/

/-- The environment places nothing but commands, which wait while a cycle runs (log 10). -/
def Quiet (env : List EnvAction) : Prop := env = [] ∨ ∃ b d rest, env = .command b d :: rest

theorem mainAgentSteps_of_quiet {s : State} (h : Quiet s.env) : MainAgentSteps s s.env := by
  obtain henv | ⟨b, d, rest, henv⟩ := h
  · exact .inl ⟨henv, henv⟩
  · exact .inr (.inl ⟨b, d, rest, henv, rfl⟩)

/-- The commands that the rows execute with report flag `r` (46_cycle.md R282). -/
def rowCommands (r : Bool) (rows : List (Bool × Instr)) : List Instr :=
  (rows.filter fun e => !e.1 || r).map Prod.snd

theorem rowCommands_cons (r : Bool) (e : Bool × Instr) (rows : List (Bool × Instr)) :
    rowCommands r (e :: rows) = rowCommands r [e] ++ rowCommands r rows := by
  simp only [rowCommands, ← List.map_append, ← List.filter_append, List.singleton_append]

/-- One step of a cycle that nothing disturbs executes the commands of its row. -/
theorem step_row {u : State} {q : Sequencer} {g : Bool} {i : Instr} (hbusy : q.busy = true)
    (hrow : scheduleTable[q.phase.toNat]? = some (g, i)) (hquiet : Quiet u.env)
    (hstrobe : u.frameStrobe = false) :
    ∃ v, runCommands (rowCommands q.rpt [(g, i)]) u = .next v ∧
      step (u.withSeq q) = .next (v.withSeq (nextSequencer q)) ∧ v.env = u.env ∧
      (i ≠ .enc → v.frameStrobe = false) := by
  have hmain : MainAgentSteps (u.withSeq q) u.env := mainAgentSteps_of_quiet (s := u.withSeq q) hquiet
  have hsame : { u.withSeq q with env := u.env, frameStrobe := false } = u.withSeq q := by
    rw [← hstrobe]
    rfl
  obtain ⟨hskip, hrun⟩ := stepRunsTheScheduleEntry (u.withSeq q) u.env g i hbusy hmain hrow
  cases hexecutes : !g || q.rpt with
  | false =>
    obtain ⟨hg, hr⟩ : g = true ∧ q.rpt = false := by simpa using hexecutes
    refine ⟨u, by simp [rowCommands, hg, hr, runCommands], ?_, rfl, fun _ => hstrobe⟩
    rw [hskip hg hr, ← hstrobe]
    rfl
  | true =>
    have hg : g = false ∨ q.rpt = true := by simpa using hexecutes
    obtain ⟨t, ht, -, hstep⟩ := hrun hg
    obtain ⟨v, hv⟩ := exec_completes i u
    rw [hsame, exec_withSeq (startsCycle_of_row hrow) q hv] at ht
    cases ht
    have heffect := exec_cases hv
    obtain ⟨-, -, -, -, henv, -⟩ := (exec_effect hv).inputs
    refine ⟨v, by simp [rowCommands, hexecutes, runCommands, hv], hstep, henv, fun hi => ?_⟩
    obtain ⟨-, -, hkept⟩ := heffect.frame hi
    rw [hkept, hstrobe]

/-- ENC is the last row of the schedule. -/
theorem not_enc_of_row {n : Nat} {g : Bool} {i : Instr} (h : scheduleTable[n]? = some (g, i))
    (hn : n < 29) : i ≠ .enc := by
  have hlast : ∀ n < 29, scheduleTable[n]?.map Prod.snd ≠ some .enc := by decide
  rintro rfl
  exact hlast n hn (by rw [h]; rfl)

theorem scheduleTable_length : scheduleTable.length = 30 := rfl

/-- The sequencer inside a cycle at phase `p`. -/
def cycleAt (p : Nat) (r : Bool) : Sequencer := { phase := BitVec.ofNat 5 p, busy := true, rpt := r }

theorem cycleAt_phase {p : Nat} (hp : p < 30) (r : Bool) : (cycleAt p r).phase.toNat = p := by
  simp only [cycleAt, BitVec.toNat_ofNat]
  exact Nat.mod_eq_of_lt (by omega)

theorem nextSequencer_cycleAt {p : Nat} (hp : p < 29) (r : Bool) :
    nextSequencer (cycleAt p r) = cycleAt (p + 1) r := by
  have hne : (cycleAt p r).phase ≠ 29 := by
    intro h
    have hphase := cycleAt_phase (p := p) (by omega) r
    rw [h] at hphase
    simp at hphase
    omega
  rw [nextSequencer, if_neg hne]
  simp [cycleAt, BitVec.ofNat_add]

/-- The rows that are left of an undisturbed cycle, executed to its end. -/
theorem run_rows (r : Bool) (rows : List (Bool × Instr)) :
    ∀ {p : Nat} {u : State}, scheduleTable.drop p = rows → rows ≠ [] → Quiet u.env →
      u.frameStrobe = false → ∃ t, runCommands (rowCommands r rows) u = .next t ∧
        core.run rows.length (u.withSeq (cycleAt p r)) =
          .next (t.withSeq { phase := 0, busy := false, rpt := r }) := by
  induction rows with
  | nil => exact fun _ h => absurd rfl h
  | cons e rest ih =>
    intro p u hdrop _ hquiet hstrobe
    obtain ⟨g, i⟩ := e
    have hlen := congrArg List.length hdrop
    rw [List.length_drop, scheduleTable_length, List.length_cons] at hlen
    have hrow : scheduleTable[(cycleAt p r).phase.toNat]? = some (g, i) := by
      rw [cycleAt_phase (by omega), ← List.head?_drop, hdrop]
      rfl
    obtain ⟨v, hv, hstep, henv, hdown⟩ := step_row rfl hrow hquiet hstrobe
    have hrun : runCommands (rowCommands r ((g, i) :: rest)) u = runCommands (rowCommands r rest) v := by
      rw [rowCommands_cons]
      exact runCommands_append hv
    rw [hrun, List.length_cons, run_of_step _ hstep]
    cases rest with
    | nil =>
      have hp : p = 29 := by simp at hlen; omega
      subst hp
      exact ⟨v, rfl, rfl⟩
    | cons e' rest =>
      have hp : p < 29 := by simp at hlen; omega
      rw [cycleAt_phase (by omega)] at hrow
      rw [nextSequencer_cycleAt hp]
      refine ih ?_ (by simp) (henv ▸ hquiet) (hdown (not_enc_of_row hrow hp))
      rw [← List.drop_drop, hdrop]
      rfl

/-- Settles O45: CYCLE's own step executes MSP, and the rows that are left follow. -/
theorem cycleEqualsItsEntries : Obligations.CycleEqualsItsEntries := by
  intro s r d rest hpresents hquiet
  have hdecode : decodeByte (if r then 0xF9 else 0xF8) = .ok (.cycle (reportNumber r)) := by
    cases r <;> rfl
  have hstep : step s = .next (State.withSeq (cycleAt 1 r)
      { s with
        env := rest, din := d, frameStrobe := false, rd := { s.rd with setpoint := s.inp.setpoint } }) := by
    rw [step_presents hpresents, runByte_of_decode _ hdecode, exec_cycle]
    rfl
  have hquiet' : Quiet rest := hquiet
  obtain ⟨t, ht, hrun⟩ := run_rows r (scheduleTable.drop 1) (p := 1)
    (u := { s with
      env := rest, din := d, frameStrobe := false, rd := { s.rd with setpoint := s.inp.setpoint } })
    rfl (by decide) hquiet' rfl
  refine ⟨t, ?_, (run_of_step 29 hstep).trans hrun⟩
  rw [← ht]
  rfl

end Sys2Proof.Machine
end

section
/-!
SUPPORT. A CYCLE ends (spec/46_cycle.md R284): each step of a running one takes an entry or an action of the
list, and there are finitely many of both.
-/
namespace Sys2Proof.Machine

open Sys2Proof.Safety

/-- The frames after an entry: ENC, the last one, sends one, and no other does (46_cycle.md R281). -/
def FramesAfterEntry (s t : State) : Prop :=
  (s.seq.phase.toNat < 29 → t.frames = s.frames) ∧
    (s.seq.phase.toNat = 29 → ∃ frame, t.frames = s.frames ++ [frame])

theorem runEntry_frames {s t : State} (h : runEntry s = .next t) : FramesAfterEntry s t := by
  constructor <;> intro hphase
  · have hlen : s.seq.phase.toNat < scheduleTable.length := by rw [scheduleTable_length]; omega
    obtain ⟨⟨g, i⟩, hrow⟩ : ∃ e, scheduleTable[s.seq.phase.toNat]? = some e :=
      ⟨_, List.getElem?_eq_getElem hlen⟩
    rw [runEntry_of_row hrow] at h
    split at h
    · obtain ⟨u, hu⟩ := exec_completes i s
      rw [hu] at h
      cases h
      obtain ⟨-, hframes, -⟩ := (exec_cases hu).frame (not_enc_of_row hrow hphase)
      simpa using hframes
    · cases h
      simp
  · have hrow : scheduleTable[s.seq.phase.toNat]? = some (false, .enc) := by rw [hphase]; rfl
    obtain ⟨m, hm, -⟩ := execEnc_eq s
    have henc : exec .enc s = .next { s with fb := m }.emitFrame := hm
    rw [runEntry_of_row hrow, henc] at h
    cases h
    exact ⟨frameBytes m, by simp⟩

/-- What a step does while a CYCLE runs. -/
inductive BusyStep (s : State) : State → Prop where
  | entry {t : State} (hmain : MainAgentSteps s t.env) (hseq : t.seq = nextSequencer s.seq)
      (hframes : FramesAfterEntry s t) : BusyStep s t
  | action {t : State} {a : EnvAction} (henv : s.env = a :: t.env) (hseq : t.seq = s.seq)
      (hframes : t.frames = s.frames) : BusyStep s t
  | powerCycle {t : State} (henv : .powerCycle ∈ s.env) (hbusy : t.seq.busy = false)
      (hphase : t.seq.phase = 0) : BusyStep s t

theorem Turn.busyStep {s t : State} (h : Turn s t) (hbusy : s.seq.busy = true) : BusyStep s t := by
  cases h with
  | idle e hb he => simp [hbusy] at hb
  | command b d e t hb he ht => simp [hbusy] at hb
  | entry e t hb he ht =>
    have hframes := runEntry_frames ht
    obtain ⟨u, rfl, heffect⟩ := effect_of_runEntry ht
    obtain ⟨-, -, -, -, henv, -⟩ := heffect.inputs
    refine .entry ?_ (by rw [State.advancePhase_seq, heffect.seq]) hframes
    simpa [henv] using he
  | edge f us e he =>
    rw [pulseTach_eq]
    exact .action he rfl rfl
  | tach f level us e he =>
    rw [driveTach_eq]
    exact .action he rfl rfl
  | inputs p e he => exact .action he rfl rfl
  | settings r e he => exact .action he rfl rfl
  | powerCycle e he => exact .powerCycle (by simp [he]) rfl rfl

/-- The strobe is no part of what a running CYCLE does. -/
theorem busyStep_of_lowerStrobe {s t : State} (h : BusyStep s.lowerStrobe t) : BusyStep s t := by
  cases h with
  | entry hmain hseq hframes => exact .entry hmain hseq hframes
  | action henv hseq hframes => exact .action henv hseq hframes
  | powerCycle henv hbusy hphase => exact .powerCycle henv hbusy hphase

/-- A step while a CYCLE runs, from a state that meets the invariant. -/
theorem step_busy {s : State} (hi : Inv s) (hbusy : s.seq.busy = true) :
    ∃ t, step s = .next t ∧ Inv t ∧ BusyStep s t := by
  obtain ⟨t, ht⟩ := nothingStopsTheBlock s hi
  exact ⟨t, ht, stepKeepsTheInvariant s t hi ht, busyStep_of_lowerStrobe ((step_cases ht).busyStep hbusy)⟩

/-- The main agent's step takes nothing from the list but its own turn. -/
theorem suffix_of_mainAgentSteps {s : State} {rest : List EnvAction} (h : MainAgentSteps s rest) :
    rest <:+ s.env := by
  obtain ⟨henv, rfl⟩ | ⟨b, d, r, henv, rfl⟩ | henv := h
  · exact List.nil_suffix
  · exact List.suffix_refl _
  · rw [henv]
    exact List.suffix_cons _ _

/-- After an entry the cycle is over, or one entry less is left. -/
theorem nextSequencer_cases {q : Sequencer} (hphase : q.phase.toNat ≤ 29) :
    (q.phase.toNat = 29 ∧ (nextSequencer q).busy = false ∧ (nextSequencer q).phase = 0) ∨
      (q.phase.toNat < 29 ∧ (nextSequencer q).busy = q.busy ∧
        (nextSequencer q).phase.toNat = q.phase.toNat + 1) := by
  unfold nextSequencer
  split
  · next hlast => exact .inl ⟨by rw [hlast]; rfl, rfl, rfl⟩
  · next hne =>
    have hne' : q.phase.toNat ≠ 29 := fun hc => hne (BitVec.eq_of_toNat_eq hc)
    refine .inr ⟨by omega, rfl, ?_⟩
    rw [BitVec.toNat_add]
    exact Nat.mod_eq_of_lt (by simp; omega)

/-- The entries left and the actions in the list bound the steps to the end of the cycle. -/
theorem run_busy (n : Nat) :
    ∀ {s : State}, Inv s → s.seq.busy = true → 30 - s.seq.phase.toNat + s.env.length ≤ n →
      ∃ k t, k ≤ 30 - s.seq.phase.toNat + s.env.length ∧ core.run k s = .next t ∧
        t.seq.busy = false ∧ t.seq.phase = 0 ∧
        (.powerCycle ∉ s.env → ∃ frame, t.frames = s.frames ++ [frame]) := by
  induction n with
  | zero =>
    intro s hi _ hn
    have hphase := phase_le_of_inv hi
    omega
  | succ n ih =>
    intro s hi hbusy hn
    have hphase := phase_le_of_inv hi
    obtain ⟨t, ht, hit, hstep⟩ := step_busy hi hbusy
    cases hstep with
    | powerCycle henv hbusy' hphase' =>
      exact ⟨1, t, by omega, (run_one s).trans ht, hbusy', hphase', fun hno => absurd henv hno⟩
    | action henv hseq hframes =>
      have hlen := congrArg List.length henv
      rw [List.length_cons] at hlen
      obtain ⟨k, u, hk, hrun, hidle, hzero, hsent⟩ := ih hit (hseq ▸ hbusy) (by rw [hseq]; omega)
      refine ⟨k + 1, u, by rw [hseq] at hk; omega, (run_of_step k ht).trans hrun, hidle, hzero, fun hno => ?_⟩
      rw [← hframes]
      exact hsent fun hmem => hno (by rw [henv]; exact List.mem_cons_of_mem _ hmem)
    | entry hmain hseq hframes =>
      obtain ⟨hbefore, hlast⟩ := hframes
      have hsuffix := suffix_of_mainAgentSteps hmain
      have hlen := hsuffix.length_le
      obtain ⟨hend, hidle, hzero⟩ | ⟨hlt, hon, hnext⟩ := nextSequencer_cases hphase
      · exact ⟨1, t, by omega, (run_one s).trans ht, hseq ▸ hidle, hseq ▸ hzero, fun _ => hlast hend⟩
      · rw [← hseq] at hon hnext
        obtain ⟨k, u, hk, hrun, hidle, hzero, hsent⟩ := ih hit (hon.trans hbusy) (by omega)
        refine ⟨k + 1, u, by omega, (run_of_step k ht).trans hrun, hidle, hzero, fun hno => ?_⟩
        rw [← hbefore hlt]
        exact hsent fun hmem => hno (hsuffix.mem hmem)

/-- With an empty list each step takes an entry. -/
theorem run_busy_nil (n : Nat) :
    ∀ {s : State}, Inv s → s.seq.busy = true → s.env = [] → 30 - s.seq.phase.toNat = n →
      ∃ t, core.run n s = .next t ∧ t.seq.busy = false ∧ t.seq.phase = 0 := by
  induction n with
  | zero =>
    intro s hi _ _ hn
    have hphase := phase_le_of_inv hi
    omega
  | succ n ih =>
    intro s hi hbusy hnil hn
    obtain ⟨t, ht, hit, hstep⟩ := step_busy hi hbusy
    rw [run_of_step n ht]
    cases hstep with
    | powerCycle henv => simp [hnil] at henv
    | action henv => simp [hnil] at henv
    | entry hmain hseq hframes =>
      have hnil' : t.env = [] := List.suffix_nil.1 (hnil ▸ suffix_of_mainAgentSteps hmain)
      obtain ⟨hend, hidle, hzero⟩ | ⟨hlt, hon, hnext⟩ := nextSequencer_cases (phase_le_of_inv hi)
      · have hn' : n = 0 := by omega
        subst hn'
        exact ⟨t, rfl, hseq ▸ hidle, hseq ▸ hzero⟩
      · rw [← hseq] at hon hnext
        exact ih hit (hon.trans hbusy) hnil' (by omega)

/-- Settles O46: by induction on the entries and actions that are left. -/
theorem cycleAlwaysEnds : Obligations.CycleAlwaysEnds :=
  ⟨fun _ hi hbusy => run_busy _ hi hbusy le_rfl, fun _ hi hbusy hnil => run_busy_nil _ hi hbusy hnil rfl⟩

end Sys2Proof.Machine
end

section
/-!
SUPPORT. The commands' own rules: the filters' (spec/40_filter.md R120 to R125), the measurements'
(spec/42_measure.md R160 to R169) and the checks' (spec/43_fault_monitor.md R191 to R208).
-/
namespace Sys2Proof.Machine

open Sys2Proof.Safety

/-! ### Filter commands -/

/-- The encoding entry of a format F command: five bytes are its commands, the other three are illegal
(30_encoding.md R91, R101). -/
theorem encoding_of_formatF {base : Byte} {op : BitVec 5} {mk : Sel → Instr}
    (h : ∀ sel : Sel, decodeByte (formByte base sel) = formatF op sel mk) :
    (∀ k, Encodes (formByte base (filterNumber k)) (mk (filterNumber k))) ∧
      ∀ sel : Sel, 4 < sel.toNat → Rejected (formByte base sel) :=
  ⟨fun k => encodes_of_decodeByte ((h _).trans (formatF_filterNumber op k mk)),
    fun sel hsel => rejected_of_decodeByte ((h sel).trans (formatF_illegal op hsel mk))⟩

theorem exec_fadd (k : FilterId) (s : State) :
    exec (.fadd (filterNumber k)) s = .next (s.addSample k s.din) :=
  onFilter_filterNumber k (fun k s => s.addSample k s.din) s

theorem exec_favg (k : FilterId) (s : State) :
    exec (.favg (filterNumber k)) s = .next (s.setDout (filterMean (s.filters.get k))) :=
  onFilter_filterNumber k (fun k s => s.setDout (filterMean (s.filters.get k))) s

theorem exec_fclr (k : FilterId) (s : State) :
    exec (.fclr (filterNumber k)) s = .next (s.setFilter k (filterCleared (s.filters.get k))) :=
  onFilter_filterNumber k (fun k s => s.setFilter k (filterCleared (s.filters.get k))) s

/-- Settles O10: FADD is one insertion of `din`. -/
theorem faddInsertsOneSample : Obligations.FaddInsertsOneSample := by
  obtain ⟨hencodes, hrejected⟩ := encoding_of_formatF (mk := .fadd) (decodeByte_formByte 1)
  exact ⟨fun k s => ⟨hencodes k, exec_fadd k s⟩,
    fun sel s hsel => ⟨hrejected sel hsel, onFilter_illegal hsel (fun k s => s.addSample k s.din) s⟩⟩

/-- Settles O11: FAVG is one write of `dout`. -/
theorem favgReadsTheMean : Obligations.FavgReadsTheMean := by
  obtain ⟨hencodes, hrejected⟩ := encoding_of_formatF (mk := .favg) (decodeByte_formByte 2)
  exact ⟨fun k s => ⟨hencodes k, exec_favg k s⟩, fun sel s hsel => ⟨hrejected sel hsel,
    onFilter_illegal hsel (fun k s => s.setDout (filterMean (s.filters.get k))) s⟩⟩

/-- Settles O13: FCLR empties the window and keeps its slots. -/
theorem fclrEmptiesTheFilter : Obligations.FclrEmptiesTheFilter := by
  obtain ⟨hencodes, hrejected⟩ := encoding_of_formatF (mk := .fclr) (decodeByte_formByte 4)
  exact ⟨fun k s => ⟨hencodes k, exec_fclr k s⟩, fun sel s hsel => ⟨hrejected sel hsel,
    onFilter_illegal hsel (fun k s => s.setFilter k (filterCleared (s.filters.get k))) s⟩⟩

/-! ### Measurements -/

/-- Settles O20: each is one write of Readings from a port. -/
theorem portsAreCopiedIntoReadings : Obligations.PortsAreCopiedIntoReadings := by
  obtain ⟨hmsp, rmsp⟩ := encoding_of_formatN (base := 0x38) (i := .msp) (decodeByte_formByte 7)
  obtain ⟨hmti, rmti⟩ := encoding_of_formatN (base := 0x68) (i := .mti) (decodeByte_formByte 13)
  obtain ⟨hmhu, rmhu⟩ := encoding_of_formatN (base := 0x70) (i := .mhu) (decodeByte_formByte 14)
  exact fun s => ⟨⟨hmsp, rfl⟩, ⟨hmti, rfl⟩, ⟨hmhu, rfl⟩,
    fun sel hsel => ⟨rmsp sel hsel, rmti sel hsel, rmhu sel hsel⟩⟩

/-- The window that MLS leaves, with its mean (42_measure.md R161). -/
theorem exec_mls (s : State) :
    let f := filterInsert 100 (zext32 s.inp.levelSenseRaw) s.filters.levelSense
    exec .mls s = .next { s with
      filters := { s.filters with levelSense := f }
      rd := { s.rd with levelSense := rne32 f.sum.toNat f.count } } := by
  intro f
  rw [← filterMean_insert (by norm_num)]
  rfl

theorem exec_mlr (s : State) :
    let f := filterInsert 100 (zext32 s.inp.levelRefRaw) s.filters.levelRef
    exec .mlr s = .next { s with
      filters := { s.filters with levelRef := f }
      rd := { s.rd with levelRef := rne32 f.sum.toNat f.count } } := by
  intro f
  rw [← filterMean_insert (by norm_num)]
  rfl

/-- Settles O21: each feeds its filter, which then holds a sample, and writes the mean of the new window. -/
theorem rawSamplesAreSmoothed : Obligations.RawSamplesAreSmoothed := by
  obtain ⟨hmls, rmls⟩ := encoding_of_formatN (base := 0x40) (i := .mls) (decodeByte_formByte 8)
  obtain ⟨hmlr, rmlr⟩ := encoding_of_formatN (base := 0x48) (i := .mlr) (decodeByte_formByte 9)
  obtain ⟨hmdp, rmdp⟩ := encoding_of_formatN (base := 0x50) (i := .mdp) (decodeByte_formByte 10)
  have hcap : 0 < 100 := by norm_num
  exact ⟨fun s => ⟨hmls, filterInsert_count_pos hcap _ _, exec_mls s⟩,
    fun s => ⟨hmlr, filterInsert_count_pos hcap _ _, exec_mlr s⟩,
    fun s => ⟨hmdp, filterInsert_count_pos hcap _ _, rfl⟩,
    fun sel hsel => ⟨rmls sel hsel, rmlr sel hsel, rmdp sel hsel⟩⟩

/-- Settles O22: the `ok` bit selects one of MTR's two writes. -/
theorem mtrSubstitutesZeroAndLatches : Obligations.MtrSubstitutesZeroAndLatches := by
  obtain ⟨hencodes, hrejected⟩ := encoding_of_formatN (base := 0x58) (i := .mtr) (decodeByte_formByte 11)
  exact ⟨fun s => ⟨hencodes, exec_mtr_of_ok, exec_mtr_of_not_ok⟩, hrejected⟩

/-- Settles O25: MIR is one write of Readings. -/
theorem mirMirrorsOutputsAndElapsedTimes : Obligations.MirMirrorsOutputsAndElapsedTimes := by
  obtain ⟨hencodes, hrejected⟩ := encoding_of_formatN (base := 0x80) (i := .mir) (decodeByte_formByte 16)
  exact ⟨fun s => ⟨hencodes, rfl⟩, hrejected⟩

/-! ### Checks -/

/-- A check by a condition, whatever Boolean decides it (43_fault_monitor.md R190). -/
theorem State.latchIf_eq_of_iff {c : Bool} {p : Prop} [Decidable p] (h : c = true ↔ p) (s : State)
    (code : Half) : s.latchIf c code = if p then latched code s else s := by
  rw [State.latchIf_eq]
  exact if_congr h rfl rfl

/-- Settles O28: the level as a binary32 pattern, the pressure as an unsigned integer. -/
theorem levelAndPressureChecksLatch : Obligations.LevelAndPressureChecksLatch := by
  obtain ⟨hcklvl, rcklvl⟩ := encoding_of_formatN (base := 0x88) (i := .cklvl) (decodeByte_formByte 17)
  obtain ⟨hckdph, rckdph⟩ := encoding_of_formatN (base := 0xC8) (i := .ckdph) (decodeByte_formByte 25)
  refine ⟨fun s => ⟨⟨hcklvl, ?_⟩, ⟨hckdph, ?_⟩⟩, fun sel hsel => ⟨rcklvl sel hsel, rckdph sel hsel⟩⟩
  · exact congrArg Host.Outcome.next (State.latchIf_eq s _ _)
  · exact congrArg Host.Outcome.next (State.latchIf_eq_of_iff decide_eq_true_iff s _)

theorem stalled_iff (count : Nat) (duty : Byte) : stalled count duty = true ↔ count = 0 ∧ duty ≠ 0 := by
  simp [stalled]

theorem exec_ckfs (f : Fan) (s : State) : exec (.ckfs (fanNumber f)) s = .next
    (if (s.filters.get (fanFilter f)).count = 0 ∧ s.out.fanPwmOut ≠ 0
      then latched (stallCode s.cfg.codes f) s else s) := by
  have hfan : exec (.ckfs (fanNumber f)) s = .next (s.checkFan f) := onFan_fanNumber f State.checkFan s
  rw [hfan]
  exact congrArg Host.Outcome.next (State.latchIf_eq_of_iff (stalled_iff _ _) s _)

theorem decodeByte_ckfs (sel : Sel) : decodeByte (formByte 0xD0 sel) = formatT 26 sel .ckfs :=
  decodeByte_formByte 26 sel

/-- Settles O29: each fan is judged by its own filter and code. -/
theorem stallCheckLatchesPerFan : Obligations.StallCheckLatchesPerFan := by
  have hencodes (f : Fan) : Encodes (formByte 0xD0 (fanNumber f)) (.ckfs (fanNumber f)) :=
    encodes_of_decodeByte ((decodeByte_ckfs _).trans (formatT_fanNumber 26 f .ckfs))
  refine ⟨fun s => ⟨⟨hencodes .top, exec_ckfs .top s⟩, ⟨hencodes .bottom, exec_ckfs .bottom s⟩⟩,
    fun sel s hsel => ⟨?_, onFan_illegal hsel State.checkFan s⟩⟩
  exact rejected_of_decodeByte ((decodeByte_ckfs sel).trans (formatT_illegal 26 hsel .ckfs))

/-- Settles O30: the pump's condition is the two bits'. -/
theorem pumpWithoutFlowLatches : Obligations.PumpWithoutFlowLatches := by
  obtain ⟨hencodes, hrejected⟩ := encoding_of_formatN (base := 0xD8) (i := .ckpmp) (decodeByte_formByte 27)
  refine ⟨fun s => ⟨hencodes, ?_⟩, hrejected⟩
  exact congrArg Host.Outcome.next (State.latchIf_eq_of_iff (by simp [pumpWithoutFlow]) s _)

/-- Settles O31: LATCH takes the latch, with the low half of `din`. -/
theorem latchTakesTheHostsCode : Obligations.LatchTakesTheHostsCode := by
  obtain ⟨hencodes, hrejected⟩ := encoding_of_formatN (base := 0xE0) (i := .latch) (decodeByte_formByte 28)
  exact ⟨fun s => ⟨hencodes, rfl⟩, hrejected⟩

end Sys2Proof.Machine
end

section
/-!
SUPPORT. TSTEP by cases (spec/44_thermal_sm.md): with NaN operands (R239 (a)), and the transition table
(R240) from the three rules, each with its gate open or shut.
-/
namespace Sys2Proof.Machine

open Sys2Proof.Safety

/-! ### NaN operands -/

/-- Turning the sign over keeps a NaN a NaN. -/
theorem f32IsNan_fneg32 (a : Word) : f32IsNan (fneg32 a) = f32IsNan a := by
  have hbits := fneg32_toNat a
  have hexp : f32Exponent (fneg32 a) = f32Exponent a := by
    rw [f32Exponent_eq, f32Exponent_eq]
    omega
  have hfrac : f32Fraction (fneg32 a) = f32Fraction a := by
    rw [f32Fraction_eq, f32Fraction_eq]
    omega
  rw [f32IsNan, f32IsNan, hexp, hfrac]

theorem fadd32_of_nan {a b : Word} (h : f32IsNan a = true ∨ f32IsNan b = true) : fadd32 a b = none :=
  if_pos (by simpa using h)

theorem fsub32_of_nan {a b : Word} (h : f32IsNan a = true ∨ f32IsNan b = true) : fsub32 a b = none :=
  fadd32_of_nan (by rwa [f32IsNan_fneg32])

theorem flt32_of_nan {a b : Word} (h : f32IsNan a = true ∨ f32IsNan b = true) : flt32 a b = false := by
  obtain h | h := h <;> simp [flt32, h]

theorem fle32_of_nan {a b : Word} (h : f32IsNan a = true ∨ f32IsNan b = true) : fle32 a b = false := by
  obtain h | h := h <;> simp [fle32, h]

theorem fgtResult_of_nan {a : Word} (h : f32IsNan a = true) (r : F32Result) : fgtResult a r = false := by
  cases r with
  | none => rfl
  | some b => exact flt32_of_nan (.inr h)

theorem fleResult_of_nan {a : Word} (h : f32IsNan a = true) (r : F32Result) : fleResult a r = false := by
  cases r with
  | none => rfl
  | some b => exact fle32_of_nan (.inl h)

/-- Settles O38: a NaN makes both comparisons false, its own or through the bound it makes. -/
theorem nanOperandsWriteNothing : Obligations.NanOperandsWriteNothing := by
  rintro s (htemp | hbounds)
  · exact exec_tstep_of_neither (fgtResult_of_nan htemp _) (fleResult_of_nan htemp _)
  · apply exec_tstep_of_neither
    · rw [aboveBand, fadd32_of_nan hbounds]
      rfl
    · rw [belowBand, fsub32_of_nan hbounds]
      rfl

/-! ### The three rules, with the gate open and shut -/

/-- A lockout gate is open from its duration on (R238). -/
theorem lockoutElapsed_iff (now stamp lockout : Word) :
    lockoutElapsed now stamp lockout = true ↔ lockout ≤ now - stamp :=
  decide_eq_true_iff

theorem lockoutElapsed_eq_false_iff (now stamp lockout : Word) :
    lockoutElapsed now stamp lockout = false ↔ now - stamp < lockout := by
  rw [← BitVec.not_le, ← lockoutElapsed_iff, Bool.not_eq_true]

variable {s : State} {now : Word}

theorem openValve_of_open (h : s.out.valveOut = true) : s.openValve now = s := if_pos h

theorem openValve_of_closed (h : s.out.valveOut = false) : s.openValve now =
    { s with
      out := { s.out with valveOut := true }
      lock := { s.lock with lastValveToggle := now } } :=
  if_neg (by simp [h])

theorem startCompressor_of_elapsed (hv : s.settings.valveLockout ≤ now - s.lock.lastValveToggle)
    (hc : s.settings.compressorLockout ≤ now - s.lock.lastCompressorToggle) : s.startCompressor now =
    { s with
      out := { s.out with compressorOut := true, fanPwmOut := Config.fanDutyOn }
      lock := { s.lock with lastCompressorToggle := now } } :=
  if_pos (by simp [(lockoutElapsed_iff _ _ _).2 hv, (lockoutElapsed_iff _ _ _).2 hc])

theorem startCompressor_of_not_elapsed
    (h : now - s.lock.lastValveToggle < s.settings.valveLockout ∨
      now - s.lock.lastCompressorToggle < s.settings.compressorLockout) : s.startCompressor now = s :=
  if_neg (by simpa only [Bool.not_eq_true, Bool.and_eq_false_iff, lockoutElapsed_eq_false_iff] using h)

theorem shutDown_of_elapsed (h : s.settings.compressorLockout ≤ now - s.lock.lastCompressorToggle) :
    s.shutDown now =
    { s with
      out := { s.out with compressorOut := false, valveOut := false, fanPwmOut := Config.fanDutyOff }
      lock := { lastCompressorToggle := now, lastValveToggle := now } } :=
  if_pos ((lockoutElapsed_iff _ _ _).2 h)

theorem shutDown_of_not_elapsed (h : now - s.lock.lastCompressorToggle < s.settings.compressorLockout) :
    s.shutDown now = s :=
  if_neg (by simpa only [Bool.not_eq_true, lockoutElapsed_eq_false_iff] using h)

/-! ### The engage path from each side of the valve -/

/-- From a closed valve the valve's gate is open exactly when there is no valve lockout: the valve has just
been opened (rows 1 and 2 of R240). -/
theorem engage_closed_waits (hvalve : s.out.valveOut = false)
    (h : 0 < s.settings.valveLockout ∨
      now - s.lock.lastCompressorToggle < s.settings.compressorLockout) :
    (s.openValve now).startCompressor now = { s with
      out := { s.out with valveOut := true }
      lock := { s.lock with lastValveToggle := now } } := by
  rw [openValve_of_closed hvalve, startCompressor_of_not_elapsed (by simpa using h)]

theorem engage_closed_starts (hvalve : s.out.valveOut = false) (hv : s.settings.valveLockout = 0)
    (hc : s.settings.compressorLockout ≤ now - s.lock.lastCompressorToggle) :
    (s.openValve now).startCompressor now = { s with
      out := { s.out with valveOut := true, compressorOut := true, fanPwmOut := Config.fanDutyOn }
      lock := { lastCompressorToggle := now, lastValveToggle := now } } := by
  rw [openValve_of_closed hvalve, startCompressor_of_elapsed (by simp [hv]) (by exact hc)]

end Sys2Proof.Machine
end

section
/-!
SUPPORT. The transition table of TSTEP (spec/44_thermal_sm.md R240), row by row from the rules.
-/
namespace Sys2Proof.Machine

open Sys2Proof.Safety

/-- Settles O40: one rule runs in each of the three bands, and its gates select the row. -/
theorem transitionTableHolds : Obligations.TransitionTableHolds := by
  intro s t hi lo hhi hlo hband hrun h now T VL CL vt ct hot inside cold both
  have hstep : t = s.thermalStep := by
    rw [exec_tstep_of_running hrun] at h
    cases h
    rfl
  have hinside : inside → t = s := by
    rintro ⟨hlow, hhigh⟩
    obtain ⟨hkept, -⟩ := deadBandWritesNothing s hi lo hhi hlo
    rw [hkept hlow hhigh] at h
    cases h
    rfl
  have hhot : hot → t = (s.openValve now).startCompressor now := fun hT =>
    hstep.trans (thermalStep_hot hhi hlo hband hT)
  have hcold : cold → t = s.shutDown now := fun hT => hstep.trans (thermalStep_cold hhi hlo hband hT)
  have hnotHot : ∀ row : Outputs → Prop, row s.out →
      (inside → row t.out ∧ t.lock = s.lock) ∧
      (cold → CL ≤ ct → Idle t.out ∧ t.lock = both) ∧
      (cold → ct < CL → row t.out ∧ t.lock = s.lock) := by
    intro row hrow
    refine ⟨fun hT => ?_, fun hT hc => ?_, fun hT hc => ?_⟩
    · rw [hinside hT]
      exact ⟨hrow, rfl⟩
    · rw [hcold hT, shutDown_of_elapsed hc]
      exact ⟨⟨rfl, rfl, rfl⟩, rfl⟩
    · rw [hcold hT, shutDown_of_not_elapsed hc]
      exact ⟨hrow, rfl⟩
  have hhotOpen : s.out.valveOut = true → ∀ row : Outputs → Prop, row s.out →
      (hot → VL ≤ vt → CL ≤ ct →
        Cooling t.out ∧ t.lock = { s.lock with lastCompressorToggle := now }) ∧
      (hot → vt < VL ∨ ct < CL → row t.out ∧ t.lock = s.lock) := by
    intro hvalve row hrow
    refine ⟨fun hT hv hc => ?_, fun hT hwait => ?_⟩
    · rw [hhot hT, openValve_of_open hvalve, startCompressor_of_elapsed hv hc]
      exact ⟨⟨hvalve, rfl, rfl⟩, rfl⟩
    · rw [hhot hT, openValve_of_open hvalve, startCompressor_of_not_elapsed hwait]
      exact ⟨hrow, rfl⟩
  refine ⟨fun hidle => ⟨fun hT hwait => ?_, fun hT hv hc => ?_, hnotHot Idle hidle⟩,
    fun hopen => ?_, fun hcooling => ?_⟩
  · obtain ⟨hvalve, hcomp, hduty⟩ := hidle
    rw [hhot hT, engage_closed_waits hvalve hwait]
    exact ⟨⟨rfl, hcomp, hduty⟩, rfl⟩
  · obtain ⟨hvalve, -⟩ := hidle
    rw [hhot hT, engage_closed_starts hvalve hv hc]
    exact ⟨⟨rfl, rfl, rfl⟩, rfl⟩
  · obtain ⟨hstarts, hwaits⟩ := hhotOpen hopen.1 ValveOpen hopen
    exact ⟨hstarts, hwaits, hnotHot ValveOpen hopen⟩
  · obtain ⟨hstarts, hwaits⟩ := hhotOpen hcooling.1 Cooling hcooling
    exact ⟨hstarts, hwaits, hnotHot Cooling hcooling⟩

end Sys2Proof.Machine
end

section
/-!
SUPPORT. The floating-point primitives against the rationals (spec/00_scope.md R9): the exact result rounded
once, comparisons by value, and the special cases.
-/
namespace Sys2Proof.Machine

open Sys2Proof.Safety

/-! ### Rounding -/

/-- A sign and the rounded magnitude of a rational are that rational rounded. -/
theorem roundsTo_withSign {q : ℚ} {neg : Bool} {n d : Nat} (hd : 0 < d) (hq : |q| = (n : ℚ) / d)
    (hn : neg = true → q ≤ 0) (hp : neg = false → 0 ≤ q) :
    RoundsTo q (withSign neg (roundMagnitude n d)) := by
  apply roundsTo_of_nearest hn hp
  rw [hq]
  exact roundMagnitude_nearest n hd

/-- Settles O51: `rne32` is the rounded magnitude with the sign `+`. -/
theorem rneIsNearestEven : Obligations.RneIsNearestEven := by
  intro n d hd
  have hpos : (0 : ℚ) ≤ (n : ℚ) / d := by positivity
  exact roundsTo_withSign hd (abs_of_nonneg hpos) (fun h => (Bool.false_ne_true h).elim) (fun _ => hpos)

/-! ### Values -/

theorem abs_f32Value (a : Word) : |f32Value a| = (f32Magnitude a : ℚ) / (2 ^ 149 : Nat) := by
  have hscaled : |(f32Scaled a : ℚ)| = f32Magnitude a := by exact_mod_cast abs_f32Scaled a
  rw [f32Value_eq_div, abs_div, hscaled, abs_of_pos (by positivity)]
  norm_cast

theorem f32Value_nonpos {a : Word} (h : f32Sign a = true) : f32Value a ≤ 0 := by
  have hscaled : (f32Scaled a : ℚ) ≤ 0 := by simp [f32Scaled, h]
  rw [f32Value_eq_div]
  exact div_nonpos_of_nonpos_of_nonneg hscaled (by positivity)

theorem f32Value_nonneg {a : Word} (h : f32Sign a = false) : 0 ≤ f32Value a := by
  have hscaled : (0 : ℚ) ≤ f32Scaled a := by simp [f32Scaled, h]
  rw [f32Value_eq_div]
  positivity

theorem f32Value_lt_iff (a b : Word) : f32Value a < f32Value b ↔ f32Scaled a < f32Scaled b := by
  rw [f32Value_eq_div, f32Value_eq_div, div_lt_div_iff_of_pos_right (by positivity)]
  exact Int.cast_lt

theorem f32Value_le_iff (a b : Word) : f32Value a ≤ f32Value b ↔ f32Scaled a ≤ f32Scaled b := by
  rw [f32Value_eq_div, f32Value_eq_div, div_le_div_iff_of_pos_right (by positivity)]
  exact Int.cast_le

theorem f32Magnitude_eq_zero_iff (a : Word) : f32Magnitude a = 0 ↔ f32Value a = 0 := by
  rw [← abs_eq_zero, abs_f32Value, div_eq_zero_iff]
  simp

theorem f32Value_fneg32 (a : Word) : f32Value (fneg32 a) = -f32Value a := by
  rw [f32Value_eq_div, f32Value_eq_div, fneg32_scaled]
  push_cast
  ring

theorem f32Value_add (a b : Word) :
    f32Value a + f32Value b = ((f32Scaled a + f32Scaled b : Int) : ℚ) / (2 ^ 149 : Nat) := by
  rw [f32Value_eq_div, f32Value_eq_div]
  push_cast
  ring

/-! ### The four primitives on finite operands -/

theorem fadd32_of_finite {a b : Word} (ha : F32Finite a) (hb : F32Finite b) :
    fadd32 a b = if f32Scaled a + f32Scaled b = 0 then some (withSign (f32Sign a && f32Sign b) 0)
      else some (withSign (decide (f32Scaled a + f32Scaled b < 0))
        (roundMagnitude (f32Scaled a + f32Scaled b).natAbs (2 ^ 149))) := by
  simp [fadd32, f32IsNan_of_finite ha, f32IsNan_of_finite hb, f32IsInf_of_finite ha,
    f32IsInf_of_finite hb]

theorem roundsTo_fadd32 {a b : Word} (ha : F32Finite a) (hb : F32Finite b) :
    ∃ r, fadd32 a b = some r ∧ RoundsTo (f32Value a + f32Value b) r := by
  rw [fadd32_of_finite ha hb, f32Value_add]
  generalize f32Scaled a + f32Scaled b = k
  split
  · next hk =>
    subst hk
    have hzero : roundMagnitude 0 1 = 0 := rfl
    refine ⟨_, rfl, ?_⟩
    rw [← hzero]
    exact roundsTo_withSign one_pos (by simp) (fun _ => by simp) (fun _ => by simp)
  · refine ⟨_, rfl, roundsTo_withSign (by positivity) ?_ ?_ ?_⟩
    · rw [abs_div, Nat.abs_cast, Nat.cast_natAbs, Int.cast_abs]
    · intro hneg
      have hk : (k : ℚ) ≤ 0 := by exact_mod_cast (of_decide_eq_true hneg).le
      exact div_nonpos_of_nonpos_of_nonneg hk (by positivity)
    · intro hpos
      have hk : (0 : ℚ) ≤ k := by exact_mod_cast not_lt.1 (of_decide_eq_false hpos)
      positivity

theorem roundsTo_fsub32 {a b : Word} (ha : F32Finite a) (hb : F32Finite b) :
    ∃ r, fsub32 a b = some r ∧ RoundsTo (f32Value a - f32Value b) r := by
  rw [sub_eq_add_neg, ← f32Value_fneg32]
  exact roundsTo_fadd32 ha ((fneg32_finite b).2 hb)

/-- The sign of a product or quotient is the signs' difference. -/
theorem sign_mul_le {a b : Word} (h : (f32Sign a != f32Sign b) = true) : f32Value a * f32Value b ≤ 0 := by
  cases ha : f32Sign a <;> cases hb : f32Sign b <;> simp only [ha, hb, bne_self_eq_false] at h
  · cases h
  · exact mul_nonpos_of_nonneg_of_nonpos (f32Value_nonneg ha) (f32Value_nonpos hb)
  · exact mul_nonpos_of_nonpos_of_nonneg (f32Value_nonpos ha) (f32Value_nonneg hb)
  · cases h

theorem sign_mul_ge {a b : Word} (h : (f32Sign a != f32Sign b) = false) : 0 ≤ f32Value a * f32Value b := by
  cases ha : f32Sign a <;> cases hb : f32Sign b <;> simp only [ha, hb] at h
  · exact mul_nonneg (f32Value_nonneg ha) (f32Value_nonneg hb)
  · cases h
  · cases h
  · exact mul_nonneg_of_nonpos_of_nonpos (f32Value_nonpos ha) (f32Value_nonpos hb)

theorem fmul32_of_finite {a b : Word} (ha : F32Finite a) (hb : F32Finite b) :
    fmul32 a b = some (withSign (f32Sign a != f32Sign b)
      (roundMagnitude (f32Magnitude a * f32Magnitude b) (2 ^ 149 * 2 ^ 149))) := by
  simp [fmul32, f32IsNan_of_finite ha, f32IsNan_of_finite hb, f32IsInf_of_finite ha,
    f32IsInf_of_finite hb]

theorem roundsTo_fmul32 {a b : Word} (ha : F32Finite a) (hb : F32Finite b) :
    ∃ r, fmul32 a b = some r ∧ RoundsTo (f32Value a * f32Value b) r := by
  refine ⟨_, fmul32_of_finite ha hb, roundsTo_withSign (by positivity) ?_ sign_mul_le sign_mul_ge⟩
  rw [abs_mul, abs_f32Value, abs_f32Value, div_mul_div_comm, Nat.cast_mul, Nat.cast_mul]

theorem fdiv32_of_finite {a b : Word} (ha : F32Finite a) (hb : F32Finite b) (h : f32Magnitude b ≠ 0) :
    fdiv32 a b = some (withSign (f32Sign a != f32Sign b)
      (roundMagnitude (f32Magnitude a) (f32Magnitude b))) := by
  simp [fdiv32, f32IsNan_of_finite ha, f32IsNan_of_finite hb, f32IsInf_of_finite ha,
    f32IsInf_of_finite hb, h]

/-- A quotient has the sign of the product. -/
theorem div_eq_mul_mul_inv_sq (x y : ℚ) : x / y = x * y * (y⁻¹ * y⁻¹) := by
  rcases eq_or_ne y 0 with rfl | hy
  · simp
  · field_simp

theorem roundsTo_fdiv32 {a b : Word} (ha : F32Finite a) (hb : F32Finite b) (hvalue : f32Value b ≠ 0) :
    ∃ r, fdiv32 a b = some r ∧ RoundsTo (f32Value a / f32Value b) r := by
  have hmag : f32Magnitude b ≠ 0 := fun h => hvalue ((f32Magnitude_eq_zero_iff b).1 h)
  refine ⟨_, fdiv32_of_finite ha hb hmag, roundsTo_withSign (Nat.pos_of_ne_zero hmag) ?_ ?_ ?_⟩
  · rw [abs_div, abs_f32Value, abs_f32Value, div_div_div_cancel_right₀ (by positivity)]
  · intro hneg
    rw [div_eq_mul_mul_inv_sq]
    exact mul_nonpos_of_nonpos_of_nonneg (sign_mul_le hneg) (mul_self_nonneg _)
  · intro hpos
    rw [div_eq_mul_mul_inv_sq]
    exact mul_nonneg (sign_mul_ge hpos) (mul_self_nonneg _)

/-! ### An exact zero sum -/

/-- `-0.0` is the one pattern with the sign `-` and magnitude 0. -/
theorem eq_negZero_iff (a : Word) : a = 0x80000000 ↔ f32Sign a = true ∧ f32Magnitude a = 0 := by
  constructor
  · rintro rfl
    exact ⟨rfl, by decide⟩
  · rintro ⟨hsign, hmag⟩
    have hbits : a.toNat % 2 ^ 31 = 0 := by
      by_contra hne
      exact (patternMagnitude_pos.2 hne).ne' (f32Magnitude_eq a ▸ hmag)
    have htop : a.toNat / 2 ^ 31 % 2 = 1 := by
      rw [f32Sign, BitVec.getLsbD, Nat.testBit_eq_decide_div_mod_eq] at hsign
      exact of_decide_eq_true hsign
    have hlt := a.isLt
    exact BitVec.eq_of_toNat_eq (by simp; omega)

theorem fadd32_of_zero_sum {a b : Word} (ha : F32Finite a) (hb : F32Finite b)
    (h : f32Value a + f32Value b = 0) :
    fadd32 a b = some (if a = 0x80000000 ∧ b = 0x80000000 then 0x80000000 else 0x00000000) := by
  have hscaled : f32Scaled a + f32Scaled b = 0 := by
    rw [f32Value_add, div_eq_zero_iff] at h
    exact_mod_cast h.resolve_right (by norm_num)
  have hboth : (f32Sign a && f32Sign b) = true ↔ a = 0x80000000 ∧ b = 0x80000000 := by
    rw [eq_negZero_iff, eq_negZero_iff, Bool.and_eq_true]
    constructor
    · rintro ⟨hsa, hsb⟩
      simp only [f32Scaled, hsa, hsb, if_true] at hscaled
      refine ⟨⟨hsa, ?_⟩, hsb, ?_⟩ <;> omega
    · rintro ⟨⟨hsa, -⟩, hsb, -⟩
      exact ⟨hsa, hsb⟩
  rw [fadd32_of_finite ha hb, if_pos hscaled]
  by_cases hz : a = 0x80000000 ∧ b = 0x80000000
  · rw [if_pos hz, hboth.2 hz]
    rfl
  · rw [if_neg hz, Bool.eq_false_iff.2 fun hc => hz (hboth.1 hc)]
    rfl

/-- Settles O52: each primitive's own lemma. -/
theorem arithmeticRoundsTheExactResult : Obligations.ArithmeticRoundsTheExactResult := by
  intro a b ha hb
  exact ⟨roundsTo_fadd32 ha hb, roundsTo_fsub32 ha hb, roundsTo_fmul32 ha hb, roundsTo_fdiv32 ha hb,
    fadd32_of_zero_sum ha hb⟩

/-! ### Comparisons -/

theorem flt32_iff_of_finite {a b : Word} (ha : F32Finite a) (hb : F32Finite b) :
    flt32 a b = true ↔ f32Value a < f32Value b := by
  simp [flt32, f32IsNan_of_finite ha, f32IsNan_of_finite hb, f32Value_lt_iff]

theorem fle32_iff_of_finite {a b : Word} (ha : F32Finite a) (hb : F32Finite b) :
    fle32 a b = true ↔ f32Value a ≤ f32Value b := by
  simp [fle32, f32IsNan_of_finite ha, f32IsNan_of_finite hb, f32Value_le_iff]

/-- The magnitude of a finite pattern is below infinity's. -/
theorem f32Magnitude_lt_inf {a : Word} (h : F32Finite a) : f32Magnitude a < patternMagnitude f32InfMagnitude := by
  rw [f32Magnitude_eq]
  exact patternMagnitude_lt ((f32Finite_iff a).1 h)

theorem f32Scaled_posInf : f32Scaled 0x7F800000 = patternMagnitude f32InfMagnitude :=
  f32Scaled_withSign false (p := f32InfMagnitude) (by decide)

theorem f32Scaled_negInf : f32Scaled 0xFF800000 = -(patternMagnitude f32InfMagnitude : Int) :=
  f32Scaled_withSign true (p := f32InfMagnitude) (by decide)

/-- Infinities lie beyond every finite pattern. -/
theorem f32Scaled_between {a : Word} (h : F32Finite a) :
    f32Scaled 0xFF800000 < f32Scaled a ∧ f32Scaled a < f32Scaled 0x7F800000 := by
  have habs : |f32Scaled a| < patternMagnitude f32InfMagnitude := by
    rw [abs_f32Scaled]
    exact_mod_cast f32Magnitude_lt_inf h
  rw [f32Scaled_posInf, f32Scaled_negInf]
  exact abs_lt.1 habs

theorem compare_infinities {a : Word} (h : F32Finite a) :
    flt32 a 0x7F800000 = true ∧ flt32 0xFF800000 a = true ∧ fle32 a 0x7F800000 = true ∧
    fle32 0x7F800000 a = false ∧ fle32 0xFF800000 a = true ∧ fle32 a 0xFF800000 = false := by
  have hnan := f32IsNan_of_finite h
  have hpos : f32IsNan 0x7F800000 = false := by decide
  have hneg : f32IsNan 0xFF800000 = false := by decide
  obtain ⟨hlow, hhigh⟩ := f32Scaled_between h
  simp only [flt32, fle32, hnan, hpos, hneg, Bool.not_false, Bool.true_and, decide_eq_true_eq,
    decide_eq_false_iff_not, not_le]
  exact ⟨hhigh, hlow, hhigh.le, hhigh, hlow.le, hlow⟩

/-! ### Special cases -/

theorem fmul32_of_nan {a b : Word} (h : f32IsNan a = true ∨ f32IsNan b = true) : fmul32 a b = none :=
  if_pos (by simpa using h)

theorem fdiv32_of_nan {a b : Word} (h : f32IsNan a = true ∨ f32IsNan b = true) : fdiv32 a b = none :=
  if_pos (by simpa using h)

/-- A finite pattern over `+0.0` (R9). -/
theorem fdiv32_zero {a : Word} (h : F32Finite a) : fdiv32 a 0x00000000 =
    if f32Magnitude a = 0 then none else some (withSign (f32Sign a) f32InfMagnitude) := by
  have hnan : f32IsNan 0#32 = false := by decide
  have hinf : f32IsInf 0#32 = false := by decide
  have hsign : f32Sign 0#32 = false := by decide
  have hmag : f32Magnitude 0#32 = 0 := by decide
  simp [fdiv32, f32IsNan_of_finite h, f32IsInf_of_finite h, hnan, hinf, hsign, hmag]

theorem fdiv32_zero_of_pos {a : Word} (h : F32Finite a) (hvalue : 0 < f32Value a) :
    fdiv32 a 0x00000000 = some 0x7F800000 := by
  have hmag : f32Magnitude a ≠ 0 := fun hc => hvalue.ne' ((f32Magnitude_eq_zero_iff a).1 hc)
  have hsign : f32Sign a = false := Bool.eq_false_iff.2 fun hc => (f32Value_nonpos hc).not_gt hvalue
  rw [fdiv32_zero h, if_neg hmag, hsign]
  rfl

theorem fdiv32_zero_of_neg {a : Word} (h : F32Finite a) (hvalue : f32Value a < 0) :
    fdiv32 a 0x00000000 = some 0xFF800000 := by
  have hmag : f32Magnitude a ≠ 0 := fun hc => hvalue.ne ((f32Magnitude_eq_zero_iff a).1 hc)
  have hsign : f32Sign a = true := by
    by_contra hc
    exact (f32Value_nonneg (Bool.eq_false_iff.2 hc)).not_gt hvalue
  rw [fdiv32_zero h, if_neg hmag, hsign]
  rfl

/-- Zero times an infinity (R9). -/
theorem fmul32_zero_inf {a b : Word} (h : f32Value a = 0) (hb : f32IsInf b = true) : fmul32 a b = none := by
  have hmag := (f32Magnitude_eq_zero_iff a).2 h
  unfold fmul32
  simp [hb, hmag]

theorem zero_cases {a : Word} (h : F32Finite a) (hvalue : f32Value a = 0) :
    fdiv32 a 0x00000000 = none ∧ fmul32 a 0x7F800000 = none ∧ fmul32 a 0xFF800000 = none := by
  refine ⟨?_, fmul32_zero_inf hvalue (by decide), fmul32_zero_inf hvalue (by decide)⟩
  rw [fdiv32_zero h, if_pos ((f32Magnitude_eq_zero_iff a).2 hvalue)]

/-- Settles O53: NaNs, values and infinities each by their lemma; the last six by evaluation. -/
theorem comparisonsAndSpecialCases : Obligations.ComparisonsAndSpecialCases := by
  refine ⟨fun a b h => ?_, fun a b ha hb => ?_, fun a ha => compare_infinities ha, fun a ha => ?_,
    by decide, by decide, by decide, by decide, by decide, by decide⟩
  · exact ⟨fadd32_of_nan h, fsub32_of_nan h, fmul32_of_nan h, fdiv32_of_nan h, flt32_of_nan h.symm,
      flt32_of_nan h, fle32_of_nan h⟩
  · exact ⟨flt32_iff_of_finite hb ha, flt32_iff_of_finite ha hb, fle32_iff_of_finite ha hb⟩
  · exact ⟨fdiv32_zero_of_pos ha, fdiv32_zero_of_neg ha, zero_cases ha⟩

end Sys2Proof.Machine
end

section
/-!
SUPPORT. Integers that binary32 holds exactly (spec/00_scope.md R9), and TRPT, whose quotient is never a NaN
with legal parameters (spec/41_tach.md R142; 93_implementation_defined.md U6).
-/
namespace Sys2Proof.Machine

open Sys2Proof.Safety

/-! ### Exact conversions -/

/-- The bits of a signed pattern but the sign. -/
theorem withSign_toNat_mod (neg : Bool) {p : Nat} (hp : p < 2 ^ 31) :
    (withSign neg p).toNat % 2 ^ 31 = p := by
  rw [withSign_toNat neg hp]
  cases neg <;> simp <;> omega

/-- An integer of at most 24 bits is the value of a pattern. -/
theorem exists_pattern_of_nat {n : Nat} (hn : n < 2 ^ 24) :
    ∃ p < f32InfMagnitude, patternMagnitude p = n * 2 ^ 149 := by
  rcases Nat.eq_zero_or_pos n with rfl | hpos
  · exact ⟨0, by decide, by decide⟩
  · have hlow := Nat.log2_self_le hpos.ne'
    have hhigh := Nat.lt_log2_self (n := n)
    have hlog : n.log2 ≤ 23 := by
      by_contra hc
      have : 2 ^ 24 ≤ 2 ^ n.log2 := Nat.pow_le_pow_right (by norm_num) (by omega)
      omega
    generalize n.log2 = l at hlow hhigh hlog
    have hmul : 2 ^ 23 = 2 ^ l * 2 ^ (23 - l) := by rw [← pow_add]; congr 1; omega
    have hshift : 2 ^ 149 = 2 ^ (23 - l) * 2 ^ (126 + l) := by rw [← pow_add]; congr 1; omega
    have hm1 : 2 ^ 23 ≤ n * 2 ^ (23 - l) := by
      rw [hmul]
      exact Nat.mul_le_mul_right _ hlow
    have hm2 : n * 2 ^ (23 - l) ≤ 2 ^ 24 := by
      have h24 : 2 ^ 24 = 2 ^ (l + 1) * 2 ^ (23 - l) := by rw [← pow_add]; congr 1; omega
      rw [h24]
      exact Nat.mul_le_mul_right _ hhigh.le
    refine ⟨(126 + l + 1) * 2 ^ 23 + (n * 2 ^ (23 - l) - 2 ^ 23), ?_, ?_⟩
    · unfold f32InfMagnitude
      omega
    · rw [patternMagnitude_normal hm1 hm2, hshift, Nat.mul_assoc]

/-- Such an integer rounds to itself. -/
theorem rne32_exact {n : Nat} (hn : n < 2 ^ 24) :
    F32Finite (rne32 n 1) ∧ f32Value (rne32 n 1) = n := by
  obtain ⟨p, hp, hmag⟩ := exists_pattern_of_nat hn
  have hp31 : p < 2 ^ 31 := hp.trans (by decide)
  have hbits := withSign_toNat_mod false hp31
  have hfinite : F32Finite (withSign false p) := by
    rw [f32Finite_iff, hbits]
    exact hp
  have hvalue : f32Value (withSign false p) = n := by
    have hscaled : f32Scaled (withSign false p) = patternMagnitude p := f32Scaled_withSign false hp31
    rw [f32Value_eq_div, hscaled, hmag, div_eq_iff (by positivity)]
    push_cast
    ring
  have hbelow : |(n : ℚ)| < 2 ^ 128 - 2 ^ 103 := by
    have hlt : (n : ℚ) < 2 ^ 24 := by exact_mod_cast hn
    rw [abs_of_nonneg (by positivity)]
    exact hlt.trans (by norm_num)
  obtain ⟨hrounds, -, -⟩ := rneIsNearestEven n 1 one_pos
  rw [Nat.cast_one, div_one] at hrounds
  obtain ⟨hfin, hnearest⟩ := hrounds hbelow
  obtain ⟨hle, -⟩ := hnearest (withSign false p) hfinite
  rw [hvalue, sub_self, abs_zero, abs_nonpos_iff, sub_eq_zero] at hle
  exact ⟨hfin, hle.symm⟩

/-- Settles O54: a `u16` and a `u8` have fewer than 24 bits. -/
theorem limitsConvertExactly : Obligations.LimitsConvertExactly :=
  ⟨fun n => rne32_exact (n.isLt.trans (by norm_num)), fun n => rne32_exact (n.isLt.trans (by norm_num))⟩

/-! ### The fan's speed -/

/-- `TACH_K` as the spec restricts it: finite and positive (00_scope.md R5). -/
theorem tachK_range_of_wf {c : Config} (h : c.wf = true) :
    0 < c.tachK.toNat ∧ c.tachK.toNat < f32InfMagnitude := by
  simp only [Config.wf, Bool.and_eq_true, decide_eq_true_eq] at h
  obtain ⟨⟨hrange, -⟩, -⟩ := h
  exact hrange

/-- A product of a positive magnitude and 1000000 is no zero. -/
theorem roundMagnitude_million_ne_zero {m : Nat} (hm : 0 < m) :
    roundMagnitude (m * f32Magnitude f32Million) (2 ^ 149 * 2 ^ 149) ≠ 0 := by
  intro hzero
  have hnear := roundMagnitude_nearest (m * f32Magnitude f32Million) (d := 2 ^ 149 * 2 ^ 149) (by positivity)
  rw [hzero] at hnear
  obtain ⟨hle, -⟩ := hnear.below (by decide)
  have hmillion : f32Magnitude f32Million = 1000000 * 2 ^ 149 := by decide
  rw [patternMagnitude_subnormal (by norm_num), patternMagnitude_subnormal (by norm_num), hmillion] at hle
  have hone : (1 : ℚ) ≤ m := by exact_mod_cast hm
  push_cast at hle
  field_simp at hle
  linarith

/-- With a legal `TACH_K` the product of R142 is a positive pattern, infinity's if it overflows. -/
theorem fmul32_tachK {k : Word} (hpos : 0 < k.toNat) (hfin : k.toNat < f32InfMagnitude) :
    ∃ p, p ≤ f32InfMagnitude ∧ p ≠ 0 ∧ fmul32 k f32Million = some (withSign false p) := by
  have hbits : k.toNat % 2 ^ 31 = k.toNat := Nat.mod_eq_of_lt (hfin.trans (by decide))
  have hk : F32Finite k := by
    rw [f32Finite_iff, hbits]
    exact hfin
  have hmillion : F32Finite f32Million := by
    unfold F32Finite
    decide
  have hsign : f32Sign k = false := by
    rw [f32Sign, BitVec.getLsbD]
    exact Nat.testBit_lt_two_pow (hfin.trans (by decide))
  have hmag : 0 < f32Magnitude k := by
    rw [f32Magnitude_eq, hbits]
    exact patternMagnitude_pos.2 hpos.ne'
  refine ⟨_, (roundMagnitude_nearest _ (by positivity)).le_inf, roundMagnitude_million_ne_zero hmag, ?_⟩
  rw [fmul32_of_finite hk hmillion, hsign]
  rfl

/-- A mean of 40-bit sums is finite. -/
theorem rne32_finite {n d : Nat} (hd : 0 < d) (hn : n < 2 ^ 40) : F32Finite (rne32 n d) := by
  obtain ⟨hrounds, -, -⟩ := rneIsNearestEven n d hd
  have hle : (n : ℚ) / d ≤ n := div_le_self (by positivity) (by exact_mod_cast hd)
  have hlt : (n : ℚ) < 2 ^ 40 := by exact_mod_cast hn
  have hbelow : |(n : ℚ) / d| < 2 ^ 128 - 2 ^ 103 := by
    rw [abs_of_nonneg (by positivity)]
    exact hle.trans_lt (hlt.trans (by norm_num))
  obtain ⟨hfin, -⟩ := hrounds hbelow
  exact hfin

/-- A positive pattern over a finite one is no NaN: only zero over zero, or two infinities, would give one. -/
theorem fdiv32_of_pos {p : Nat} {b : Word} (hp : p ≤ f32InfMagnitude) (hne : p ≠ 0) (hb : F32Finite b) :
    ∃ r, fdiv32 (withSign false p) b = some r ∧ f32IsNan r = false := by
  have hnan : f32IsNan (withSign false p) = false := f32IsNan_withSign false hp
  have hmag : f32Magnitude (withSign false p) ≠ 0 := by
    have hp31 : p < 2 ^ 31 := hp.trans_lt (by decide)
    rw [f32Magnitude_eq, withSign_toNat_mod false hp31]
    exact (patternMagnitude_pos.2 hne).ne'
  unfold fdiv32
  simp only [hnan, f32IsNan_of_finite hb, f32IsInf_of_finite hb, Bool.or_self, Bool.false_eq_true, if_false,
    if_neg hmag]
  split
  · exact ⟨_, rfl, f32IsNan_withSign _ le_rfl⟩
  · split
    · exact ⟨_, rfl, f32IsNan_withSign _ le_rfl⟩
    · next hb0 =>
      exact ⟨_, rfl, f32IsNan_withSign _ (roundMagnitude_nearest _ (Nat.pos_of_ne_zero hb0)).le_inf⟩

/-! ### TRPT -/

theorem decodeByte_trpt (sel : Sel) : decodeByte (formByte 0x30 sel) = formatT 6 sel .trpt :=
  decodeByte_formByte 6 sel

theorem exec_trpt (f : Fan) (s : State) : exec (.trpt (fanNumber f)) s = .next (s.reportFan f) :=
  onFan_fanNumber f State.reportFan s

theorem reportFan_of_empty {f : Fan} {s : State} (h : (s.filters.get (fanFilter f)).count = 0) :
    s.reportFan f = s.setRd (s.rd.setTach f f32Zero) := by
  rw [State.reportFan, if_pos h]

theorem fanSpeed_of_some {k mean product rpm : Word} (h1 : fmul32 k f32Million = some product)
    (h2 : fdiv32 product mean = some rpm) : fanSpeed k mean = rpm := by
  simp only [fanSpeed, h1, h2]

theorem reportFan_of_some {f : Fan} {s : State} {product rpm : Word}
    (hcount : (s.filters.get (fanFilter f)).count ≠ 0)
    (h1 : fmul32 s.cfg.tachK f32Million = some product)
    (h2 : fdiv32 product (rne32 (s.filters.get (fanFilter f)).sum.toNat
      (s.filters.get (fanFilter f)).count) = some rpm) :
    s.reportFan f = s.setRd (s.rd.setTach f rpm) := by
  rw [State.reportFan, if_neg hcount, filterMean, if_neg hcount, fanSpeed_of_some h1 h2]

/-- With legal parameters and a sample the quotient of R142 exists and is no NaN. -/
theorem fanSpeed_exists {c : Config} {f : FilterWindow} (hwf : c.wf = true) (hcount : f.count ≠ 0) :
    ∃ product rpm, fmul32 c.tachK f32Million = some product ∧
      fdiv32 product (rne32 f.sum.toNat f.count) = some rpm ∧ f32IsNan rpm = false := by
  obtain ⟨hpos, hfin⟩ := tachK_range_of_wf hwf
  obtain ⟨p, hp, hne, hproduct⟩ := fmul32_tachK hpos hfin
  obtain ⟨rpm, hrpm, hnan⟩ := fdiv32_of_pos hp hne (rne32_finite (Nat.pos_of_ne_zero hcount) f.sum.isLt)
  exact ⟨_, rpm, hproduct, hrpm, hnan⟩

/-- Settles O19: each fan's register and filter are found by cases on the fan. -/
theorem trptReportsTheFanSpeed : Obligations.TrptReportsTheFanSpeed := by
  refine ⟨fun f s => ?_, fun sel s hsel => ⟨?_, onFan_illegal hsel State.reportFan s⟩⟩
  · have hencodes := encodes_of_decodeByte ((decodeByte_trpt _).trans (formatT_fanNumber 6 f .trpt))
    have hexec := exec_trpt f s
    have hempty := fun hcount => hexec.trans (congrArg _ (reportFan_of_empty hcount))
    have hsome := fun product rpm hcount h1 h2 =>
      hexec.trans (congrArg _ (reportFan_of_some (product := product) (rpm := rpm) hcount h1 h2))
    cases f <;> exact ⟨hencodes, hempty, hsome, fun hcount hwf => fanSpeed_exists hwf hcount⟩
  · exact rejected_of_decodeByte ((decodeByte_trpt sel).trans (formatT_illegal 6 hsel .trpt))

end Sys2Proof.Machine
end
